-- ==== Sys2Proof/Word.lean ====
section
/-! DEFINITION. The word types of the codec (rule R7 of 00_scope.md): what the spec treats as bits is a bit vector, what it
uses only as an index is a `Fin`, and a bit string is a list of bits with its first bit first (rule R9). -/

namespace Sys2Proof

/-- A byte of YIN or YOUT (rules R64, R66). -/
abbrev Byte := BitVec 8

/-- A 32-bit word: a register of the host interface (REG_W) or a command word (rules R30, R80). -/
abbrev Word := BitVec 32

/-- A frequency count, COUNT_W = 32 bits (rule R7). -/
abbrev Count := BitVec 32

/-- A node weight, WEIGHT_W = 41 bits (rule R7). -/
abbrev Weight := BitVec 41

/-- A symbol, SYM_W = 9 bits: 0..255 a byte, 256 PSEUDO_EOF, 257 NOT_A_CHAR (rule R7). -/
abbrev Symbol := BitVec 9

/-- A transfer counter, COUNTER_W = 64 bits (rule R7). -/
abbrev Counter := BitVec 64

/-- A symbol that may be a key of FT or a leaf: NSYM = 257 of them, 0..256 (rules R7, R40). -/
abbrev Key := Fin 257

/-- A node index, 0..512 (rule R7: NODE_W = 10 bits hold it; MAX_NODES = 513). -/
abbrev NodeIdx := Fin 513

/-- A bit string, first bit first; `false` is the bit 0 and `true` the bit 1 (rule R9). -/
abbrev Path := List Bool

end Sys2Proof
end

