-- ==== Sys2Proof/Syntax.lean ====
section
/-! DEFINITION. The commands of the codec: one constructor per row of spec/opcode_table.json (rule R82 of 30_encoding.md), and
the command word format CMD (rule R80). No command has an operand field (rule R83), so no constructor has an argument. -/

namespace Sys2Proof

/-- The nine commands (rule R82). -/
inductive Instr where
  /-- NOP, OP 0x0 (rule R100). -/
  | nop
  /-- CLEAR, OP 0x1 (rule R102). -/
  | clear
  /-- FREQ_COUNT, OP 0x2 (rule R110). -/
  | freqCount
  /-- HDR_WRITE, OP 0x3 (rule R170). -/
  | hdrWrite
  /-- HDR_READ, OP 0x4 (rule R180). -/
  | hdrRead
  /-- BUILD_TREE, OP 0x5 (rule R120). -/
  | buildTree
  /-- GEN_CODES, OP 0x6 (rule R140). -/
  | genCodes
  /-- ENCODE, OP 0x7 (rule R150). -/
  | encode
  /-- DECODE, OP 0x8 (rule R160). -/
  | decode
  deriving DecidableEq, Repr

/-- A command word split into the two fields of the one format CMD (rule R80). -/
structure CmdWord where
  /-- OP, bits 3:0. -/
  op : BitVec 4
  /-- RSVD, bits 31:4: reserved, must be 0. -/
  rsvd : BitVec 28
  deriving DecidableEq, Repr

end Sys2Proof
end

