-- ==== Sys2Proof/WellFormed.lean ====
section
/-! DEFINITION. When a command word is well formed (rules R80, R81, R84 of 30_encoding.md). A command has no operands (rule
R83), so every `Instr` is well formed; the two checks are on the word's fields. -/

namespace Sys2Proof

/-- RSVD must be 0 (rules R80, R84). -/
def CmdWord.reservedZero (c : CmdWord) : Bool := c.rsvd == 0#28

/-- OP must be one of the nine opcodes 0x0 to 0x8; 0x9 to 0xF are reserved (rules R82, R84). -/
def CmdWord.opDefined (c : CmdWord) : Bool := c.op.toNat < 0x9

/-- A well-formed command word: both checks of rule R81. -/
def CmdWord.wellFormed (c : CmdWord) : Bool := c.reservedZero && c.opDefined

/-- Every command is well formed: it has no operand field that could be out of range (rule R83). -/
def Instr.wellFormed : Instr → Bool
  | .nop => true
  | .clear => true
  | .freqCount => true
  | .hdrWrite => true
  | .hdrRead => true
  | .buildTree => true
  | .genCodes => true
  | .encode => true
  | .decode => true

end Sys2Proof
end

