-- ==== Sys2Proof/Decode.lean ====
section
/-! DEFINITION. The decoder of command words, total on every 32-bit word and rejecting by name (rule R81 of 30_encoding.md),
and the encoder, written from the opcode map (rule R82). -/

namespace Sys2Proof

/-- What a command word decodes to: one of the nine commands, or IllegalCommand with the word (rule R81). -/
inductive Decoded where
  | command (i : Instr)
  | illegalCommand (w : Word)
  deriving DecidableEq, Repr

/-- The fields of a command word: OP = w[3:0] and RSVD = w[31:4] (rule R80). -/
def cmdFields (w : Word) : CmdWord :=
  { op := w.extractLsb' 0 4, rsvd := w.extractLsb' 4 28 }

/-- The opcode map (rule R82): the command of an OP value, none for the reserved values 0x9 to 0xF. -/
def opCommand (op : BitVec 4) : Option Instr :=
  match op.toNat with
  | 0x0 => some .nop
  | 0x1 => some .clear
  | 0x2 => some .freqCount
  | 0x3 => some .hdrWrite
  | 0x4 => some .hdrRead
  | 0x5 => some .buildTree
  | 0x6 => some .genCodes
  | 0x7 => some .encode
  | 0x8 => some .decode
  | _ => none

/-- Decode on accept (rule R81): a nonzero RSVD or a reserved OP is IllegalCommand. -/
def decode (w : Word) : Decoded :=
  if (cmdFields w).reservedZero then
    match opCommand (cmdFields w).op with
    | some i => .command i
    | none => .illegalCommand w
  else .illegalCommand w

/-- The word of a command, from the "word" column of the opcode map (rule R82). -/
def encode : Instr → Word
  | .nop => 0x00000000#32
  | .clear => 0x00000001#32
  | .freqCount => 0x00000002#32
  | .hdrWrite => 0x00000003#32
  | .hdrRead => 0x00000004#32
  | .buildTree => 0x00000005#32
  | .genCodes => 0x00000006#32
  | .encode => 0x00000007#32
  | .decode => 0x00000008#32

/-- The command word that a table row of `nbits` bits with value `w` stands for: every command is one 32-bit word (rule R80),
and the bits above `nbits` are 0. -/
def tableWord (nbits w : Nat) : Word := BitVec.ofNat 32 (w % 2 ^ nbits)

/-- The decoder on a table row's word. -/
def decodeTableWord (nbits w : Nat) : Option Instr :=
  match decode (tableWord nbits w) with
  | .command i => some i
  | .illegalCommand _ => none

end Sys2Proof
end

