-- ==== Sys2Proof/Config.lean ====
section
/-! DEFINITION. The codec's parameters (rule R7 of 00_scope.md), its OPEN parameters as constants with no body, and the free
values for what the spec leaves unspecified. -/

namespace Sys2Proof.Config

/-- PSEUDO_EOF, the end-of-payload sentinel symbol (rule R7, D2; PRESUMED by the spec itself: log entry 19). -/
def pseudoEof : Nat := 256

/-- NOT_A_CHAR, the internal-node marker symbol (rule R7, D2; PRESUMED by the spec itself: log entry 19). -/
def notAChar : Nat := 257

/-- COUNT_MAX = 2^32 - 1, the largest frequency count (rule R7). -/
def countMax : Nat := 4294967295

/-- MAX_NODES = 513, the nodes of a full tree with 257 leaves (rules R7, R8). -/
def maxNodes : Nat := 513

/-- MAX_CODE_LEN = 256, the depth of the deepest leaf of a full tree with 257 leaves (rules R7, R8). -/
def maxCodeLen : Nat := 256

/-- PQ_CAP = 257, the capacity of the priority queue (rules R7, R42). -/
def pqCap : Nat := 257

/-- The word the ID register reads: ASCII "HUF0", 'H' in bits[31:24] (rule R45). -/
def idWord : Word := 0x48554630#32

/-- The word ERR_INFO holds when GEN_CODES or DECODE finds TREE_VALID = 0 (rules R143, R163). -/
def noTreeInfo : Word := 0xFFFFFFFF#32

/-- OPEN parameter REG_BASE in words: the bus address is 4-byte aligned and otherwise the platform's (rule R63, D32; log entry 15). -/
opaque regBaseWords : Nat

/-- REG_BASE, the bus address of register offset 0x00 (rules R7, R30). -/
def regBase : Nat := 4 * regBaseWords

/-- The bus address of a register offset (rule R63): the block occupies REG_BASE .. REG_BASE + 0x7F. -/
def busAddress (off : BitVec 7) : Nat := regBase + off.toNat

/-- The two packings of BOUT bits into file bytes that the collaborator may use (D15). -/
inductive PackOrder where
  | msbFirst
  | lsbFirst
  deriving DecidableEq, Repr, Inhabited

/-- OPEN parameter PACK_ORDER (rule R7, U5): packing is outside the block and no rule of the codec depends on it (rule R68),
so nothing in this model reads it; a claim about file bytes takes it as a premise (DESIGN CHOICE, safe: log entry 15). -/
opaque packOrder : PackOrder

/-- Free values: the n-th unspecified 32-bit word the machine hands out. Nothing constrains it (rule R74, U1, U16; DESIGN
CHOICE: log entry 4). -/
opaque freeWord : Nat → Word

end Sys2Proof.Config
end

