-- ==== Sys2Proof/Machine/State.lean ====
section
/-! DEFINITION. The codec's state as plain data (10_state.md), the host's side of it as plain data (rule R15: the model's state
is the registers, the tables, and the unconsumed and emitted tokens of each port), and the state after reset (rule R50). -/

namespace Sys2Proof.Machine

open Sys2Proof

/-! ### Tokens, ports and the host's moves -/

/-- A token of YIN: a byte, or `End`, the end of the input source (rule R64). -/
inductive YTok where
  | byte (v : Byte)
  | endTok
  deriving DecidableEq, Repr

/-- A token of BIN: a bit, or `End`, the bit source is exhausted (rule R65). -/
inductive BTok where
  | bit (b : Bool)
  | endTok
  deriving DecidableEq, Repr

/-- How many output tokens the host accepts on a port before it withholds acceptance: every one (rule R86: "at once unless a
program says otherwise"), or the next `n` (rules R66, R67, R218). -/
inductive Acceptance where
  | all
  | upTo (n : Nat)
  deriving DecidableEq, Repr

/-- The width of a host bus access (rule R60). -/
inductive Width where
  | w8
  | w16
  | w32
  | w64
  deriving DecidableEq, Repr

/-- The registers of the register map, in the map's order (rule R30). -/
inductive Reg where
  | cmd
  | status
  | ctrl
  | errInfo
  | bitCountLo
  | bitCountHi
  | byteCountLo
  | byteCountHi
  | root
  | nodeCnt
  | ftIdx
  | ftCount
  | ftPres
  | ctIdx
  | ctLen
  | id
  | ctWord (k : Fin 8)
  | nodeIdx
  | nodeInfo
  | nodeZero
  | nodeOne
  | nodeWeightLo
  | nodeWeightHi
  /-- The offsets 0x78 and 0x7C (rule R63). -/
  | unmapped
  deriving DecidableEq, Repr

/-- One thing the host does (rule R247, one constructor per interaction), or says about when it does it. -/
inductive HostMove where
  /-- A bus write of `width` at register offset `off`; `v` is the data of a 32-bit one (an access of another width is a bus
  error whatever its data, rule R60). -/
  | write (off : BitVec 7) (width : Width) (v : Word)
  /-- A bus read of `width` at register offset `off`. -/
  | read (off : BitVec 7) (width : Width)
  /-- Offer one token on YIN (rule R64). -/
  | offerYin (t : YTok)
  /-- Offer one token on BIN (rule R65). -/
  | offerBin (t : BTok)
  /-- From now on accept this many bytes on YOUT (rule R66). -/
  | acceptYout (a : Acceptance)
  /-- From now on accept this many bits on BOUT (rule R67). -/
  | acceptBout (a : Acceptance)
  /-- Drain YIN: take back the tokens that an earlier command left over on it (rule R242). -/
  | drainYin
  /-- Drain BIN: take back the tokens that an earlier command left over on it (rule R242). -/
  | drainBin
  /-- Assert RST (rule R230). -/
  | assertRst
  /-- Release RST (rule R230). -/
  | releaseRst
  /-- WAIT: read STATUS until BUSY = 0 (rule R87). -/
  | wait
  /-- Read STATUS and, if ERR = 1, issue none of the next `k` moves: "any error ends it, and the rest is not issued" (rules
  R88, R89). -/
  | endIfErr (k : Nat)
  /-- The next `n` moves of the host land before the codec makes its next progress: the spec is untimed (rule R245). -/
  | hold (n : Nat)
  deriving DecidableEq, Repr

/-- What the host gets back from a bus access (rule R247, "host gets back"); a good write gets nothing. -/
inductive BusResponse where
  /-- The data of a read. -/
  | value (v : Word)
  /-- The bus error response to a bad write (rule R60). -/
  | writeError
  /-- The bus error response to a bad read; the data beside it is a free value (U16). -/
  | readError (v : Word)
  deriving DecidableEq, Repr

/-! ### Tables -/

/-- One entry of the node arena NODE (rule R41). -/
structure Node where
  /-- 1 = leaf, 0 = internal. -/
  leaf : Bool
  /-- The symbol of a leaf; NOT_A_CHAR in an internal node. -/
  sym : Symbol
  weight : Weight
  /-- The zero-branch child; 0 in a leaf. -/
  zero : NodeIdx
  /-- The one-branch child; 0 in a leaf. -/
  one : NodeIdx
  deriving DecidableEq, Repr

/-- The frequency table FT (rule R40): 257 entries, `none` for present = 0 (whose count is 0), `some c` for a key with count c. -/
abbrev FreqTable := Vector (Option Count) 257

/-- The node arena NODE (rule R41): 513 entries. -/
abbrev Arena := Vector Node 513

/-- The code table CT (rule R43): 257 entries, `none` for valid = 0 (whose len and code bits are 0), `some c` for a valid code c
of length `c.length`. -/
abbrev CodeTable := Vector (Option Path) 257

/-! ### The sequencer -/

/-- Where HDR_READ's parser stands: what the next token may be (rule R180), with the number read so far (rule R44). The key and
the count have passed their checks, so they fit (rule R184). -/
inductive HdrPos where
  /-- The first token, which must be '{'. -/
  | brace
  /-- After '{': '}', or the first digit of a key. -/
  | first
  /-- After the separator: the first digit of a key. -/
  | keyFirst
  /-- In a key, at least one digit read: a digit or ':'. -/
  | key (k : Key)
  /-- After ':': the first digit of the value. -/
  | valueFirst (k : Key)
  /-- In a value, at least one digit read: a digit, '}' or ','. -/
  | value (k : Key) (c : Count)
  /-- After ',': ' '. -/
  | space
  deriving DecidableEq, Repr

/-- The sequencer: idle, or the running command and its position in that command's pseudocode (rule R22), with the command-local
state of rule R44. A running command stands only where it can be kept waiting: at its start, or at a port transfer (rule R15). -/
inductive Seq where
  | idle
  /-- A word has been accepted and is about to be decoded and run (rule R31). -/
  | accepted (w : Word)
  /-- FREQ_COUNT at `ReadYIN()`. -/
  | freqCount
  /-- HDR_WRITE at `Put`: the bytes still to be put. -/
  | hdrWrite (rest : List Byte)
  /-- HDR_READ at `ReadYIN()`: `pos`, and the parser's place. -/
  | hdrRead (pos : Nat) (place : HdrPos)
  /-- ENCODE at `ReadYIN()`. -/
  | encodeRead
  /-- ENCODE at `WriteBOUT` in `EmitCode`: the bits still to be written, and whether the code is PSEUDO_EOF's. -/
  | encodeEmit (rest : Path) (last : Bool)
  /-- DECODE at `ReadBIN()`: CUR. -/
  | decodeRead (cur : NodeIdx)
  /-- DECODE at `WriteYOUT`: CUR, the leaf whose byte is to be written. -/
  | decodeWrite (cur : NodeIdx)
  deriving DecidableEq, Repr

/-- The error kinds, with their codes in Flags.lean (rule R200). -/
inductive ErrKind where
  | invalidInput
  | unknownSymbol
  | truncatedStream
  | invalidTree
  | malformedHeader
  /-- Reserved: no command raises it (rule R201). -/
  | keyNotFound
  | illegalCommand
  | countOverflow
  deriving DecidableEq, Repr

/-! ### The state -/

/-- The state of the codec and of the host beside it. -/
structure State where
  /-- STATUS.BUSY (rule R32). -/
  busy : Bool
  /-- STATUS.DONE (rule R32). -/
  done : Bool
  /-- STATUS.ERR (rule R32). -/
  err : Bool
  /-- STATUS.OVR (rule R32). -/
  ovr : Bool
  /-- STATUS.TREE_VALID (rule R32). -/
  treeValid : Bool
  /-- STATUS.CT_READY (rule R32). -/
  ctReady : Bool
  /-- STATUS.ERR_CODE (rule R32). -/
  errCode : BitVec 4
  /-- CTRL.IRQ_EN (rule R33). -/
  irqEn : Bool
  /-- ERR_INFO (rule R34). -/
  errInfo : Word
  /-- BIT_COUNT (rule R35). -/
  bitCount : Counter
  /-- BYTE_COUNT (rule R36). -/
  byteCount : Counter
  /-- ROOT (rule R37). -/
  root : NodeIdx
  /-- NODE_CNT, 0..513 (rule R37). -/
  nodeCnt : Fin 514
  /-- FT_IDX (rule R38). -/
  ftIdx : BitVec 9
  /-- CT_IDX (rule R39). -/
  ctIdx : BitVec 9
  /-- NODE_IDX (rule R46). -/
  nodeIdx : BitVec 10
  /-- The frequency table FT (rule R40). -/
  ft : FreqTable
  /-- The node arena NODE (rule R41). -/
  node : Arena
  /-- The priority queue PQ, a multiset of node indices (rule R42). -/
  pq : List NodeIdx
  /-- The code table CT (rule R43). -/
  ct : CodeTable
  /-- GEN_CODES' traversal stack: the one-branches still to be walked, each with its path (rule R44). That it is empty at reset
  is a DESIGN CHOICE, unsafe: log entry 10. -/
  walk : List (NodeIdx × Path)
  /-- The sequencer, with CUR and the parser state (rules R22, R44). -/
  seq : Seq
  /-- The tokens offered on YIN and not yet consumed, the oldest first (rule R64). -/
  yin : List YTok
  /-- The tokens offered on BIN and not yet consumed, the oldest first (rule R65). -/
  bin : List BTok
  /-- How many of YIN's oldest tokens are leftovers of a command that has ended (rule R242). Not used while a command reads YIN. -/
  yinLeft : Nat
  /-- How many of BIN's oldest tokens are leftovers of a command that has ended (rule R242). Not used while a command reads BIN. -/
  binLeft : Nat
  /-- The tokens of YIN that went back to the host unconsumed, the oldest first (rules R50, R242). -/
  yinBack : List YTok
  /-- The tokens of BIN that went back to the host unconsumed, the oldest first (rules R50, R242). -/
  binBack : List BTok
  /-- The bytes sent on YOUT, the oldest first (rule R66). -/
  yout : List Byte
  /-- The bits sent on BOUT, the oldest first (rule R67). -/
  bout : Path
  /-- What the host accepts on YOUT (rule R66). -/
  youtReady : Acceptance
  /-- What the host accepts on BOUT (rule R67). -/
  boutReady : Acceptance
  /-- RST is asserted (rule R230). -/
  rst : Bool
  /-- The bus responses the host has got, the oldest first (rule R247). -/
  responses : List BusResponse
  /-- The host's moves still to come, the next one first (rule R21: the program is the host's sequence). DESIGN CHOICE, safe: log
  entry 2. -/
  host : List HostMove
  /-- The model's own field: how many more of the host's moves land before the codec makes progress (rule R245). DESIGN CHOICE,
  unsafe: log entry 1. -/
  hold : Nat
  /-- The model's own field: how many free values have been drawn (see `Config.freeWord`). DESIGN CHOICE: log entry 4. -/
  freeCtr : Nat
  deriving DecidableEq, Repr

/-- Why the machine stops with a fault. -/
inductive Fault where
  /-- Raised by GEN_CODES when the arena it walks is no tree of rule R47 although TREE_VALID = 1: a leaf symbol above 256, a
  path longer than 256 bits, or more visits than the arena has nodes. No run from reset reaches such a state (rules R47, R143).
  DESIGN CHOICE, safe: log entry 9. -/
  | arenaOutsideInvariant
  deriving DecidableEq, Repr

/-- Why an instruction has no meaning. -/
inductive Refusal where
  /-- Raised by `exec` for a command that has no meaning yet; no arm raises it now. Safe. -/
  | notModelled (mnemonic : String)
  deriving DecidableEq, Repr

/-- The outcome of a step of this machine. -/
abbrev Outcome := Host.Outcome State Fault Refusal

/-- An arena entry with every field 0, the reset value (rule R50). -/
def Node.zeroed : Node := { leaf := false, sym := 0#9, weight := 0#41, zero := 0, one := 0 }

/-- The machine right after reset (rules R50, R230): every register 0, the tables empty, the sequencer idle. The host has
offered nothing, accepts every output token at once (rule R86; DESIGN CHOICE, unsafe: log entry 3) and has made no move. -/
def State.reset : State where
  busy := false
  done := false
  err := false
  ovr := false
  treeValid := false
  ctReady := false
  errCode := 0#4
  irqEn := false
  errInfo := 0#32
  bitCount := 0#64
  byteCount := 0#64
  root := 0
  nodeCnt := 0
  ftIdx := 0#9
  ctIdx := 0#9
  nodeIdx := 0#10
  ft := Vector.replicate 257 none
  node := Vector.replicate 513 Node.zeroed
  pq := []
  ct := Vector.replicate 257 none
  walk := []
  seq := .idle
  yin := []
  bin := []
  yinLeft := 0
  binLeft := 0
  yinBack := []
  binBack := []
  yout := []
  bout := []
  youtReady := .all
  boutReady := .all
  rst := false
  responses := []
  host := []
  hold := 0
  freeCtr := 0

end Sys2Proof.Machine
end

