-- ==== Sys2Proof/Machine/Flags.lean ====
section
/-! DEFINITION. STATUS, its write-1-to-clear bits, the error codes and the interrupt output (rules R32, R49, R200, R210). The
codec has no arithmetic condition codes (rule R49). -/

namespace Sys2Proof.Machine

open Sys2Proof

/-- ERR_CODE of an error kind (rule R200). -/
def ErrKind.code : ErrKind → BitVec 4
  | .invalidInput => 1#4
  | .unknownSymbol => 2#4
  | .truncatedStream => 3#4
  | .invalidTree => 4#4
  | .malformedHeader => 5#4
  | .keyNotFound => 6#4
  | .illegalCommand => 7#4
  | .countOverflow => 8#4

/-- A flag at its bit of a 32-bit register. -/
def flagBit (b : Bool) (n : Nat) : Word := if b then 1#32 <<< n else 0#32

/-- STATUS as the host reads it (rule R32): bits 7:6 and 31:12 read 0. -/
def statusWord (s : State) : Word :=
  flagBit s.busy 0 ||| flagBit s.done 1 ||| flagBit s.err 2 ||| flagBit s.ovr 3 |||
    flagBit s.treeValid 4 ||| flagBit s.ctReady 5 ||| (s.errCode.setWidth 32 <<< 8)

/-- A write to STATUS (rule R32): only bits 1, 2 and 3 act, and only where the written bit is 1; clearing ERR clears ERR_CODE and
ERR_INFO with it. -/
def writeStatus (v : Word) (s : State) : State :=
  { s with
    done := s.done && !v.getLsbD 1
    err := s.err && !v.getLsbD 2
    ovr := s.ovr && !v.getLsbD 3
    errCode := if v.getLsbD 2 then 0#4 else s.errCode
    errInfo := if v.getLsbD 2 then 0#32 else s.errInfo }

/-- CTRL as the host reads it: bit 0 is IRQ_EN, the others read 0 (rule R33). -/
def ctrlWord (s : State) : Word := flagBit s.irqEn 0

/-- A write to CTRL: only bit 0 is kept (rule R33). -/
def writeCtrl (v : Word) (s : State) : State := { s with irqEn := v.getLsbD 0 }

/-- The interrupt output IRQ, level-sensitive and active high (rule R210). -/
def irq (s : State) : Bool := s.irqEn && s.done

end Sys2Proof.Machine
end

