-- ==== Sys2Proof/Machine/Operands.lean ====
section
/-! DEFINITION. The implicit operands of the commands (rule R83): the table helpers (rule R13), the arena's accessors, and the
port primitives (rule R11). No command has an operand field or an immediate. -/

namespace Sys2Proof.Machine

open Sys2Proof

/-! ### Symbols and tables -/

/-- A byte as a symbol: its integer code (rule R113). -/
def byteKey (v : Byte) : Key := ⟨v.toNat, by omega⟩

/-- PSEUDO_EOF as a key (rule R7). -/
def eofKey : Key := ⟨Config.pseudoEof, by decide⟩

/-- The symbol of a key. -/
def keySymbol (k : Key) : Symbol := BitVec.ofNat 9 k.val

/-- `keys(FT)`: the present symbols in ascending order (rule R13). -/
def keys (ft : FreqTable) : List Key := (List.finRange 257).filter fun k => ft[k].isSome

/-- `FT[k].count`; an entry with present = 0 has count 0 (rule R40). -/
def countOf (ft : FreqTable) (k : Key) : Count := ft[k].getD 0#32

/-- `FT[k] <- {present: 1, count: c}`. -/
def setFt (k : Key) (c : Count) (s : State) : State := { s with ft := s.ft.set k (some c) }

/-- `NODE[n]` (rule R41). -/
def nodeAt (s : State) (n : NodeIdx) : Node := s.node[n]

/-- `isLeaf(n)` (rule R13). -/
def isLeaf (s : State) (n : NodeIdx) : Bool := (nodeAt s n).leaf

/-- The child of a node on a branch: 0 the zero-branch, 1 the one-branch (rules R14, R160). -/
def child (s : State) (n : NodeIdx) (b : Bool) : NodeIdx := if b then (nodeAt s n).one else (nodeAt s n).zero

/-- A node index in a 32-bit information word (rule R200). -/
def nodeWord (n : NodeIdx) : Word := BitVec.ofNat 32 n.val

/-! ### Ports -/

/-- One more token accepted: what the host accepts after it, none where it withholds acceptance (rules R66, R67). -/
def Acceptance.take : Acceptance → Option Acceptance
  | .all => some .all
  | .upTo 0 => none
  | .upTo (n + 1) => some (.upTo n)

/-- `WriteYOUT(v)` (rule R66); none while the host withholds acceptance. -/
def writeYout (v : Byte) (s : State) : Option State :=
  match s.youtReady.take with
  | none => none
  | some r => some { s with youtReady := r, yout := s.yout ++ [v] }

/-- `WriteBOUT(b)` (rule R67); none while the host withholds acceptance. -/
def writeBout (b : Bool) (s : State) : Option State :=
  match s.boutReady.take with
  | none => none
  | some r => some { s with boutReady := r, bout := s.bout ++ [b] }

/-- `BYTE_COUNT <- BYTE_COUNT + 1`, modulo 2^64 (rule R36). -/
def countByte (s : State) : State := { s with byteCount := s.byteCount + 1#64 }

/-- `BIT_COUNT <- BIT_COUNT + 1`, modulo 2^64 (rule R35). -/
def countBit (s : State) : State := { s with bitCount := s.bitCount + 1#64 }

/-- `ReadYIN()` takes the first token, so the tokens left are `rest` (rule R64). -/
def takeYin (rest : List YTok) (s : State) : State := { s with yin := rest }

/-- `ReadBIN()` takes the first token, so the tokens left are `rest` (rule R65). -/
def takeBin (rest : List BTok) (s : State) : State := { s with bin := rest }

/-- The running command is reading YIN: FREQ_COUNT, HDR_READ or ENCODE (rule R69), ENCODE only up to its End. -/
def readsYin : Seq → Bool
  | .idle => false
  | .accepted _ => false
  | .freqCount => true
  | .hdrWrite _ => false
  | .hdrRead _ _ => true
  | .encodeRead => true
  | .encodeEmit _ last => !last
  | .decodeRead _ => false
  | .decodeWrite _ => false

/-- The running command is reading BIN: DECODE (rule R69). -/
def readsBin : Seq → Bool
  | .idle => false
  | .accepted _ => false
  | .freqCount => false
  | .hdrWrite _ => false
  | .hdrRead _ _ => false
  | .encodeRead => false
  | .encodeEmit _ _ => false
  | .decodeRead _ => true
  | .decodeWrite _ => true

/-- How many of YIN's oldest tokens are leftovers of an ended command (rule R242): none where the running command reads the port, since
it reads what stood there as its own input. -/
def leftYin (s : State) : Nat := if readsYin s.seq then 0 else s.yinLeft

/-- How many of BIN's oldest tokens are leftovers of an ended command (rule R242), as on YIN. -/
def leftBin (s : State) : Nat := if readsBin s.seq then 0 else s.binLeft

/-- What stands on YIN where the command ends is its leftover (rule R242). -/
def leaveYin (s : State) : State := { s with yinLeft := s.yin.length }

/-- What stands on BIN where the command ends is its leftover (rule R242). -/
def leaveBin (s : State) : State := { s with binLeft := s.bin.length }

/-- The input has been consumed through its End: what follows on YIN is no leftover (rule R242), but offered for a later command. -/
def spendYin (s : State) : State := { s with yinLeft := 0 }

/-- The command waits at the port transfer `q`: BUSY stays 1 (rule R218). -/
def waitAt (q : Seq) (s : State) : State := { s with seq := q }

end Sys2Proof.Machine
end

