-- ==== Sys2Proof/Machine/Ops.lean ====
section
/-! DEFINITION. The operations the commands share: accept, the two ends of a command (the codec's counterpart of taking an
exception is `raise`, rule R204; there is no return from one, rule R208), the table operations of 40_control.md, the node
arena and the priority queue, free values, and the reset event. -/

namespace Sys2Proof.Machine

open Sys2Proof

/-! ### The life of a command -/

/-- Accept (rule R31): the report and the counters are zeroed, BUSY is set, and the word stands ready to be decoded. -/
def accept (w : Word) (s : State) : State :=
  { s with
    busy := true
    done := false
    err := false
    errCode := 0#4
    errInfo := 0#32
    bitCount := 0#64
    byteCount := 0#64
    seq := .accepted w }

/-- A CMD write while BUSY = 1 is dropped: nothing but OVR changes (rules R31, R236). -/
def dropCommand (s : State) : State := { s with ovr := true }

/-- `finish` (rule R203): the command ends successfully. -/
def finish (s : State) : State := { s with busy := false, done := true, seq := .idle }

/-- `raise E(info)` (rule R204): the command ends with an error. Nothing it did before is undone (rule R205). -/
def raise (e : ErrKind) (info : Word) (s : State) : State :=
  { s with
    errCode := e.code
    errInfo := info
    err := true
    busy := false
    done := true
    seq := .idle }

/-! ### Table operations -/

/-- `ClearFT()` (rule R101). -/
def clearFt (s : State) : State := { s with ft := Vector.replicate 257 none }

/-- `InvalidateCodes()` (rule R104). -/
def invalidateCodes (s : State) : State := { s with ctReady := false, ct := Vector.replicate 257 none }

/-- The tree's part of `InvalidateTree()` (rule R103), which BUILD_TREE begins with too (rule R120). -/
def dropTree (s : State) : State := { s with treeValid := false, nodeCnt := 0, root := 0 }

/-- `InvalidateTree()` (rule R103): the arena's entries are not erased. -/
def invalidateTree (s : State) : State := invalidateCodes (dropTree s)

/-- `CT[k] <- {valid: 1, len: len(c), code: c}` (rule R140). -/
def setCode (k : Key) (c : Path) (s : State) : State := { s with ct := s.ct.set k (some c) }

/-! ### Node arena and priority queue -/

/-- `newNode` (rule R122): the node goes to index NODE_CNT. No command exceeds the arena (rule R8: NODE_CNT is below 513 here),
so neither index is narrowed in a run (DEDUCED, safe: log entry 11). -/
def newNode (nd : Node) (s : State) : NodeIdx × State :=
  let n : NodeIdx := Fin.ofNat 513 s.nodeCnt.val
  (n, { s with node := s.node.set n nd, nodeCnt := Fin.ofNat 514 (s.nodeCnt.val + 1) })

/-- `PQInsert(n)` (rule R123). -/
def pqInsert (n : NodeIdx) (s : State) : State := { s with pq := n :: s.pq }

/-- The queue's order (rule R123): by weight, then by index. -/
def pqBefore (s : State) (n m : NodeIdx) : Bool :=
  (nodeAt s n).weight < (nodeAt s m).weight || ((nodeAt s n).weight == (nodeAt s m).weight && n < m)

/-- The least of `m` and the nodes of a list, in the queue's order. -/
def pqLeast (s : State) : NodeIdx → List NodeIdx → NodeIdx
  | m, [] => m
  | m, n :: ns => pqLeast s (if pqBefore s n m then n else m) ns

/-- `PQPopMin()` (rule R123): remove and return the least node; none where the queue is empty. -/
def pqPopMin (s : State) : Option (NodeIdx × State) :=
  match s.pq with
  | [] => none
  | n :: ns => some (pqLeast s n ns, { s with pq := (n :: ns).erase (pqLeast s n ns) })

/-! ### Free values and reset -/

/-- The next free value: nothing constrains it (`Config.freeWord` has no body). -/
def freshWord (s : State) : Word := Config.freeWord s.freeCtr

/-- Count a free value as drawn. -/
def drawFree (s : State) : State := { s with freeCtr := s.freeCtr + 1 }

/-- The `n` oldest tokens of YIN, its leftovers, go back to the host unconsumed: no later command reads them (rule R242). -/
def takeBackYin (n : Nat) (s : State) : State :=
  { s with yin := s.yin.drop n, yinLeft := 0, yinBack := s.yinBack ++ s.yin.take n }

/-- The `n` oldest tokens of BIN, its leftovers, go back to the host unconsumed: no later command reads them (rule R242). -/
def takeBackBin (n : Nat) (s : State) : State :=
  { s with bin := s.bin.drop n, binLeft := 0, binBack := s.binBack ++ s.bin.take n }

/-- The reset values (rule R230): every piece of the codec's state takes its value of rule R50. What stands on the ports and on the
host's side is not touched here. -/
def resetCodec (s : State) : State :=
  { State.reset with
    yin := s.yin
    bin := s.bin
    yinLeft := s.yinLeft
    binLeft := s.binLeft
    yinBack := s.yinBack
    binBack := s.binBack
    yout := s.yout
    bout := s.bout
    youtReady := s.youtReady
    boutReady := s.boutReady
    rst := s.rst
    responses := s.responses
    host := s.host
    hold := s.hold
    freeCtr := s.freeCtr }

end Sys2Proof.Machine
end

