-- ==== Sys2Proof/Machine/Bus.lean ====
section
/-! DEFINITION. The host's register bus and the host's other moves (10_state.md rules R30 to R46, 20_memory.md rules R60 to R63,
rule R247 of 70_reset_and_hazards.md). -/

namespace Sys2Proof.Machine

open Sys2Proof

/-! ### The register map -/

/-- The register at an offset (rule R30); none where the offset is not a multiple of 4 (rule R60). -/
def regAt (off : BitVec 7) : Option Reg :=
  match off.toNat with
  | 0x00 => some .cmd
  | 0x04 => some .status
  | 0x08 => some .ctrl
  | 0x0C => some .errInfo
  | 0x10 => some .bitCountLo
  | 0x14 => some .bitCountHi
  | 0x18 => some .byteCountLo
  | 0x1C => some .byteCountHi
  | 0x20 => some .root
  | 0x24 => some .nodeCnt
  | 0x28 => some .ftIdx
  | 0x2C => some .ftCount
  | 0x30 => some .ftPres
  | 0x34 => some .ctIdx
  | 0x38 => some .ctLen
  | 0x3C => some .id
  | 0x40 => some (.ctWord 0)
  | 0x44 => some (.ctWord 1)
  | 0x48 => some (.ctWord 2)
  | 0x4C => some (.ctWord 3)
  | 0x50 => some (.ctWord 4)
  | 0x54 => some (.ctWord 5)
  | 0x58 => some (.ctWord 6)
  | 0x5C => some (.ctWord 7)
  | 0x60 => some .nodeIdx
  | 0x64 => some .nodeInfo
  | 0x68 => some .nodeZero
  | 0x6C => some .nodeOne
  | 0x70 => some .nodeWeightLo
  | 0x74 => some .nodeWeightHi
  | 0x78 => some .unmapped
  | 0x7C => some .unmapped
  | _ => none

/-- The register a bus access reaches: only a 32-bit access at a multiple of 4 reaches one; any other is a bus error (rule R60). -/
def accessed (off : BitVec 7) (width : Width) : Option Reg :=
  match width with
  | .w32 => regAt off
  | .w8 => none
  | .w16 => none
  | .w64 => none

/-! ### The read windows -/

/-- The FT entry the window shows: none out of range or absent (rule R38). -/
def ftWindow (s : State) : Option Count :=
  if h : s.ftIdx.toNat < 257 then s.ft[s.ftIdx.toNat] else none

/-- The CT entry the window shows: none out of range or invalid (rule R39). -/
def ctWindow (s : State) : Option Path :=
  if h : s.ctIdx.toNat < 257 then s.ct[s.ctIdx.toNat] else none

/-- The arena entry the window shows: none at NODE_CNT and above (rule R46). -/
def nodeWindow (s : State) : Option Node :=
  if h : s.nodeIdx.toNat < 513 then
    if s.nodeIdx.toNat < s.nodeCnt.val then some s.node[s.nodeIdx.toNat] else none
  else none

/-- CT_WORDk of a code: bit j is code bit 32k + j, and 0 from the code's length on (rule R39). -/
def codeWord (c : Path) (k : Fin 8) : Word := (BitVec.ofBoolListLE ((c.drop (32 * k.val)).take 32)).setWidth 32

/-- The exact value of a register (rule R30). -/
def regValue (r : Reg) (s : State) : Word :=
  match r with
  | .cmd => 0#32
  | .status => statusWord s
  | .ctrl => ctrlWord s
  | .errInfo => s.errInfo
  | .bitCountLo => s.bitCount.extractLsb' 0 32
  | .bitCountHi => s.bitCount.extractLsb' 32 32
  | .byteCountLo => s.byteCount.extractLsb' 0 32
  | .byteCountHi => s.byteCount.extractLsb' 32 32
  | .root => nodeWord s.root
  | .nodeCnt => BitVec.ofNat 32 s.nodeCnt.val
  | .ftIdx => s.ftIdx.setWidth 32
  | .ftCount => (ftWindow s).getD 0#32
  | .ftPres => flagBit (ftWindow s).isSome 0
  | .ctIdx => s.ctIdx.setWidth 32
  | .ctLen =>
    match ctWindow s with
    | some c => flagBit true 31 ||| BitVec.ofNat 32 c.length
    | none => 0#32
  | .id => Config.idWord
  | .ctWord k =>
    match ctWindow s with
    | some c => codeWord c k
    | none => 0#32
  | .nodeIdx => s.nodeIdx.setWidth 32
  | .nodeInfo =>
    match nodeWindow s with
    | some n => flagBit n.leaf 31 ||| n.sym.setWidth 32
    | none => 0#32
  | .nodeZero =>
    match nodeWindow s with
    | some n => nodeWord n.zero
    | none => 0#32
  | .nodeOne =>
    match nodeWindow s with
    | some n => nodeWord n.one
    | none => 0#32
  | .nodeWeightLo =>
    match nodeWindow s with
    | some n => n.weight.extractLsb' 0 32
    | none => 0#32
  | .nodeWeightHi =>
    match nodeWindow s with
    | some n => (n.weight.extractLsb' 32 9).setWidth 32
    | none => 0#32
  | .unmapped => 0#32

/-- The registers that read exactly at all times; the others read an unspecified word while BUSY = 1 (rule R74). CMD and the
unmapped offsets read 0 (rules R30, R63) and are not among those of rule R74 (DEDUCED, unsafe: log entry 14). -/
def readsExactly : Reg → Bool
  | .cmd => true
  | .status => true
  | .ctrl => true
  | .errInfo => false
  | .bitCountLo => false
  | .bitCountHi => false
  | .byteCountLo => false
  | .byteCountHi => false
  | .root => false
  | .nodeCnt => false
  | .ftIdx => true
  | .ftCount => false
  | .ftPres => false
  | .ctIdx => true
  | .ctLen => false
  | .id => true
  | .ctWord _ => false
  | .nodeIdx => true
  | .nodeInfo => false
  | .nodeZero => false
  | .nodeOne => false
  | .nodeWeightLo => false
  | .nodeWeightHi => false
  | .unmapped => true

/-! ### Bus accesses -/

/-- The host gets a response. -/
def respond (r : BusResponse) (s : State) : State := { s with responses := s.responses ++ [r] }

/-- A read of a register: no side effect (rule R62) but the response; an unspecified word while BUSY = 1 is a free value (U1). -/
def readReg (r : Reg) (s : State) : State :=
  if s.busy && !readsExactly r then respond (.value (freshWord s)) (drawFree s)
  else respond (.value (regValue r s)) s

/-- A bus read. During RST it reads 0, a bad one too (rules R230, R207; DEDUCED, unsafe: log entry 5); otherwise a bad width or
alignment is a bus error (rule R60). -/
def busRead (off : BitVec 7) (width : Width) (s : State) : State :=
  if s.rst then respond (.value 0#32) s
  else
    match accessed off width with
    | some r => readReg r s
    | none => respond (.readError (freshWord s)) (drawFree s)

/-- A CMD write: accepted while BUSY = 0, dropped while BUSY = 1 (rule R31). -/
def writeCmd (w : Word) (s : State) : State := if s.busy then dropCommand s else accept w s

/-- A write of a register: a read-only register and an unmapped offset ignore it (rules R30, R63). -/
def writeReg (r : Reg) (v : Word) (s : State) : State :=
  match r with
  | .cmd => writeCmd v s
  | .status => writeStatus v s
  | .ctrl => writeCtrl v s
  | .ftIdx => { s with ftIdx := v.setWidth 9 }
  | .ctIdx => { s with ctIdx := v.setWidth 9 }
  | .nodeIdx => { s with nodeIdx := v.setWidth 10 }
  | .errInfo => s
  | .bitCountLo => s
  | .bitCountHi => s
  | .byteCountLo => s
  | .byteCountHi => s
  | .root => s
  | .nodeCnt => s
  | .ftCount => s
  | .ftPres => s
  | .ctLen => s
  | .id => s
  | .ctWord _ => s
  | .nodeInfo => s
  | .nodeZero => s
  | .nodeOne => s
  | .nodeWeightLo => s
  | .nodeWeightHi => s
  | .unmapped => s

/-- A bus write. During RST it has no effect, a bad one too (rules R230, R207; DEDUCED, unsafe: log entry 5); otherwise a bad width
or alignment is a bus error (rule R60). -/
def busWrite (off : BitVec 7) (width : Width) (v : Word) (s : State) : State :=
  if s.rst then s
  else
    match accessed off width with
    | some r => writeReg r v s
    | none => respond .writeError s

/-- The STATUS the host reads: 0 during RST (rules R32, R230). -/
def seenStatus (s : State) : Word := if s.rst then 0#32 else statusWord s

/-! ### The host's moves -/

/-- RST is asserted: the reset event (rule R230). The leftovers of both input ports go back to the host (rule R242); every other token
offered and not consumed, those of the abandoned command among them, stays offered (rules R50, R64, R247; DEDUCED, unsafe: log entry
6). -/
def assertRst (s : State) : State := takeBackBin (leftBin s) (takeBackYin (leftYin s) { resetCodec s with rst := true })

/-- RST is released: every piece of state has its reset value (rule R230). Releasing an RST that is not asserted does nothing
(DESIGN CHOICE, unsafe: log entry 7). -/
def releaseRst (s : State) : State := if s.rst then { resetCodec s with rst := false } else s

/-- The host drains YIN of what an earlier command left over (rule R242), and of nothing else: a token offered since then, or any token
while a command runs, is never withdrawn (rule R247; DEDUCED, unsafe: log entry 28). -/
def drainYin (s : State) : State := if s.busy then s else takeBackYin s.yinLeft s

/-- The host drains BIN of what an earlier command left over, as it does YIN (rules R242, R247). -/
def drainBin (s : State) : State := if s.busy then s else takeBackBin s.binLeft s

/-- One poll of WAIT (rule R87): a STATUS read; while it shows BUSY = 1 the host polls again (DESIGN CHOICE: log entry 18). -/
def waitPoll (s : State) : State :=
  if (seenStatus s).getLsbD 0 then { busRead 0x04#7 .w32 s with host := .wait :: s.host }
  else busRead 0x04#7 .w32 s

/-- One STATUS read after a command of COMPRESS or DECOMPRESS: on ERR = 1 the next `k` moves are not issued (rules R88, R89;
DESIGN CHOICE: log entry 18). -/
def endIfErr (k : Nat) (s : State) : State :=
  if (seenStatus s).getLsbD 2 then { busRead 0x04#7 .w32 s with host := s.host.drop k }
  else busRead 0x04#7 .w32 s

/-- What one move of the host does to the state (rule R247), the move itself already taken off the host's list. -/
def hostMove (m : HostMove) (s : State) : State :=
  match m with
  | .write off width v => busWrite off width v s
  | .read off width => busRead off width s
  | .offerYin t => { s with yin := s.yin ++ [t] }
  | .offerBin t => { s with bin := s.bin ++ [t] }
  | .acceptYout a => { s with youtReady := a }
  | .acceptBout a => { s with boutReady := a }
  | .drainYin => drainYin s
  | .drainBin => drainBin s
  | .assertRst => assertRst s
  | .releaseRst => releaseRst s
  | .wait => waitPoll s
  | .endIfErr k => endIfErr k s
  | .hold n => { s with hold := n }

/-! ### Host programs (rules R86 to R89) -/

/-- `WR 0x00, word`: write a command's word to CMD. -/
def cmdMove (i : Instr) : HostMove := .write 0x00#7 .w32 (encode i)

/-- A mnemonic line: write CMD, then WAIT (rules R86, R87). -/
def cmdLine (i : Instr) : List HostMove := [cmdMove i, .wait]

/-- `YIN "text"` (rule R86). -/
def offerBytes (bs : List Byte) : List HostMove := bs.map fun v => .offerYin (.byte v)

/-- `BIN "0101"` (rule R86). -/
def offerBits (bs : Path) : List HostMove := bs.map fun b => .offerBin (.bit b)

/-- Run the commands of a sequence one after the other; any error ends it, and the rest is not issued (rules R88, R89). -/
def untilErr : List (List HostMove) → List HostMove
  | [] => []
  | l :: ls => l ++ .endIfErr (untilErr ls).length :: untilErr ls

/-- COMPRESS (rule R88): the input is offered twice. -/
def compress (input : List Byte) : List HostMove :=
  untilErr
    [offerBytes input ++ .offerYin .endTok :: cmdLine .freqCount,
     cmdLine .buildTree,
     cmdLine .genCodes,
     cmdLine .hdrWrite,
     offerBytes input ++ .offerYin .endTok :: cmdLine .encode]

/-- DECOMPRESS (rule R89): the header bytes, then the payload bits and End. -/
def decompress (header : List Byte) (payload : Path) : List HostMove :=
  untilErr
    [offerBytes header ++ cmdLine .hdrRead,
     cmdLine .buildTree,
     offerBits payload ++ .offerBin .endTok :: cmdLine .decode]

end Sys2Proof.Machine
end

