-- ==== Sys2Proof/Machine/CodeTable.lean ====
section
/-! DEFINITION. GEN_CODES (43_code_table.md). -/

namespace Sys2Proof.Machine

open Sys2Proof

/-- Push the one-branch of an internal node, to be walked after its zero-branch (rule R140: pre-order, zero before one). -/
def pushWalk (n : NodeIdx) (path : Path) (s : State) : State := { s with walk := (n, path) :: s.walk }

/-- Take the newest entry off the traversal stack, leaving `rest`. -/
def popWalk (rest : List (NodeIdx × Path)) (s : State) : State := { s with walk := rest }

/-- `Walk(n, path)` and then the walks still on the stack (rules R140, R44). The first argument bounds the visits: a tree has at
most MAX_NODES nodes (rule R8). None where the arena is no tree of rule R47: a leaf symbol that is no key, a path longer than
MAX_CODE_LEN, or more visits than the arena has nodes. -/
def walkTree : Nat → NodeIdx → Path → State → Option State
  | 0, _, _, _ => none
  | fuel + 1, n, path, s =>
    if isLeaf s n then
      if h : (nodeAt s n).sym.toNat < 257 then
        match s.walk with
        | [] => some (setCode ⟨(nodeAt s n).sym.toNat, h⟩ path s)
        | (m, p) :: rest => walkTree fuel m p (popWalk rest (setCode ⟨(nodeAt s n).sym.toNat, h⟩ path s))
      else none
    else if path.length < Config.maxCodeLen then
      walkTree fuel (child s n false) (path ++ [false]) (pushWalk (child s n true) (path ++ [true]) s)
    else none

/-- `CT_READY <- 1` (rule R140). -/
def setCtReady (s : State) : State := { s with ctReady := true }

/-- GEN_CODES (rule R140): TREE_VALID is checked first (rules R143, R207). -/
def execGenCodes (s : State) : Outcome :=
  if s.treeValid then
    match walkTree Config.maxNodes s.root [] (popWalk [] (invalidateCodes s)) with
    | some t => .next (finish (setCtReady t))
    | none => .fault .arenaOutsideInvariant
  else .next (raise .invalidTree Config.noTreeInfo s)

end Sys2Proof.Machine
end

