-- ==== Sys2Proof/Machine/Control.lean ====
section
/-! DEFINITION. NOP and CLEAR (40_control.md). -/

namespace Sys2Proof.Machine

open Sys2Proof

/-- NOP (rule R100). -/
def execNop (s : State) : Outcome := .next (finish s)

/-- CLEAR (rule R102). -/
def execClear (s : State) : Outcome := .next (finish (clearFt (invalidateTree s)))

end Sys2Proof.Machine
end

