-- ==== Sys2Proof/Machine/Decoder.lean ====
section
/-! DEFINITION. DECODE (45_decoder.md). -/

namespace Sys2Proof.Machine

open Sys2Proof

/-- The byte of a leaf symbol: s[7:0] (rule R160, D31). -/
def leafByte (s : State) (n : NodeIdx) : Byte := (nodeAt s n).sym.setWidth 8

/-- Emit the byte of a leaf and count it; none while the host withholds acceptance on YOUT. -/
def emitLeaf (n : NodeIdx) (s : State) : Option State :=
  match writeYout (leafByte s n) s with
  | none => none
  | some t => some (countByte t)

/-- The leaf's symbol is PSEUDO_EOF. -/
def isEofLeaf (s : State) (n : NodeIdx) : Bool := (nodeAt s n).sym.toNat == Config.pseudoEof

/-- The leaf's symbol is no byte: above 255. -/
def isMarkerLeaf (s : State) (n : NodeIdx) : Bool := decide (255 < (nodeAt s n).sym.toNat)

/-- DECODE's loop (rule R160) over the tokens on BIN, at the node CUR: it waits where there is no token or YOUT is not accepting
(rule R165 c), End is TruncatedStream (rule R164), and the PSEUDO_EOF leaf ends it. Wherever it ends, what stands on
BIN is left over (rule R242). -/
def decodeLoop : List BTok → NodeIdx → State → State
  | [], cur, s => waitAt (.decodeRead cur) (takeBin [] s)
  | .endTok :: ts, cur, s => raise .truncatedStream (nodeWord cur) (leaveBin (takeBin ts s))
  | .bit b :: ts, cur, s =>
    if isLeaf s (child s cur b) then
      if isEofLeaf s (child s cur b) then finish (leaveBin (countBit (takeBin ts s)))
      else if isMarkerLeaf s (child s cur b) then
        raise .invalidTree (nodeWord (child s cur b)) (leaveBin (countBit (takeBin ts s)))
      else
        match emitLeaf (child s cur b) (countBit (takeBin ts s)) with
        | none => waitAt (.decodeWrite (child s cur b)) (countBit (takeBin ts s))
        | some t => decodeLoop ts t.root t
    else decodeLoop ts (child s cur b) (countBit (takeBin ts s))

/-- DECODE goes on from a leaf whose byte was not yet accepted. -/
def resumeLeaf (cur : NodeIdx) (s : State) : State :=
  match emitLeaf cur s with
  | none => s
  | some t => decodeLoop t.bin t.root t

/-- DECODE (rule R160): TREE_VALID first (rule R163), then the single-leaf root (rule R162), then the bits. -/
def execDecode (s : State) : Outcome :=
  if s.treeValid then
    if isLeaf s s.root then
      if isEofLeaf s s.root then .next (finish (leaveBin s))
      else .next (raise .invalidTree (nodeWord s.root) (leaveBin s))
    else .next (decodeLoop s.bin s.root s)
  else .next (raise .invalidTree Config.noTreeInfo (leaveBin s))

end Sys2Proof.Machine
end

