-- ==== Sys2Proof/Machine/Encoder.lean ====
section
/-! DEFINITION. ENCODE (44_encoder.md). -/

namespace Sys2Proof.Machine

open Sys2Proof

/-- `EmitCode`'s loop (rule R150): write the bits of a code in order. The result is the bits not yet written, none of them unless
the host withholds acceptance on BOUT, and the state. -/
def emitBits : Path → State → Path × State
  | [], s => ([], s)
  | b :: bs, s =>
    match writeBout b s with
    | none => (b :: bs, s)
    | some t => emitBits bs (countBit t)

/-- ENCODE's loop (rule R150) over the tokens on YIN: it waits where there is no token or BOUT is not accepting (rule R155 e), a
symbol with no code is UnknownSymbol (rules R152, R153), and after End comes the PSEUDO_EOF code. An error leaves the tokens after
the offending one; a success leaves none (rule R242; log entry 28). -/
def encodeLoop : List YTok → State → State
  | [], s => waitAt .encodeRead (takeYin [] s)
  | .endTok :: ts, s =>
    match s.ct[eofKey] with
    | none => raise .unknownSymbol (BitVec.ofNat 32 Config.pseudoEof) (leaveYin (takeYin ts s))
    | some c =>
      match emitBits c (spendYin (takeYin ts s)) with
      | ([], t) => finish t
      | (rest, t) => waitAt (.encodeEmit rest true) t
  | .byte v :: ts, s =>
    match s.ct[byteKey v] with
    | none => raise .unknownSymbol (v.setWidth 32) (leaveYin (countByte (takeYin ts s)))
    | some c =>
      match emitBits c (countByte (takeYin ts s)) with
      | ([], t) => encodeLoop ts t
      | (rest, t) => waitAt (.encodeEmit rest false) t

/-- ENCODE goes on writing a code it stood in. -/
def resumeEmit (rest : Path) (last : Bool) (s : State) : State :=
  match emitBits rest s with
  | ([], t) => if last then finish t else encodeLoop t.yin t
  | (left, t) => waitAt (.encodeEmit left last) t

/-- ENCODE (rule R150): nothing is checked up front (rule R153). -/
def execEncode (s : State) : Outcome := .next (encodeLoop s.yin s)

end Sys2Proof.Machine
end

