-- ==== Sys2Proof/Machine/Frequency.lean ====
section
/-! DEFINITION. FREQ_COUNT (41_frequency.md). -/

namespace Sys2Proof.Machine

open Sys2Proof

/-- Count one more occurrence of a byte whose entry is not full: 1 on the first occurrence (rule R110). -/
def bumpCount (v : Byte) (s : State) : State :=
  match s.ft[byteKey v] with
  | none => setFt (byteKey v) 1#32 s
  | some c => setFt (byteKey v) (c + 1#32) s

/-- The byte's count is COUNT_MAX (rule R114). -/
def countFull (v : Byte) (s : State) : Bool := s.ft[byteKey v] == some (BitVec.ofNat 32 Config.countMax)

/-- FREQ_COUNT's loop (rule R110) over the tokens on YIN: it waits where there is none (rule R218), and End ends it.
An overflow leaves the tokens after the offending one; a success leaves none (rule R242; log entry 28). -/
def freqLoop : List YTok → State → State
  | [], s => waitAt .freqCount (takeYin [] s)
  | .endTok :: ts, s => finish (spendYin (setFt eofKey 1#32 (takeYin ts s)))
  | .byte v :: ts, s =>
    if countFull v s then
      raise .countOverflow (v.setWidth 32) (leaveYin (clearFt (countByte (takeYin ts s))))
    else
      freqLoop ts (bumpCount v (countByte (takeYin ts s)))

/-- FREQ_COUNT (rule R110). -/
def execFreqCount (s : State) : Outcome := .next (freqLoop s.yin (clearFt (invalidateTree s)))

end Sys2Proof.Machine
end

