-- ==== Sys2Proof/Machine/Header.lean ====
section
/-! DEFINITION. HDR_WRITE and HDR_READ (46_header.md). -/

namespace Sys2Proof.Machine

open Sys2Proof

/-! ### Characters (46_header.md, above rule R170) -/

/-- An opening brace, 0x7B. -/
def chOpen : Byte := 0x7B#8

/-- A closing brace, 0x7D. -/
def chClose : Byte := 0x7D#8

/-- ':', 0x3A. -/
def chColon : Byte := 0x3A#8

/-- ',', 0x2C. -/
def chComma : Byte := 0x2C#8

/-- ' ', 0x20. -/
def chSpace : Byte := 0x20#8

/-- The character of a decimal digit: '0' + d. -/
def chDigit (d : Nat) : Byte := BitVec.ofNat 8 (0x30 + d)

/-! ### HDR_WRITE -/

/-- The decimal digits of a number below `10 ^ n`, most significant first, no leading zeros (rule R170). -/
def decDigits : Nat → Nat → List Nat
  | 0, _ => []
  | n + 1, v => if v < 10 then [v] else decDigits n (v / 10) ++ [v % 10]

/-- `PutDec(v)`: the characters of v < 2^32, which has at most ten digits (rule R170). -/
def decText (v : Nat) : List Byte := (decDigits 10 v).map chDigit

/-- One entry, `key:value` (rule R170). -/
def entryText (ft : FreqTable) (k : Key) : List Byte := decText k.val ++ chColon :: decText (countOf ft k).toNat

/-- The entries after the first, each after its ", " (rule R170). -/
def moreEntries (ft : FreqTable) (ks : List Key) : List Byte :=
  ks.flatMap fun k => chComma :: chSpace :: entryText ft k

/-- The entries of a list of keys, separated by ", ". -/
def entriesText (ft : FreqTable) : List Key → List Byte
  | [] => []
  | k :: ks => entryText ft k ++ moreEntries ft ks

/-- The header text of a mapping (rules R170, R171). -/
def headerText (ft : FreqTable) : List Byte := chOpen :: entriesText ft (keys ft) ++ [chClose]

/-- `Put` each byte in order (rule R170): the command waits where the host withholds acceptance on YOUT, and ends after the last. -/
def putLoop : List Byte → State → State
  | [], s => finish s
  | c :: cs, s =>
    match writeYout c s with
    | none => waitAt (.hdrWrite (c :: cs)) s
    | some t => putLoop cs (countByte t)

/-- HDR_WRITE (rule R170): FT cannot change while the command runs (rule R40), so the text is fixed at its start
(DEDUCED, safe: log entry 13). -/
def execHdrWrite (s : State) : Outcome := .next (putLoop (headerText s.ft) s)

/-! ### HDR_READ -/

/-- `dig(t)` where `isDigit(t)`, else none (rule R180). -/
def digit? : YTok → Option Nat
  | .byte v => if 0x30 ≤ v.toNat ∧ v.toNat ≤ 0x39 then some (v.toNat - 0x30) else none
  | .endTok => none

/-- What the parser does with one token. -/
inductive HdrNext where
  | go (place : HdrPos)
  | store (k : Key) (c : Count) (place : HdrPos)
  | storeEnd (k : Key) (c : Count)
  | done
  | fail
  deriving DecidableEq, Repr

/-- A key's next digit: the key must stay within 0..256 (rules R180, R184). -/
def keyDigit (k d : Nat) : HdrNext := if h : 10 * k + d < 257 then .go (.key ⟨10 * k + d, h⟩) else .fail

/-- A value's next digit: the value must stay within COUNT_MAX (rules R180, R184). -/
def valueDigit (k : Key) (c d : Nat) : HdrNext :=
  if 10 * c + d ≤ Config.countMax then .go (.value k (BitVec.ofNat 32 (10 * c + d))) else .fail

/-- The parser of rule R180 at one token, `ft` being the mapping read so far. -/
def hdrToken (ft : FreqTable) (place : HdrPos) (t : YTok) : HdrNext :=
  match place with
  | .brace => if t = .byte chOpen then .go .first else .fail
  | .first =>
    if t = .byte chClose then .done
    else match digit? t with
      | some d => keyDigit 0 d
      | none => .fail
  | .keyFirst =>
    match digit? t with
    | some d => keyDigit 0 d
    | none => .fail
  | .key k =>
    match digit? t with
    | some d => keyDigit k.val d
    | none =>
      if t = .byte chColon then
        if ft[k].isSome then .fail else .go (.valueFirst k)
      else .fail
  | .valueFirst k =>
    match digit? t with
    | some d => valueDigit k 0 d
    | none => .fail
  | .value k c =>
    match digit? t with
    | some d => valueDigit k c.toNat d
    | none =>
      if t = .byte chClose then .storeEnd k c
      else if t = .byte chComma then .store k c .space
      else .fail
  | .space => if t = .byte chSpace then .go .keyFirst else .fail

/-- BYTE_COUNT counts the token unless it is End (rule R180). -/
def countToken (t : YTok) (s : State) : State :=
  match t with
  | .byte _ => countByte s
  | .endTok => s

/-- `Fail(p)` (rules R180, R182): FT is emptied and the position of the token is reported. A position that ERR_INFO's 32 bits
cannot hold (a header of 2^32 tokens or more, rule R183 allows any number of leading zeros) is a free value: the spec states
none (DESIGN CHOICE, safe: log entry 8). -/
def failHeader (p : Nat) (s : State) : State :=
  if p < 2 ^ 32 then raise .malformedHeader (BitVec.ofNat 32 p) (clearFt s)
  else raise .malformedHeader (freshWord s) (clearFt (drawFree s))

/-- HDR_READ's loop (rule R180) over the tokens on YIN, `pos` being the position of the next one. Wherever it ends, what
stands on YIN is left over (rule R242). -/
def hdrLoop : List YTok → Nat → HdrPos → State → State
  | [], pos, place, s => waitAt (.hdrRead pos place) (takeYin [] s)
  | t :: ts, pos, place, s =>
    match hdrToken s.ft place t with
    | .go p => hdrLoop ts (pos + 1) p (countToken t (takeYin ts s))
    | .store k c p => hdrLoop ts (pos + 1) p (setFt k c (countToken t (takeYin ts s)))
    | .storeEnd k c => finish (leaveYin (setFt k c (countToken t (takeYin ts s))))
    | .done => finish (leaveYin (countToken t (takeYin ts s)))
    | .fail => failHeader pos (leaveYin (countToken t (takeYin ts s)))

/-- HDR_READ (rule R180). -/
def execHdrRead (s : State) : Outcome := .next (hdrLoop s.yin 0 .brace (clearFt (invalidateTree s)))

end Sys2Proof.Machine
end

