-- ==== Sys2Proof/Machine/TreeBuilder.lean ====
section
/-! DEFINITION. BUILD_TREE (42_tree_builder.md). -/

namespace Sys2Proof.Machine

open Sys2Proof

/-- The leaf of a key: its weight is the key's count (rules R120, R121). -/
def leafNode (ft : FreqTable) (k : Key) : Node :=
  { leaf := true, sym := keySymbol k, weight := (countOf ft k).setWidth 41, zero := 0, one := 0 }

/-- The internal node over two removed nodes: "zero-branch is the first removed node" (rule R120). -/
def internalNode (s : State) (a b : NodeIdx) : Node :=
  { leaf := false
    sym := BitVec.ofNat 9 Config.notAChar
    weight := (nodeAt s a).weight + (nodeAt s b).weight
    zero := a
    one := b }

/-- Create a node and insert it into the queue (rules R120, R122, R123). -/
def pushNode (nd : Node) (s : State) : State := pqInsert (newNode nd s).1 (newNode nd s).2

/-- Create the leaf of one key (rule R121). -/
def addLeaf (s : State) (k : Key) : State := pushNode (leafNode s.ft k) s

/-- Create the leaves, in ascending symbol order (rule R121). -/
def addLeaves (s : State) : State := (keys s.ft).foldl addLeaf s

/-- One round of the loop: remove the two least nodes and insert the node over them (rule R120). -/
def mergeTwo (s : State) : State :=
  match pqPopMin s with
  | none => s
  | some (a, s1) =>
    match pqPopMin s1 with
    | none => s1
    | some (b, s2) => pushNode (internalNode s2 a b) s2

/-- `while |PQ| > 1` (rule R120). The first argument bounds the rounds: the queue never holds more than PQ_CAP nodes and each
round makes it one shorter (rules R42, R124). -/
def mergeLoop : Nat → State → State
  | 0, s => s
  | n + 1, s => if 1 < s.pq.length then mergeLoop n (mergeTwo s) else s

/-- BUILD_TREE's start: no code table, no tree, an empty queue (rule R120). -/
def startBuild (s : State) : State := { dropTree (invalidateCodes s) with pq := [] }

/-- The root is the last node left in the queue (rule R120). -/
def setRoot (r : NodeIdx) (s : State) : State := { s with root := r, treeValid := true }

/-- BUILD_TREE (rule R120). An empty mapping leaves the queue empty before and after the loop, so that the last `PQPopMin()`
finds no node is exactly `|PQ| == 0` (rule R125). -/
def execBuildTree (s : State) : Outcome :=
  match pqPopMin (mergeLoop Config.pqCap (addLeaves (startBuild s))) with
  | none => .next (raise .invalidInput 0#32 (addLeaves (startBuild s)))
  | some (r, t) => .next (finish (setRoot r t))

end Sys2Proof.Machine
end

