-- ==== Sys2Proof/Machine/Sequencer.lean ====
section
/-! DEFINITION. A running command goes on from the port transfer it stands at (rules R15, R22, R218). -/

namespace Sys2Proof.Machine

open Sys2Proof

/-- The running command goes on as far as the ports let it. The idle sequencer does nothing, and an accepted word is decoded by
the step itself. -/
def resume (s : State) : State :=
  match s.seq with
  | .idle => s
  | .accepted _ => s
  | .freqCount => freqLoop s.yin s
  | .hdrWrite rest => putLoop rest s
  | .hdrRead pos place => hdrLoop s.yin pos place s
  | .encodeRead => encodeLoop s.yin s
  | .encodeEmit rest last => resumeEmit rest last s
  | .decodeRead cur => decodeLoop s.bin cur s
  | .decodeWrite cur => resumeLeaf cur s

/-- The word of an accepted command that has not begun, none otherwise. -/
def pendingWord (s : State) : Option Word :=
  match s.seq with
  | .accepted w => some w
  | .idle => none
  | .freqCount => none
  | .hdrWrite _ => none
  | .hdrRead _ _ => none
  | .encodeRead => none
  | .encodeEmit _ _ => none
  | .decodeRead _ => none
  | .decodeWrite _ => none

end Sys2Proof.Machine
end

