-- ==== Sys2Proof/Machine/Step.lean ====
section
/-! DEFINITION. One step: the host's next move lands, and then the codec goes on as far as it can (rules R15, R73). The machine
fetches nothing (rule R21): the command it runs next is the word of the host's next CMD write. That a command runs to its end or to
a port transfer in one step is rule R15; where the host's moves land is a DESIGN CHOICE, unsafe: log entry 1. -/

namespace Sys2Proof.Machine

open Sys2Proof

/-- Decode the accepted word and run its command (rules R31, R81): an illegal word raises IllegalCommand. -/
def runWord (w : Word) (s : State) : Host.Outcome State Fault Refusal :=
  match decode w with
  | .command i => exec i s
  | .illegalCommand w => .next (raise .illegalCommand w s)

/-- The codec's own part of a step: nothing while RST is asserted (rule R230); an accepted word begins; a running command goes on. -/
def progress (s : State) : Host.Outcome State Fault Refusal :=
  if s.rst then .next s
  else
    match pendingWord s with
    | some w => runWord w s
    | none => .next (resume s)

/-- One step. Where the host has no move to make, the codec alone goes on; a blocked or idle codec then stays as it is, for ever
(rule R218). While `hold` is not 0 the host's move lands and the codec makes no progress (rule R245). -/
def step (s : State) : Host.Outcome State Fault Refusal :=
  match s.host with
  | [] => progress s
  | m :: rest =>
    if s.hold = 0 then progress (hostMove m { s with host := rest })
    else .next (hostMove m { s with host := rest, hold := s.hold - 1 })

/-- The state whose very next step accepts, decodes and runs the word `w`: the host's next move is the CMD write of that word,
the codec is idle, out of reset and not held. -/
def State.withFetchWord (s : State) (nbits w : Nat) : State :=
  { s with
    busy := false
    seq := .idle
    rst := false
    hold := 0
    host := .write 0x00#7 .w32 (tableWord nbits w) :: s.host }

end Sys2Proof.Machine
end

