-- ==== Sys2Proof/Safety.lean ====
section
/-! DEFINITION. What a sound state of the codec is: the invariants the spec states (rules R40 to R50), in the terms that claims
use. Every step keeps them; the arena and the code table of a sound state are a tree and its code. -/

namespace Sys2Proof.Machine

open Sys2Proof

/-! ### Control -/

/-- BUSY = 1 exactly while the sequencer runs a command (rules R22, R217). -/
def State.BusyOk (s : State) : Prop := s.busy = true ↔ s.seq ≠ .idle

/-- PQ and the traversal stack are empty between commands (rules R42, R44). -/
def State.ScratchOk (s : State) : Prop := s.pq = [] ∧ s.walk = []

/-- The report (rules R31, R34, R200, R201): while a command runs there is none; without ERR there is no code and no word; and
ERR_CODE never holds 6, which no command raises, or a reserved value 9..15. -/
structure State.ReportOk (s : State) : Prop where
  running : s.busy = true → s.done = false ∧ s.err = false
  clean : s.err = false → s.errCode = 0#4 ∧ s.errInfo = 0#32
  code : s.errCode.toNat ≤ 8 ∧ s.errCode ≠ 6#4

/-- While RST is asserted every piece of the codec's state has its reset value (rule R230). -/
def State.RstOk (s : State) : Prop := s.rst = true → resetCodec s = s

/-- The four together. -/
structure State.ControlOk (s : State) : Prop where
  busy : s.BusyOk
  scratch : s.ScratchOk
  report : s.ReportOk
  rst : s.RstOk

/-! ### The tree (rule R47) -/

/-- `p` is an internal node of the arena and `c` is one of its two children. -/
def Linked (s : State) (p c : NodeIdx) : Prop :=
  p.val < s.nodeCnt.val ∧ isLeaf s p = false ∧ (child s p false = c ∨ child s p true = c)

/-- The arena holds a tree of FT: the five clauses of rule R47. -/
structure TreeShape (s : State) : Prop where
  /-- (a) -/
  count : 1 ≤ s.nodeCnt.val ∧ s.nodeCnt.val ≤ 513 ∧ s.root.val + 1 = s.nodeCnt.val
  /-- (b) -/
  children : ∀ n : NodeIdx, n.val < s.nodeCnt.val → isLeaf s n = false →
    child s n false < n ∧ child s n true < n ∧ child s n false ≠ child s n true
  /-- (c) -/
  parent : ∀ n : NodeIdx, n.val < s.nodeCnt.val → n ≠ s.root → ∃ p, Linked s p n ∧ ∀ q, Linked s q n → q = p
  /-- (d), one leaf per key -/
  leafCount : (keys s.ft).length ≤ s.nodeCnt.val
  /-- (d), the leaves' places -/
  leaves : ∀ n : NodeIdx, n.val < s.nodeCnt.val → (isLeaf s n = true ↔ n.val < (keys s.ft).length)
  /-- (d), the leaves' symbols -/
  symbols : ∀ n : NodeIdx, ∀ k : Key, n.val < s.nodeCnt.val → (keys s.ft)[n.val]? = some k → (nodeAt s n).sym = keySymbol k
  /-- (e) -/
  weights : ∀ n : NodeIdx, n.val < s.nodeCnt.val → isLeaf s n = false →
    (nodeAt s n).weight = (nodeAt s (child s n false)).weight + (nodeAt s (child s n true)).weight

/-- Whenever TREE_VALID = 1 the arena holds a tree of FT (rule R47); otherwise NODE_CNT and ROOT are 0 (rules R37, R103). -/
structure State.TreeOk (s : State) : Prop where
  valid : s.treeValid = true → TreeShape s
  invalid : s.treeValid = false → s.nodeCnt = 0 ∧ s.root = 0

/-- The order of two nodes by (weight, index) (rule R123). -/
def KeyLess (s : State) (a b : NodeIdx) : Prop :=
  (nodeAt s a).weight.toNat < (nodeAt s b).weight.toNat ∨ ((nodeAt s a).weight.toNat = (nodeAt s b).weight.toNat ∧ a < b)

/-- When node `n` was created, `m` existed and was no node's child yet: it stood in the queue. -/
def OpenAt (s : State) (n m : NodeIdx) : Prop :=
  m < n ∧ ∀ p : NodeIdx, p < n → isLeaf s p = false → child s p false ≠ m ∧ child s p true ≠ m

/-- The internal node `n` was made by the rule of BUILD_TREE's loop (rules R120, R123): of the nodes then in the queue its
zero-branch is the least and its one-branch, another node, the least of the others. -/
structure GreedyAt (s : State) (n : NodeIdx) : Prop where
  distinct : child s n false ≠ child s n true
  zero : OpenAt s n (child s n false)
  one : OpenAt s n (child s n true)
  first : ∀ m, OpenAt s n m → m = child s n false ∨ KeyLess s (child s n false) m
  second : ∀ m, OpenAt s n m → m = child s n false ∨ m = child s n true ∨ KeyLess s (child s n true) m

/-! ### The code table (rule R48) -/

/-- The node a bit string leads to from `n`, 0 taking the zero-branch and 1 the one-branch; none where it goes on past a leaf. -/
def leads (s : State) : NodeIdx → Path → Option NodeIdx
  | n, [] => some n
  | n, b :: bs => if isLeaf s n then none else leads s (child s n b) bs

/-- A bit string is the root-to-leaf path of the leaf of symbol `k` (rules R14, R48). -/
def IsCodeOf (s : State) (k : Key) (c : Path) : Prop :=
  ∃ n, leads s s.root c = some n ∧ n.val < s.nodeCnt.val ∧ isLeaf s n = true ∧ (nodeAt s n).sym = keySymbol k

/-- The code table's invariant: whenever CT_READY = 1 there is a tree, exactly the keys of FT have a code, and a code is its leaf's
path, at most MAX_CODE_LEN long (rules R48, R8); otherwise no entry is valid (rules R143, R153). -/
structure State.CodeOk (s : State) : Prop where
  tree : s.ctReady = true → s.treeValid = true
  valid : s.ctReady = true → ∀ k : Key, s.ct[k].isSome = s.ft[k].isSome
  path : s.ctReady = true → ∀ k : Key, ∀ c, s.ct[k] = some c → c.length ≤ 256 ∧ IsCodeOf s k c
  empty : s.ctReady = false → ∀ k : Key, s.ct[k] = none

/-! ### The running command -/

/-- Where HDR_READ reads a value, its key is not in the mapping yet (rule R182 f). -/
def PlaceOk (s : State) : HdrPos → Prop
  | .brace => True
  | .first => True
  | .keyFirst => True
  | .key _ => True
  | .valueFirst k => s.ft[k] = none
  | .value k _ => s.ft[k] = none
  | .space => True

/-- Where a running command stands (rules R40, R49, R161, R170): FREQ_COUNT and HDR_READ run without a tree or a code table, ENCODE
and HDR_WRITE stand at a token still to be written, and DECODE stands at an internal node of the tree, or at a leaf whose byte is
still to be written. -/
def SeqOk (s : State) : Seq → Prop
  | .idle => True
  | .accepted _ => True
  | .freqCount => s.treeValid = false ∧ s.ctReady = false ∧ s.ft[eofKey] = none
  | .hdrWrite rest => rest ≠ [] ∧ ∃ sent, headerText s.ft = sent ++ rest
  | .hdrRead _ place => s.treeValid = false ∧ s.ctReady = false ∧ PlaceOk s place
  | .encodeRead => True
  | .encodeEmit rest _ => rest ≠ []
  | .decodeRead cur => s.treeValid = true ∧ isLeaf s s.root = false ∧ cur.val < s.nodeCnt.val ∧ isLeaf s cur = false
  | .decodeWrite cur =>
    s.treeValid = true ∧ isLeaf s s.root = false ∧ cur.val < s.nodeCnt.val ∧ isLeaf s cur = true ∧
      (nodeAt s cur).sym.toNat ≤ 255

/-- The running command stands where its rule lets it stand. -/
def State.RunOk (s : State) : Prop := SeqOk s s.seq

/-! ### The input ports (rules R69, R242) -/

/-- The leftovers of an input port are among its tokens, unless a command is reading it, so that a drain or an RST (rule R242)
withdraws no other token (rule R247). -/
structure State.PortsOk (s : State) : Prop where
  yin : readsYin s.seq = false → s.yinLeft ≤ s.yin.length
  bin : readsBin s.seq = false → s.binLeft ≤ s.bin.length

/-! ### Header text (rules R170, R180, R182) -/

/-- One entry of a header as digits: its key and its value. -/
structure HdrEntry where
  key : List (Fin 10)
  value : List (Fin 10)
  deriving DecidableEq, Repr

/-- The number that decimal digits write, the most significant first; leading zeros are allowed (rule R183). -/
def digitsValue (ds : List (Fin 10)) : Nat := ds.foldl (fun v d => 10 * v + d.val) 0

/-- The character of a digit: '0' is 0x30. -/
def digitChar (d : Fin 10) : Byte := BitVec.ofNat 8 (0x30 + d.val)

/-- The text of an entry: the key, ':' = 0x3A, the value. -/
def HdrEntry.text (e : HdrEntry) : List Byte := e.key.map digitChar ++ 0x3A#8 :: e.value.map digitChar

/-- The text of entries, each followed by the separator ", " (0x2C, 0x20). -/
def entriesOpen (es : List HdrEntry) : List Byte := es.flatMap fun e => e.text ++ [0x2C#8, 0x20#8]

/-- A header: '{' = 0x7B, the entries separated by ", ", '}' = 0x7D. -/
def hdrText (es : List HdrEntry) : List Byte :=
  0x7B#8 :: List.intercalate [0x2C#8, 0x20#8] (es.map HdrEntry.text) ++ [0x7D#8]

/-- An entry that HDR_READ accepts (rule R182 d, e, g): digits on both sides, the key at most 256, the value at most COUNT_MAX. -/
structure HdrEntry.Ok (e : HdrEntry) : Prop where
  key : e.key ≠ [] ∧ digitsValue e.key ≤ 256
  value : e.value ≠ [] ∧ digitsValue e.value ≤ Config.countMax

/-- Entries that HDR_READ accepts: each of them, and no key twice (rule R182 f). -/
structure EntriesOk (es : List HdrEntry) : Prop where
  each : ∀ e ∈ es, e.Ok
  distinct : (es.map fun e => digitsValue e.key).Nodup

/-- The mapping that entries write: a key is present with its value where some entry has it, and absent otherwise. -/
def mappingOf (es : List HdrEntry) : FreqTable :=
  Vector.ofFn fun k => (es.find? fun e => digitsValue e.key == k.val).map fun e => BitVec.ofNat 32 (digitsValue e.value)

/-- Digits as HDR_WRITE writes them: at least one, and no leading zero but in "0" itself (rule R171). -/
def plainDigits (ds : List (Fin 10)) : Prop := ds ≠ [] ∧ (ds.length = 1 ∨ ds.head? ≠ some 0)

/-- The entries of a mapping as HDR_WRITE writes them: one per key, in ascending key order, with its count (rules R170, R171). -/
structure WritesMapping (ft : FreqTable) (es : List HdrEntry) : Prop where
  inOrder : (es.map fun e => digitsValue e.key) = (keys ft).map fun k => k.val
  counts : (es.map fun e => digitsValue e.value) = (keys ft).map fun k => (countOf ft k).toNat
  plain : ∀ e ∈ es, plainDigits e.key ∧ plainDigits e.value

/-- A token that is no decimal digit. -/
def NoDigit (t : YTok) : Prop := ∀ d, t ≠ .byte (digitChar d)

/-- The malformed headers of rule R182: after the bytes `pre` the token `t` is the offending one. -/
inductive Offence : List Byte → YTok → Prop where
  /-- (a), (b): the first token is not '{'. -/
  | noBrace (t : YTok) : t ≠ .byte 0x7B#8 → Offence [] t
  /-- (b), (d), (h): after '{' neither a digit nor '}'. -/
  | noFirstKey (t : YTok) : NoDigit t → t ≠ .byte 0x7D#8 → Offence [0x7B#8] t
  /-- (b), (d), (h): after a separator no digit. -/
  | noKey (es : List HdrEntry) (t : YTok) : EntriesOk es → es ≠ [] → NoDigit t → Offence (0x7B#8 :: entriesOpen es) t
  /-- (b), (c), (d), (h): after a key's digits neither a digit nor ':'. -/
  | noColon (es : List HdrEntry) (k : List (Fin 10)) (t : YTok) : EntriesOk es → k ≠ [] → digitsValue k ≤ 256 →
      NoDigit t → t ≠ .byte 0x3A#8 → Offence (0x7B#8 :: entriesOpen es ++ k.map digitChar) t
  /-- (e): the digit that takes a key above 256. -/
  | keyLimit (es : List HdrEntry) (k : List (Fin 10)) (d : Fin 10) : EntriesOk es → digitsValue k ≤ 256 →
      256 < digitsValue (k ++ [d]) → Offence (0x7B#8 :: entriesOpen es ++ k.map digitChar) (.byte (digitChar d))
  /-- (f): the ':' of a repeated key. -/
  | keyTwice (es : List HdrEntry) (k : List (Fin 10)) : EntriesOk es → k ≠ [] → digitsValue k ∈ es.map (fun e => digitsValue e.key) →
      Offence (0x7B#8 :: entriesOpen es ++ k.map digitChar) (.byte 0x3A#8)
  /-- (b), (d), (h): after ':' no digit. -/
  | noValue (es : List HdrEntry) (k : List (Fin 10)) (t : YTok) : EntriesOk es → k ≠ [] → digitsValue k ≤ 256 →
      digitsValue k ∉ es.map (fun e => digitsValue e.key) → NoDigit t →
      Offence (0x7B#8 :: entriesOpen es ++ k.map digitChar ++ [0x3A#8]) t
  /-- (g): the digit that takes a value above COUNT_MAX. -/
  | valueLimit (es : List HdrEntry) (k c : List (Fin 10)) (d : Fin 10) : EntriesOk es → k ≠ [] → digitsValue k ≤ 256 →
      digitsValue k ∉ es.map (fun e => digitsValue e.key) → digitsValue c ≤ Config.countMax →
      Config.countMax < digitsValue (c ++ [d]) →
      Offence (0x7B#8 :: entriesOpen es ++ k.map digitChar ++ 0x3A#8 :: c.map digitChar) (.byte (digitChar d))
  /-- (b), (d), (h): after an entry neither a digit, '}' nor ','. -/
  | noSeparator (es : List HdrEntry) (e : HdrEntry) (t : YTok) : EntriesOk (es ++ [e]) → NoDigit t → t ≠ .byte 0x7D#8 →
      t ≠ .byte 0x2C#8 → Offence (0x7B#8 :: entriesOpen es ++ e.text) t
  /-- (b), (h): after ',' no ' '. -/
  | noSpace (es : List HdrEntry) (e : HdrEntry) (t : YTok) : EntriesOk (es ++ [e]) → t ≠ .byte 0x20#8 →
      Offence (0x7B#8 :: entriesOpen es ++ e.text ++ [0x2C#8]) t

/-! ### A sound state -/

/-- A sound state of the codec: all the invariants together. -/
structure State.Sound (s : State) : Prop where
  control : s.ControlOk
  tree : s.TreeOk
  code : s.CodeOk
  run : s.RunOk
  ports : s.PortsOk

/-- The safe outcomes of a step: the codec never stops (rules R81, R201, R218: an error is a report, and a wait is no error). -/
def goesOn (o : Outcome) : Bool :=
  match o with
  | .next _ => true
  | .fault _ => false
  | .refused _ => false

end Sys2Proof.Machine
end

