-- ==== Sys2Proof/Certificates/Slice0/Obligations.lean ====
section
/-! DEFINITION. The statements for the provers. Each docstring names the rules of spec/ it formalises. `exec i s` is a command's own
effect from a state in which it has been accepted; `step` adds the host's move and the accept before it. -/

open Sys2Proof Sys2Proof.Machine

/-! ### Encoding (30_encoding.md) -/

/-- The nine words of the opcode map, each written out (rule R82), decode to their commands; the first word of each reserved kind
does not (rule R84). -/
def Obligations.TableWordsDecode : Prop :=
  decode 0b00000000000000000000000000000000#32 = .command .nop ∧
  decode 0b00000000000000000000000000000001#32 = .command .clear ∧
  decode 0b00000000000000000000000000000010#32 = .command .freqCount ∧
  decode 0b00000000000000000000000000000011#32 = .command .hdrWrite ∧
  decode 0b00000000000000000000000000000100#32 = .command .hdrRead ∧
  decode 0b00000000000000000000000000000101#32 = .command .buildTree ∧
  decode 0b00000000000000000000000000000110#32 = .command .genCodes ∧
  decode 0b00000000000000000000000000000111#32 = .command .encode ∧
  decode 0b00000000000000000000000000001000#32 = .command .decode ∧
  decode 0b00000000000000000000000000001001#32 = .illegalCommand 0x9#32 ∧
  decode 0b00000000000000000000000000010000#32 = .illegalCommand 0x10#32

/-- Decoding and encoding agree both ways: every command's word decodes to it, and a word that decodes to a command is that
command's word, so its match is the full word (rules R80, R82). -/
def Obligations.DecodeEncodeAgree : Prop :=
  (∀ i : Instr, i.wellFormed = true → decode (encode i) = .command i) ∧
  (∀ (w : Word) (i : Instr), decode w = .command i → encode i = w) ∧
  (∀ i : Instr, i.wellFormed = true → decodeTableWord 32 (encode i).toNat = some i)

/-- Rule R81: a word with a nonzero bit in [31:4] or OP at least 9, and no other, is IllegalCommand; from an idle codec its write
ends at once with code 7, ERR_INFO the word, and nothing else than accept and abort write. Every other word runs its command. -/
def Obligations.EveryWordRunsOrIsIllegal : Prop :=
  (∀ w : Word, decode w = .illegalCommand w ↔ (w.toNat / 16 ≠ 0 ∨ 9 ≤ w.toNat % 16)) ∧
  ∀ (s : State) (w : Word) (rest : List HostMove), s.busy = false → s.rst = false → s.hold = 0 →
    s.host = .write 0x00#7 .w32 w :: rest →
    if w.toNat / 16 ≠ 0 ∨ 9 ≤ w.toNat % 16 then
      step s = .next { s with
        host := rest, busy := false, done := true, err := true, errCode := 7#4, errInfo := w
        bitCount := 0#64, byteCount := 0#64, seq := .idle }
    else ∃ i : Instr, encode i = w ∧
      step s = exec i { s with
        host := rest, busy := true, done := false, err := false, errCode := 0#4, errInfo := 0#32
        bitCount := 0#64, byteCount := 0#64, seq := .accepted w }

/-! ### Accept, steps and blocking -/

/-- A step runs the decoded command: when the host's next move writes a word to CMD of an idle codec and the word decodes to `i`,
the step is `exec i` of the accepted state (rules R31, R73 b). -/
def Obligations.StepRunsDecodedCommand : Prop :=
  ∀ (s : State) (w : Word) (i : Instr) (rest : List HostMove), s.busy = false → s.rst = false → s.hold = 0 →
    s.host = .write 0x00#7 .w32 w :: rest → decode w = .command i →
    step s = exec i { s with
      host := rest, busy := true, done := false, err := false, errCode := 0#4, errInfo := 0#32
      bitCount := 0#64, byteCount := 0#64, seq := .accepted w }

/-- Rule R31: a CMD write while BUSY = 0 is accepted, while BUSY = 1 it changes nothing but OVR, and CMD reads 0; an accepted
word is decoded and its command run. -/
def Obligations.CommandWriteAcceptsOrDrops : Prop :=
  ∀ (s : State) (w : Word), s.rst = false →
    (s.busy = false → busWrite 0x00#7 .w32 w s = { s with
      busy := true, done := false, err := false, errCode := 0#4, errInfo := 0#32
      bitCount := 0#64, byteCount := 0#64, seq := .accepted w }) ∧
    (s.busy = true → busWrite 0x00#7 .w32 w s = { s with ovr := true }) ∧
    busRead 0x00#7 .w32 s = { s with responses := s.responses ++ [.value 0#32] } ∧
    ∀ i : Instr, decode w = .command i → s.host = [] → s.seq = .accepted w → step s = exec i s

/-- Rule R218 (with R217): with no host move to come, an idle codec, a codec in reset, and a command at a port where the host
offers no token or accepts none stay exactly as they are: a wait is no error and has no timeout. -/
def Obligations.BlockedCodecStays : Prop :=
  ∀ s : State, s.host = [] →
    (s.rst = true ∨ s.seq = .idle ∨
      (s.seq = .freqCount ∧ s.yin = []) ∨
      (∃ p pl, s.seq = .hdrRead p pl ∧ s.yin = []) ∨
      (s.seq = .encodeRead ∧ s.yin = []) ∨
      (∃ b bs l, s.seq = .encodeEmit (b :: bs) l ∧ s.boutReady = .upTo 0) ∨
      (∃ c cs, s.seq = .hdrWrite (c :: cs) ∧ s.youtReady = .upTo 0) ∨
      (∃ n, s.seq = .decodeRead n ∧ s.bin = []) ∨
      (∃ n, s.seq = .decodeWrite n ∧ s.youtReady = .upTo 0)) →
    step s = .next s

/-- When a command is left waiting, the tokens offered later let it go on exactly as if they had been offered before it began
(rules R15, R64, R65: a command is one state change but for blocking at port transfers). Where HDR_READ fails at a position of 2^32
or more, ERR_INFO is a free word (log entry 8): that both runs draw the same one is the model's choice (log entry 4), not a rule's. What
the equality says of leftovers is the model's reading (log entry 28). -/
def Obligations.TokensOfferedLaterAreTheSame : Prop :=
  ∀ (i : Instr) (s t : State) (more : List YTok) (bits : List BTok), s.host = [] → s.rst = false →
    exec i s = .next t → t.seq ≠ .idle →
    step { t with yin := t.yin ++ more, bin := t.bin ++ bits } =
      exec i { s with yin := s.yin ++ more, bin := s.bin ++ bits }

/-- When a command is left waiting, the host's later acceptance lets it go on exactly as if the host had accepted from the start
(rules R15, R66, R67). -/
def Obligations.AcceptanceGivenLaterIsTheSame : Prop :=
  ∀ (i : Instr) (s t : State), s.host = [] → s.rst = false → exec i s = .next t → t.seq ≠ .idle →
    step { t with youtReady := .all, boutReady := .all } = exec i { s with youtReady := .all, boutReady := .all }

/-- While the host accepts only `n` tokens of an output port, a command sends exactly the first `n` of those it would send
otherwise (rules R66, R67). -/
def Obligations.LimitedAcceptanceSendsAPrefix : Prop :=
  ∀ (i : Instr) (s t u : State) (n : Nat),
    exec i { s with youtReady := .upTo n, boutReady := .upTo n } = .next t →
    exec i { s with youtReady := .all, boutReady := .all } = .next u →
    ∃ bytes bits, u.yout = s.yout ++ bytes ∧ u.bout = s.bout ++ bits ∧
      t.yout = s.yout ++ bytes.take n ∧ t.bout = s.bout ++ bits.take n

/-- Rules R203, R204, R219: a command that has ended has BUSY = 0 and DONE = 1, and the report is what accept left or an error;
one that waits has changed no field of the report. -/
def Obligations.CommandEndsOrWaits : Prop :=
  ∀ (i : Instr) (s t : State), exec i s = .next t →
    (t.seq = .idle ∧ t.busy = false ∧ t.done = true ∧
      ((t.err = s.err ∧ t.errCode = s.errCode ∧ t.errInfo = s.errInfo) ∨ (t.err = true ∧ t.errCode ≠ 0#4))) ∨
    (t.seq ≠ .idle ∧ t.busy = s.busy ∧ t.done = s.done ∧ t.err = s.err ∧ t.errCode = s.errCode ∧ t.errInfo = s.errInfo)

/-! ### NOP and CLEAR (40_control.md) -/

/-- Rule R100: NOP ends at once and changes nothing else; with its accept it zeroes the report and the counters, so STATUS
0x00000736 becomes 0x00000032. -/
def Obligations.NopOnlyEnds : Prop :=
  (∀ s : State, exec .nop s = .next { s with busy := false, done := true, seq := .idle }) ∧
  ∀ (s : State) (rest : List HostMove), s.busy = false → s.rst = false → s.hold = 0 →
    s.host = .write 0x00#7 .w32 0x00000000#32 :: rest →
    ∃ t : State, step s = .next t ∧
      t = { s with
        host := rest, busy := false, done := true, err := false, errCode := 0#4, errInfo := 0#32
        bitCount := 0#64, byteCount := 0#64, seq := .idle } ∧
      (statusWord s = 0x00000736#32 → statusWord t = 0x00000032#32)

/-- CLEAR empties FT, drops the tree and the code table, ends, and changes nothing else: the arena's entries, OVR, CTRL, the index
registers and the ports stay (rules R101 to R104). -/
def Obligations.ClearEmptiesTables : Prop :=
  ∀ s : State, exec .clear s = .next { s with
    ft := Vector.replicate 257 none, ct := Vector.replicate 257 none
    treeValid := false, ctReady := false, nodeCnt := 0, root := 0
    busy := false, done := true, seq := .idle }

/-! ### FREQ_COUNT (41_frequency.md) -/

/-- FREQ_COUNT over bytes and End: each byte's count is the number of its occurrences, PSEUDO_EOF has count 1, no other entry is
present, BYTE_COUNT grows by the number of bytes (accept has zeroed it), and the tokens through End are consumed (rules R110, R111,
R113). That what follows End is no leftover is the model's reading of R242 (log entry 28). -/
def Obligations.FreqCountCounts : Prop :=
  ∀ (s : State) (bs : List Byte) (rest : List YTok),
    s.yin = bs.map YTok.byte ++ .endTok :: rest → (∀ v, bs.count v ≤ Config.countMax) →
    ∃ ft : FreqTable,
      exec .freqCount s = .next { s with
        ft := ft, ct := Vector.replicate 257 none, treeValid := false, ctReady := false, nodeCnt := 0, root := 0
        byteCount := s.byteCount + BitVec.ofNat 64 bs.length, yin := rest, yinLeft := 0
        busy := false, done := true, seq := .idle } ∧
      ft[eofKey] = some 1#32 ∧
      ∀ v : Byte, ft[byteKey v] = if v ∈ bs then some (BitVec.ofNat 32 (bs.count v)) else none

/-- Rule R112: with End as the first token FREQ_COUNT, written to an idle codec, ends with PSEUDO_EOF with count 1 alone in FT,
BYTE_COUNT 0 and success. That what follows End is no leftover is the model's reading of R242 (log entry 28). -/
def Obligations.FreqCountOfEmptyInput : Prop :=
  ∀ (s : State) (rest : List YTok) (more : List HostMove), s.busy = false → s.rst = false → s.hold = 0 →
    s.host = .write 0x00#7 .w32 0x00000002#32 :: more → s.yin = .endTok :: rest →
    step s = .next { s with
      host := more, yin := rest, yinLeft := 0, ft := (Vector.replicate 257 none).set 256 (some 1#32), ct := Vector.replicate 257 none
      treeValid := false, ctReady := false, nodeCnt := 0, root := 0, bitCount := 0#64, byteCount := 0#64
      busy := false, done := true, err := false, errCode := 0#4, errInfo := 0#32, seq := .idle }

/-- Rule R114: a byte that has been counted COUNT_MAX times and occurs again makes FREQ_COUNT empty FT and raise CountOverflow with
that byte; BYTE_COUNT includes it, and the tokens after it stay, as leftovers (rule R242; log entry 28). -/
def Obligations.FreqCountOverflow : Prop :=
  ∀ (s : State) (bs : List Byte) (v : Byte) (rest : List YTok),
    s.yin = bs.map YTok.byte ++ .byte v :: rest → (∀ u, bs.count u ≤ Config.countMax) → bs.count v = Config.countMax →
    exec .freqCount s = .next { s with
      ft := Vector.replicate 257 none, ct := Vector.replicate 257 none
      treeValid := false, ctReady := false, nodeCnt := 0, root := 0
      byteCount := s.byteCount + BitVec.ofNat 64 (bs.length + 1), yin := rest, yinLeft := rest.length
      busy := false, done := true, err := true, errCode := 8#4, errInfo := v.setWidth 32, seq := .idle }

/-- FREQ_COUNT without End consumes every byte and waits: the report is as it was (rules R64, R218). -/
def Obligations.FreqCountWaitsForEnd : Prop :=
  ∀ (s : State) (bs : List Byte), s.yin = bs.map YTok.byte → (∀ v, bs.count v ≤ Config.countMax) →
    ∃ ft : FreqTable,
      exec .freqCount s = .next { s with
        ft := ft, ct := Vector.replicate 257 none, treeValid := false, ctReady := false, nodeCnt := 0, root := 0
        byteCount := s.byteCount + BitVec.ofNat 64 bs.length, yin := [], seq := .freqCount } ∧
      ft[eofKey] = none ∧
      ∀ v : Byte, ft[byteKey v] = if v ∈ bs then some (BitVec.ofNat 32 (bs.count v)) else none

/-! ### BUILD_TREE (42_tree_builder.md) -/

/-- BUILD_TREE on a mapping with L ≥ 1 keys: a tree of rule R47 with 2L - 1 nodes and the last one as ROOT; leaf i is the i-th key
with its count as weight; internal nodes carry NOT_A_CHAR; ROOT's weight is the sum of all counts; CT is emptied; nothing else
changes (rules R120, R121, R122, R124). That the entries above NODE_CNT stay is the model's reading of U18 (log entry 22). -/
def Obligations.BuildTreeBuildsATree : Prop :=
  ∀ s : State, keys s.ft ≠ [] →
    ∃ t : State, exec .buildTree s = .next t ∧
      t = { s with
        node := t.node, nodeCnt := t.nodeCnt, root := t.root, treeValid := true
        ctReady := false, ct := Vector.replicate 257 none, pq := []
        busy := false, done := true, seq := .idle } ∧
      TreeShape t ∧
      t.nodeCnt.val + 1 = 2 * (keys s.ft).length ∧
      (∀ n : NodeIdx, ∀ k : Key, (keys s.ft)[n.val]? = some k →
        nodeAt t n = { leaf := true, sym := BitVec.ofNat 9 k.val, weight := (countOf s.ft k).setWidth 41, zero := 0, one := 0 }) ∧
      (∀ n : NodeIdx, n.val < t.nodeCnt.val → isLeaf t n = false → (nodeAt t n).sym = 257#9) ∧
      (nodeAt t t.root).weight.toNat = ((keys s.ft).map fun k => (countOf s.ft k).toNat).sum ∧
      ∀ n : NodeIdx, t.nodeCnt.val ≤ n.val → nodeAt t n = nodeAt s n

/-- Every internal node of the tree was made by the greedy rule: its two branches differ, its zero-branch is the least node, by
weight and then by index, of those that stood in the queue when it was made, and its one-branch the least of the others (rules R120,
R123). -/
def Obligations.BuildTreeIsGreedy : Prop :=
  ∀ s : State, keys s.ft ≠ [] →
    ∃ t : State, exec .buildTree s = .next t ∧
      ∀ n : NodeIdx, n.val < t.nodeCnt.val → isLeaf t n = false → GreedyAt t n

/-- BUILD_TREE on the empty mapping raises InvalidInput with ERR_INFO 0 and leaves no tree and no code table (rule R125). -/
def Obligations.BuildTreeOfEmptyMapping : Prop :=
  ∀ s : State, keys s.ft = [] →
    exec .buildTree s = .next { s with
      treeValid := false, nodeCnt := 0, root := 0, ctReady := false, ct := Vector.replicate 257 none, pq := []
      busy := false, done := true, err := true, errCode := 1#4, errInfo := 0#32, seq := .idle }

/-- The tree depends on FT alone: from equal mappings BUILD_TREE leaves equal trees (rule R165 b's ground). -/
def Obligations.BuildTreeDependsOnFtAlone : Prop :=
  ∀ s u t v : State, s.ft = u.ft → exec .buildTree s = .next t → exec .buildTree u = .next v →
    t.treeValid = v.treeValid ∧ t.nodeCnt = v.nodeCnt ∧ t.root = v.root ∧
      ∀ n : NodeIdx, n.val < t.nodeCnt.val → nodeAt t n = nodeAt v n

/-- The property the source asks of the tree (rule R128): of two keys, the path to the one with the smaller count is at least as
long as the path to the other. -/
def Obligations.RarerSymbolsHaveNoShorterCodes : Prop :=
  ∀ (s t : State) (j k : Key) (a b : Count) (c d : Path), exec .buildTree s = .next t →
    s.ft[j] = some a → s.ft[k] = some b → a < b → IsCodeOf t j c → IsCodeOf t k d → d.length ≤ c.length

/-! ### GEN_CODES (43_code_table.md) -/

/-- GEN_CODES on a tree: exactly the keys of FT have a code, each code is its leaf's root-to-leaf path, CT_READY is set, and
nothing else changes (rules R140, R141). That the traversal stack is empty afterwards is the model's choice (log entry 10). -/
def Obligations.GenCodesGivesPaths : Prop :=
  ∀ s : State, s.treeValid = true → TreeShape s →
    ∃ ct : CodeTable,
      exec .genCodes s = .next { s with
        ct := ct, ctReady := true, walk := [], busy := false, done := true, seq := .idle } ∧
      (∀ k : Key, ct[k].isSome = s.ft[k].isSome) ∧
      ∀ k : Key, ∀ c, ct[k] = some c → c.length ≤ 256 ∧ IsCodeOf s k c

/-- Rule R142: when ROOT is a leaf its symbol gets the empty code, and it alone. That the traversal stack is empty afterwards is the
model's choice (log entry 10). -/
def Obligations.GenCodesSingleLeaf : Prop :=
  ∀ (s : State) (k : Key), s.treeValid = true → isLeaf s s.root = true → (nodeAt s s.root).sym = keySymbol k →
    exec .genCodes s = .next { s with
      ct := (Vector.replicate 257 none).set k.val (some []), ctReady := true, walk := []
      busy := false, done := true, seq := .idle }

/-- Without a tree GEN_CODES raises InvalidTree with ERR_INFO 0xFFFFFFFF and leaves CT as it was (rule R143). -/
def Obligations.GenCodesWithoutTree : Prop :=
  ∀ s : State, s.treeValid = false →
    exec .genCodes s = .next { s with
      busy := false, done := true, err := true, errCode := 4#4, errInfo := 0xFFFFFFFF#32, seq := .idle }

/-! ### ENCODE (44_encoder.md) -/

/-- Rule R151: over bytes with codes and End, the bits written are the codes of the bytes in order and then PSEUDO_EOF's; the
counters count them (accept has zeroed both), the tokens through End are consumed, and nothing else changes. That what follows End is
no leftover is the model's reading of R242 (log entry 28). -/
def Obligations.EncodeWritesThePayload : Prop :=
  ∀ (s : State) (bs : List Byte) (rest : List YTok) (code : Byte → Path) (eof : Path),
    s.yin = bs.map YTok.byte ++ .endTok :: rest → s.boutReady = .all →
    (∀ v ∈ bs, s.ct[byteKey v] = some (code v)) → s.ct[eofKey] = some eof →
    exec .encode s = .next { s with
      yin := rest, yinLeft := 0, bout := s.bout ++ (bs.flatMap code ++ eof)
      bitCount := s.bitCount + BitVec.ofNat 64 (bs.flatMap code ++ eof).length
      byteCount := s.byteCount + BitVec.ofNat 64 bs.length
      busy := false, done := true, seq := .idle }

/-- Rule R152: at the first byte without a code ENCODE raises UnknownSymbol with that byte: the codes of the earlier bytes have
been written (exactly, though the host discards them: U3, log entry 23), BYTE_COUNT includes it, and the tokens after it stay, as
leftovers (rule R242; log entry 28). -/
def Obligations.EncodeUnknownByte : Prop :=
  ∀ (s : State) (bs : List Byte) (v : Byte) (rest : List YTok) (code : Byte → Path),
    s.yin = bs.map YTok.byte ++ .byte v :: rest → s.boutReady = .all →
    (∀ u ∈ bs, s.ct[byteKey u] = some (code u)) → s.ct[byteKey v] = none →
    exec .encode s = .next { s with
      yin := rest, yinLeft := rest.length, bout := s.bout ++ bs.flatMap code
      bitCount := s.bitCount + BitVec.ofNat 64 (bs.flatMap code).length
      byteCount := s.byteCount + BitVec.ofNat 64 (bs.length + 1)
      busy := false, done := true, err := true, errCode := 2#4, errInfo := v.setWidth 32, seq := .idle }

/-- ENCODE at End without a code for PSEUDO_EOF raises UnknownSymbol with 256, after the codes of all bytes (rule R153), and leaves the
tokens after it (rule R242; log entry 28). The bits before the error are exact here though the host discards them (R205, U3: log
entry 23). -/
def Obligations.EncodeWithoutEofCode : Prop :=
  ∀ (s : State) (bs : List Byte) (rest : List YTok) (code : Byte → Path),
    s.yin = bs.map YTok.byte ++ .endTok :: rest → s.boutReady = .all →
    (∀ u ∈ bs, s.ct[byteKey u] = some (code u)) → s.ct[eofKey] = none →
    exec .encode s = .next { s with
      yin := rest, yinLeft := rest.length, bout := s.bout ++ bs.flatMap code
      bitCount := s.bitCount + BitVec.ofNat 64 (bs.flatMap code).length
      byteCount := s.byteCount + BitVec.ofNat 64 bs.length
      busy := false, done := true, err := true, errCode := 2#4, errInfo := 256#32, seq := .idle }

/-! ### DECODE (45_decoder.md) -/

/-- DECODE over bits that lead to the leaves of bytes, one after the other, and then to the leaf of PSEUDO_EOF: it emits those
bytes, stops at the bit that reaches PSEUDO_EOF, leaves the tokens after it as leftovers (rule R242; log entry 28), and changes nothing
else but its counters (rules R160, R161). The tree need not meet rule R47. -/
def Obligations.DecodeFollowsPaths : Prop :=
  ∀ (s : State) (bs : List Byte) (code : Byte → Path) (eof : Path) (e : NodeIdx) (rest : List BTok),
    s.treeValid = true → isLeaf s s.root = false → s.youtReady = .all →
    (∀ v ∈ bs, ∃ n, leads s s.root (code v) = some n ∧ isLeaf s n = true ∧ (nodeAt s n).sym = keySymbol (byteKey v)) →
    leads s s.root eof = some e → isLeaf s e = true → (nodeAt s e).sym = keySymbol eofKey →
    s.bin = (bs.flatMap code ++ eof).map BTok.bit ++ rest →
    exec .decode s = .next { s with
      bin := rest, binLeft := rest.length, yout := s.yout ++ bs
      bitCount := s.bitCount + BitVec.ofNat 64 (bs.flatMap code ++ eof).length
      byteCount := s.byteCount + BitVec.ofNat 64 bs.length
      busy := false, done := true, seq := .idle }

/-- Rule R164: End inside or before a path makes DECODE raise TruncatedStream with CUR, the node the bits since the last byte lead
to (ROOT at a symbol boundary); the bytes before it stay written (U3, log entry 23), BIT_COUNT counts the bits read, and the tokens
after End are leftovers (rule R242; log entry 28). -/
def Obligations.DecodeTruncated : Prop :=
  ∀ (s : State) (bs : List Byte) (code : Byte → Path) (part : Path) (cur : NodeIdx) (rest : List BTok),
    s.treeValid = true → isLeaf s s.root = false → s.youtReady = .all →
    (∀ v ∈ bs, ∃ n, leads s s.root (code v) = some n ∧ isLeaf s n = true ∧ (nodeAt s n).sym = keySymbol (byteKey v)) →
    leads s s.root part = some cur → isLeaf s cur = false →
    s.bin = (bs.flatMap code ++ part).map BTok.bit ++ .endTok :: rest →
    exec .decode s = .next { s with
      bin := rest, binLeft := rest.length, yout := s.yout ++ bs
      bitCount := s.bitCount + BitVec.ofNat 64 (bs.flatMap code ++ part).length
      byteCount := s.byteCount + BitVec.ofNat 64 bs.length
      busy := false, done := true, err := true, errCode := 3#4, errInfo := BitVec.ofNat 32 cur.val, seq := .idle }

/-- Rule R162: at a single-leaf root DECODE reads no bit: it succeeds at PSEUDO_EOF, and raises InvalidTree with ROOT at any other
leaf symbol; in a tree of rule R47 that ROOT is 0. That BIN's tokens are then leftovers is the model's reading of R242 (log entry
28). -/
def Obligations.DecodeAtASingleLeaf : Prop :=
  ∀ s : State, s.treeValid = true → isLeaf s s.root = true →
    (TreeShape s → s.root = 0) ∧
    exec .decode s =
      if (nodeAt s s.root).sym = 256#9 then .next { s with binLeft := s.bin.length, busy := false, done := true, seq := .idle }
      else .next { s with
        binLeft := s.bin.length
        busy := false, done := true, err := true, errCode := 4#4, errInfo := BitVec.ofNat 32 s.root.val, seq := .idle }

/-- Rule R163: without a tree DECODE raises InvalidTree with 0xFFFFFFFF and reads no bit; at a leaf whose symbol is neither a byte
nor PSEUDO_EOF it raises InvalidTree with that node's index; a tree of rule R47 has no such leaf. The bytes before the second error,
and the counters that count exactly what was transferred, are exact as rule R205 says, though the host discards the bytes (U3: log
entry 23). The tokens it leaves are leftovers (rule R242), without a tree by the model's reading (log entry 28). -/
def Obligations.DecodeInvalidTree : Prop :=
  (∀ s : State, s.treeValid = false →
    exec .decode s = .next { s with
      binLeft := s.bin.length
      busy := false, done := true, err := true, errCode := 4#4, errInfo := 0xFFFFFFFF#32, seq := .idle }) ∧
  (∀ (s : State) (bs : List Byte) (code : Byte → Path) (p : Path) (n : NodeIdx) (rest : List BTok),
    s.treeValid = true → isLeaf s s.root = false → s.youtReady = .all →
    (∀ v ∈ bs, ∃ m, leads s s.root (code v) = some m ∧ isLeaf s m = true ∧ (nodeAt s m).sym = keySymbol (byteKey v)) →
    leads s s.root p = some n → isLeaf s n = true → 256 < (nodeAt s n).sym.toNat →
    s.bin = (bs.flatMap code ++ p).map BTok.bit ++ rest →
    exec .decode s = .next { s with
      bin := rest, binLeft := rest.length, yout := s.yout ++ bs
      bitCount := s.bitCount + BitVec.ofNat 64 (bs.flatMap code ++ p).length
      byteCount := s.byteCount + BitVec.ofNat 64 bs.length
      busy := false, done := true, err := true, errCode := 4#4, errInfo := BitVec.ofNat 32 n.val, seq := .idle }) ∧
  ∀ s : State, TreeShape s → ∀ n : NodeIdx, n.val < s.nodeCnt.val → isLeaf s n = true → (nodeAt s n).sym.toNat ≤ 256

/-- Without a PSEUDO_EOF key in the mapping no DECODE succeeds: it ends with an error or goes on waiting (rules R127, R164). -/
def Obligations.DecodeWithoutEofNeverSucceeds : Prop :=
  ∀ s : State, s.treeValid = true → TreeShape s → s.ft[eofKey] = none →
    ∃ t : State, exec .decode s = .next t ∧ ((t.seq = .idle ∧ t.err = true) ∨ (t.seq ≠ .idle ∧ t.busy = s.busy))

/-- The round trip (rule R165 b): the bits ENCODE writes for bytes under a code table of the tree, offered to DECODE with an equal
tree, give back exactly those bytes; what stands after them on BIN stays, as leftovers (rule R242; log entry 28). -/
def Obligations.EncodeDecodeRoundTrip : Prop :=
  ∀ (s u t : State) (bs : List Byte) (yrest : List YTok) (brest : List BTok),
    s.CodeOk → s.ctReady = true → TreeShape s → s.ft[eofKey].isSome = true → (∀ v ∈ bs, s.ft[byteKey v].isSome = true) →
    s.yin = bs.map YTok.byte ++ .endTok :: yrest → s.boutReady = .all →
    u.treeValid = true → u.nodeCnt = s.nodeCnt → u.root = s.root →
    (∀ n : NodeIdx, n.val < s.nodeCnt.val → nodeAt u n = nodeAt s n) →
    u.youtReady = .all → exec .encode s = .next t →
    ∃ payload : Path, t.bout = s.bout ++ payload ∧ t.seq = .idle ∧ t.err = s.err ∧
      (u.bin = payload.map BTok.bit ++ brest →
        exec .decode u = .next { u with
          bin := brest, binLeft := brest.length, yout := u.yout ++ bs
          bitCount := u.bitCount + BitVec.ofNat 64 payload.length
          byteCount := u.byteCount + BitVec.ofNat 64 bs.length
          busy := false, done := true, seq := .idle })

/-! ### HDR_WRITE and HDR_READ (46_header.md) -/

/-- HDR_WRITE writes the header of the mapping: one entry per key in ascending order, each number in plain decimal, the form of
rules R170 and R171; BYTE_COUNT counts the bytes and nothing else changes. -/
def Obligations.HdrWriteWritesTheHeader : Prop :=
  ∀ s : State, s.youtReady = .all →
    ∃ es : List HdrEntry, WritesMapping s.ft es ∧
      exec .hdrWrite s = .next { s with
        yout := s.yout ++ hdrText es, byteCount := s.byteCount + BitVec.ofNat 64 (hdrText es).length
        busy := false, done := true, seq := .idle }

/-- Rule R173: the header of a mapping with L ≥ 1 keys is 2 + Σ (digits(k) + 1 + digits(count)) + 2 (L - 1) bytes long, never more
than 4002, which 257 keys with the greatest count each have, and BYTE_COUNT after HDR_WRITE is that length. -/
def Obligations.HdrWriteLength : Prop :=
  ∀ s t : State, s.youtReady = .all → s.byteCount = 0#64 → keys s.ft ≠ [] → exec .hdrWrite s = .next t →
    ∃ text : List Byte, t.yout = s.yout ++ text ∧ t.byteCount = BitVec.ofNat 64 text.length ∧
      text.length = 2 + ((keys s.ft).map fun k =>
          max 1 (Nat.digits 10 k.val).length + 1 + max 1 (Nat.digits 10 (countOf s.ft k).toNat).length).sum
        + 2 * ((keys s.ft).length - 1) ∧
      text.length ≤ 4002 ∧
      ((∀ k : Key, s.ft[k] = some 4294967295#32) → text.length = 4002)

/-- HDR_READ of any header of the accepted grammar, leading zeros and keys in any order included: FT is the mapping the entries
write, BYTE_COUNT counts the bytes, the tokens after '}' stay as leftovers (rule R242; log entry 28), and the tree and code table are
gone (rules R180, R183). -/
def Obligations.HdrReadAcceptsHeaders : Prop :=
  ∀ (s : State) (es : List HdrEntry) (rest : List YTok), EntriesOk es → s.yin = (hdrText es).map YTok.byte ++ rest →
    exec .hdrRead s = .next { s with
      ft := mappingOf es, ct := Vector.replicate 257 none, treeValid := false, ctReady := false, nodeCnt := 0, root := 0
      byteCount := s.byteCount + BitVec.ofNat 64 (hdrText es).length, yin := rest, yinLeft := rest.length
      busy := false, done := true, seq := .idle }

/-- HDR_READ at each offence of rule R182: FT is emptied, MalformedHeader reports the position of the offending token (a position
that fits ERR_INFO), that token is consumed, what follows it is left over (rule R242; log entry 28), and End is not counted. -/
def Obligations.HdrReadReportsOffences : Prop :=
  ∀ (s : State) (pre : List Byte) (t : YTok) (rest : List YTok),
    Offence pre t → pre.length < 2 ^ 32 → s.yin = pre.map YTok.byte ++ t :: rest →
    exec .hdrRead s = .next { s with
      ft := Vector.replicate 257 none, ct := Vector.replicate 257 none
      treeValid := false, ctReady := false, nodeCnt := 0, root := 0
      byteCount := s.byteCount + BitVec.ofNat 64 (pre.length + if t = .endTok then 0 else 1), yin := rest, yinLeft := rest.length
      busy := false, done := true, err := true, errCode := 5#4, errInfo := BitVec.ofNat 32 pre.length, seq := .idle }

/-- HDR_READ does nothing else: it ends at an accepted header, at an offence, or waits for a token (rules R180, R182, R218). -/
def Obligations.HdrReadOutcomes : Prop :=
  ∀ s : State, ∃ t : State, exec .hdrRead s = .next t ∧
    ((∃ es rest, EntriesOk es ∧ s.yin = (hdrText es).map YTok.byte ++ rest ∧ t.yin = rest ∧ t.seq = .idle ∧ t.err = s.err) ∨
     (∃ pre tok rest, Offence pre tok ∧ s.yin = pre.map YTok.byte ++ tok :: rest ∧ t.yin = rest ∧ t.seq = .idle ∧ t.err = true) ∨
     (∃ bytes : List Byte, s.yin = bytes.map YTok.byte ∧ t.yin = [] ∧ t.seq ≠ .idle ∧ t.busy = s.busy))

/-- Rule R181: HDR_READ of the bytes HDR_WRITE writes for a mapping leaves an equal mapping. -/
def Obligations.HdrRoundTrip : Prop :=
  ∀ s t u : State, s.youtReady = .all → exec .hdrWrite s = .next t →
    ∃ text : List Byte, t.yout = s.yout ++ text ∧
      ∀ rest : List YTok, u.yin = text.map YTok.byte ++ rest →
        ∃ v : State, exec .hdrRead u = .next v ∧ v.ft = s.ft ∧ v.yin = rest ∧ v.seq = .idle ∧ v.err = u.err

/-! ### What commands leave alone -/

/-- No command writes OVR, CTRL, an index register or anything of the host's (rules R33, R38, R39, R46, R49). What counts as left
over on a port (log entry 28) only a command that reads the port writes. -/
def Obligations.CommandsLeaveHostRegisters : Prop :=
  ∀ (i : Instr) (s t : State), exec i s = .next t →
    t.ovr = s.ovr ∧ t.irqEn = s.irqEn ∧ t.ftIdx = s.ftIdx ∧ t.ctIdx = s.ctIdx ∧ t.nodeIdx = s.nodeIdx ∧
    t.rst = s.rst ∧ t.responses = s.responses ∧ t.host = s.host ∧ t.hold = s.hold ∧
    t.yinBack = s.yinBack ∧ t.binBack = s.binBack ∧
    (i ∉ [.freqCount, .encode, .hdrRead] → t.yinLeft = s.yinLeft) ∧ (i ≠ .decode → t.binLeft = s.binLeft)

/-- Who writes the tables and the two flags over them: FT only CLEAR, FREQ_COUNT and HDR_READ; NODE only BUILD_TREE; NODE_CNT, ROOT
and TREE_VALID those four; CT and CT_READY those four and GEN_CODES (rules R37, R40, R41, R43, R49). -/
def Obligations.TableWriters : Prop :=
  ∀ (i : Instr) (s t : State), exec i s = .next t →
    (i ∉ [.clear, .freqCount, .hdrRead] → t.ft = s.ft) ∧
    (i ≠ .buildTree → t.node = s.node) ∧
    (i ∉ [.clear, .freqCount, .hdrRead, .buildTree] →
      t.nodeCnt = s.nodeCnt ∧ t.root = s.root ∧ t.treeValid = s.treeValid) ∧
    (i ∉ [.clear, .freqCount, .hdrRead, .buildTree, .genCodes] → t.ct = s.ct ∧ t.ctReady = s.ctReady)

/-- Rule R69: the port use of each command. An input port it does not read keeps its tokens, one it reads loses some of the oldest;
an output port it does not write has nothing more, one it writes keeps what was sent and has more after it. -/
def Obligations.PortUse : Prop :=
  ∀ (i : Instr) (s t : State), exec i s = .next t →
    (if i ∈ [.freqCount, .encode, .hdrRead] then ∃ used, s.yin = used ++ t.yin else t.yin = s.yin) ∧
    (if i = .decode then ∃ used, s.bin = used ++ t.bin else t.bin = s.bin) ∧
    (if i ∈ [.decode, .hdrWrite] then ∃ sent, t.yout = s.yout ++ sent else t.yout = s.yout ∧ t.youtReady = s.youtReady) ∧
    (if i = .encode then ∃ sent, t.bout = s.bout ++ sent else t.bout = s.bout ∧ t.boutReady = s.boutReady)

/-- The error codes each command can end with; code 6 and the codes above 8 are nobody's (rules R200, R201). -/
def Obligations.ErrorCodesOfCommands : Prop :=
  ∀ (i : Instr) (s t : State), exec i s = .next t → s.err = false → t.err = true →
    (i = .buildTree ∧ t.errCode = 1#4) ∨ (i = .encode ∧ t.errCode = 2#4) ∨ (i = .decode ∧ (t.errCode = 3#4 ∨ t.errCode = 4#4)) ∨
    (i = .genCodes ∧ t.errCode = 4#4) ∨ (i = .hdrRead ∧ t.errCode = 5#4) ∨ (i = .freqCount ∧ t.errCode = 8#4)

/-! ### The register bus (10_state.md, 20_memory.md) -/

/-- Rule R60: an access of another width than 32 bits, or at an offset that is no multiple of 4, gets a bus error and changes
nothing else; the data beside a read's error is a free value, so nothing may rely on it. (While RST is asserted the access is
ignored, rule R230: see ResetAbandonsTheCommand.) -/
def Obligations.BadAccessIsABusError : Prop :=
  ∀ (s : State) (off : BitVec 7) (width : Width) (v : Word), s.rst = false → (width ≠ .w32 ∨ off.toNat % 4 ≠ 0) →
    busWrite off width v s = { s with responses := s.responses ++ [.writeError] } ∧
    busRead off width s = { s with
      responses := s.responses ++ [.readError (Config.freeWord s.freeCtr)], freeCtr := s.freeCtr + 1 }

/-- The registers without a window, as a 32-bit read at their offset answers while BUSY = 0 (rules R30, R34 to R37, R45, R63). -/
def Obligations.RegisterReads : Prop :=
  ∀ s : State, s.rst = false → s.busy = false →
    ∀ e ∈ ([(0x00#7, 0#32), (0x0C#7, s.errInfo),
        (0x10#7, s.bitCount.extractLsb' 0 32), (0x14#7, s.bitCount.extractLsb' 32 32),
        (0x18#7, s.byteCount.extractLsb' 0 32), (0x1C#7, s.byteCount.extractLsb' 32 32),
        (0x20#7, BitVec.ofNat 32 s.root.val), (0x24#7, BitVec.ofNat 32 s.nodeCnt.val),
        (0x28#7, s.ftIdx.setWidth 32), (0x34#7, s.ctIdx.setWidth 32), (0x60#7, s.nodeIdx.setWidth 32),
        (0x3C#7, 0x48554630#32), (0x78#7, 0#32), (0x7C#7, 0#32)] : List (BitVec 7 × Word)),
      busRead e.1 .w32 s = { s with responses := s.responses ++ [.value e.2] }

/-- STATUS (rule R32): each field at its bits, the reserved bits 0, and a write of 1 clears DONE, ERR or OVR, ERR with its code and
its word; nothing else. -/
def Obligations.StatusFieldsAndClears : Prop :=
  ∀ s : State, s.rst = false →
    busRead 0x04#7 .w32 s = { s with responses := s.responses ++ [.value (statusWord s)] } ∧
    (statusWord s).toNat = s.busy.toNat + 2 * s.done.toNat + 4 * s.err.toNat + 8 * s.ovr.toNat + 16 * s.treeValid.toNat
      + 32 * s.ctReady.toNat + 256 * s.errCode.toNat ∧
    ∀ v : Word, busWrite 0x04#7 .w32 v s = { s with
      done := if v.getLsbD 1 then false else s.done
      err := if v.getLsbD 2 then false else s.err
      ovr := if v.getLsbD 3 then false else s.ovr
      errCode := if v.getLsbD 2 then 0#4 else s.errCode
      errInfo := if v.getLsbD 2 then 0#32 else s.errInfo }

/-- CTRL and the index registers keep the low bits of a write at any time, CTRL reads IRQ_EN in bit 0 and 0 elsewhere; a write of a
read-only register or of an unmapped offset changes nothing (rules R30, R33, R38, R39, R46, R63). -/
def Obligations.WritesOfTheOtherRegisters : Prop :=
  ∀ (s : State) (v : Word), s.rst = false →
    busWrite 0x08#7 .w32 v s = { s with irqEn := v.getLsbD 0 } ∧
    (∃ r : Word, busRead 0x08#7 .w32 s = { s with responses := s.responses ++ [.value r] } ∧ r.toNat = s.irqEn.toNat) ∧
    busWrite 0x28#7 .w32 v s = { s with ftIdx := v.extractLsb' 0 9 } ∧
    busWrite 0x34#7 .w32 v s = { s with ctIdx := v.extractLsb' 0 9 } ∧
    busWrite 0x60#7 .w32 v s = { s with nodeIdx := v.extractLsb' 0 10 } ∧
    ∀ off : BitVec 7, off.toNat % 4 = 0 → off ∉ [0x00#7, 0x04#7, 0x08#7, 0x28#7, 0x34#7, 0x60#7] → busWrite off .w32 v s = s

/-- Rule R38, the FT window: FT_IDX keeps bits 8:0, FT_COUNT and FT_PRES read the entry, and 0 for an absent entry or an index above
256. -/
def Obligations.FrequencyTableWindow : Prop :=
  ∀ s : State, s.rst = false →
    (∀ v : Word, busWrite 0x28#7 .w32 v s = { s with ftIdx := v.extractLsb' 0 9 }) ∧
    (s.busy = false →
      ∃ count pres : Word,
        busRead 0x2C#7 .w32 s = { s with responses := s.responses ++ [.value count] } ∧
        busRead 0x30#7 .w32 s = { s with responses := s.responses ++ [.value pres] } ∧
        (256 < s.ftIdx.toNat → count = 0#32 ∧ pres = 0#32) ∧
        ∀ k : Key, k.val = s.ftIdx.toNat →
          (s.ft[k] = none → count = 0#32 ∧ pres = 0#32) ∧ ∀ c, s.ft[k] = some c → count = c ∧ pres = 1#32)

/-- Rule R39, the CT window: CT_LEN has bit 31 and the length of a valid entry, and bit j of CT_WORDk is code bit 32k + j below the
length; all read 0 for an invalid entry or an index above 256. -/
def Obligations.CodeTableWindow : Prop :=
  ∀ s : State, s.rst = false →
    (∀ v : Word, busWrite 0x34#7 .w32 v s = { s with ctIdx := v.extractLsb' 0 9 }) ∧
    (s.busy = false → s.CodeOk →
      ∃ (len : Word) (word : Fin 8 → Word),
        busRead 0x38#7 .w32 s = { s with responses := s.responses ++ [.value len] } ∧
        (∀ k : Fin 8, busRead (BitVec.ofNat 7 (0x40 + 4 * k.val)) .w32 s = { s with responses := s.responses ++ [.value (word k)] }) ∧
        (256 < s.ctIdx.toNat → len = 0#32 ∧ ∀ k, word k = 0#32) ∧
        ∀ i : Key, i.val = s.ctIdx.toNat →
          (s.ct[i] = none → len = 0#32 ∧ ∀ k, word k = 0#32) ∧
          ∀ c, s.ct[i] = some c →
            len.toNat = 2 ^ 31 + c.length ∧
            ∀ (k : Fin 8) (j : Nat), j < 32 → (word k).getLsbD j = c.getD (32 * k.val + j) false)

/-- Rule R46, the node window: the five fields of NODE[NODE_IDX] below NODE_CNT, and 0 at NODE_CNT and above. -/
def Obligations.NodeWindow : Prop :=
  ∀ s : State, s.rst = false →
    (∀ v : Word, busWrite 0x60#7 .w32 v s = { s with nodeIdx := v.extractLsb' 0 10 }) ∧
    (s.busy = false →
      ∃ info zero one lo hi : Word,
        busRead 0x64#7 .w32 s = { s with responses := s.responses ++ [.value info] } ∧
        busRead 0x68#7 .w32 s = { s with responses := s.responses ++ [.value zero] } ∧
        busRead 0x6C#7 .w32 s = { s with responses := s.responses ++ [.value one] } ∧
        busRead 0x70#7 .w32 s = { s with responses := s.responses ++ [.value lo] } ∧
        busRead 0x74#7 .w32 s = { s with responses := s.responses ++ [.value hi] } ∧
        (s.nodeCnt.val ≤ s.nodeIdx.toNat → info = 0#32 ∧ zero = 0#32 ∧ one = 0#32 ∧ lo = 0#32 ∧ hi = 0#32) ∧
        ∀ n : NodeIdx, n.val = s.nodeIdx.toNat → n.val < s.nodeCnt.val →
          info.toNat = 2 ^ 31 * (nodeAt s n).leaf.toNat + (nodeAt s n).sym.toNat ∧
          zero.toNat = (nodeAt s n).zero.val ∧ one.toNat = (nodeAt s n).one.val ∧
          2 ^ 32 * hi.toNat + lo.toNat = (nodeAt s n).weight.toNat ∧ hi.toNat < 2 ^ 9)

/-- Rule R74: while BUSY = 1 a read of ERR_INFO, a counter, ROOT, NODE_CNT or a window answers a free value and changes nothing else;
STATUS, CTRL, ID and the index registers read exactly at all times, and a write of CTRL or of an index register takes effect at once
and disturbs no command. -/
def Obligations.ReadsAndWritesWhileBusy : Prop :=
  ∀ s : State, s.rst = false →
    (s.busy = true → ∀ off : BitVec 7, off.toNat % 4 = 0 →
      off ∉ [0x00#7, 0x04#7, 0x08#7, 0x28#7, 0x34#7, 0x3C#7, 0x60#7, 0x78#7, 0x7C#7] →
      busRead off .w32 s = { s with
        responses := s.responses ++ [.value (Config.freeWord s.freeCtr)], freeCtr := s.freeCtr + 1 }) ∧
    (∀ e ∈ ([(0x04#7, statusWord s), (0x08#7, ctrlWord s), (0x3C#7, 0x48554630#32),
        (0x28#7, s.ftIdx.setWidth 32), (0x34#7, s.ctIdx.setWidth 32), (0x60#7, s.nodeIdx.setWidth 32)] : List (BitVec 7 × Word)),
      busRead e.1 .w32 s = { s with responses := s.responses ++ [.value e.2] }) ∧
    ∀ v : Word,
      busWrite 0x08#7 .w32 v s = { s with irqEn := v.getLsbD 0 } ∧
      busWrite 0x28#7 .w32 v s = { s with ftIdx := v.extractLsb' 0 9 } ∧
      busWrite 0x34#7 .w32 v s = { s with ctIdx := v.extractLsb' 0 9 } ∧
      busWrite 0x60#7 .w32 v s = { s with nodeIdx := v.extractLsb' 0 10 }

/-- The interrupt output (rule R210): IRQ is IRQ_EN and DONE, 0 at reset; a command's end raises it where IRQ_EN = 1, and it is
cleared by writing 1 to DONE and by the next accept. -/
def Obligations.InterruptFollowsDone : Prop :=
  irq State.reset = false ∧
  (∀ s : State, irq s = true ↔ s.irqEn = true ∧ s.done = true) ∧
  (∀ (i : Instr) (s t : State), exec i s = .next t → t.seq = .idle → irq t = s.irqEn) ∧
  (∀ (s : State) (v : Word), s.rst = false → v.getLsbD 1 = true → irq (busWrite 0x04#7 .w32 v s) = false) ∧
  (∀ (s : State) (v : Word), s.rst = false → s.busy = false → irq (busWrite 0x00#7 .w32 v s) = false)

/-! ### Reset (70_reset_and_hazards.md) -/

/-- Rule R50: the reset value of every piece of state the rule gives a value. -/
def Obligations.ResetValues : Prop :=
  statusWord State.reset = 0#32 ∧ State.reset.irqEn = false ∧ State.reset.errInfo = 0#32 ∧
  State.reset.bitCount = 0#64 ∧ State.reset.byteCount = 0#64 ∧ State.reset.root = 0 ∧ State.reset.nodeCnt = 0 ∧
  State.reset.ftIdx = 0#9 ∧ State.reset.ctIdx = 0#9 ∧ State.reset.nodeIdx = 0#10 ∧
  (∀ k : Key, State.reset.ft[k] = none) ∧
  (∀ n : NodeIdx, nodeAt State.reset n = { leaf := false, sym := 0#9, weight := 0#41, zero := 0, one := 0 }) ∧
  (∀ k : Key, State.reset.ct[k] = none) ∧
  State.reset.pq = [] ∧ State.reset.seq = .idle ∧ irq State.reset = false ∧
  busRead 0x3C#7 .w32 State.reset = { State.reset with responses := [.value 0x48554630#32] }

/-- The reset event (rule R230): asserting RST and releasing it give every piece of the codec's state its reset value, whatever ran;
tokens already transferred stay transferred; while RST is asserted a bus write does nothing and a read answers 0. Leftover tokens
(rule R242): asserting RST, and the host's drain of a port where no command runs, hand back to the host the leftovers of ended
commands, which stand first on the port, and withdraw nothing offered since (rule R247). The model's own readings and choices here,
not the rules': what the host accepts stays (log entry 3); the free values go on (entry 4); a bad access is ignored too (entry 5);
RST hands back leftovers alone, none of a port the abandoned command was reading, and releasing it leaves the ports (entry 6);
asserting an RST that is asserted is a reset again (entry 7); the traversal stack is empty (entry 10); the drain, what it counts as
left over, and that it does nothing while a command runs (entry 28). -/
def Obligations.ResetAbandonsTheCommand : Prop :=
  (∀ (s : State) (rest : List HostMove), s.hold = 0 → s.host = .assertRst :: rest →
    step s = .next { State.reset with
      yin := s.yin.drop (leftYin s), bin := s.bin.drop (leftBin s), yinLeft := 0, binLeft := 0
      yinBack := s.yinBack ++ s.yin.take (leftYin s), binBack := s.binBack ++ s.bin.take (leftBin s)
      yout := s.yout, bout := s.bout, youtReady := s.youtReady, boutReady := s.boutReady
      rst := true, responses := s.responses, host := rest, freeCtr := s.freeCtr }) ∧
  (∀ (s : State) (rest : List HostMove), s.rst = true → s.hold = 0 → s.host = .releaseRst :: rest →
    step s = .next { State.reset with
      yin := s.yin, bin := s.bin, yinLeft := s.yinLeft, binLeft := s.binLeft, yinBack := s.yinBack, binBack := s.binBack
      yout := s.yout, bout := s.bout, youtReady := s.youtReady, boutReady := s.boutReady
      rst := false, responses := s.responses, host := rest, freeCtr := s.freeCtr }) ∧
  (∀ (s : State) (off : BitVec 7) (width : Width) (v : Word), s.rst = true →
    busWrite off width v s = s ∧ busRead off width s = { s with responses := s.responses ++ [.value 0#32] }) ∧
  (∀ s : State,
    hostMove .drainYin s = (if s.busy then s else { s with
      yin := s.yin.drop s.yinLeft, yinLeft := 0, yinBack := s.yinBack ++ s.yin.take s.yinLeft }) ∧
    hostMove .drainBin s = (if s.busy then s else { s with
      bin := s.bin.drop s.binLeft, binLeft := 0, binBack := s.binBack ++ s.bin.take s.binLeft })) ∧
  (∀ s : State,
    (s.seq = .idle → leftYin s = s.yinLeft ∧ leftBin s = s.binLeft) ∧
    (s.seq = .freqCount ∨ (∃ p pl, s.seq = .hdrRead p pl) ∨ s.seq = .encodeRead ∨ (∃ bits, s.seq = .encodeEmit bits false) →
      leftYin s = 0 ∧ leftBin s = s.binLeft) ∧
    ((∃ n, s.seq = .decodeRead n) ∨ (∃ n, s.seq = .decodeWrite n) → leftYin s = s.yinLeft ∧ leftBin s = 0)) ∧
  ∀ (s : State) (y : List YTok) (b : List BTok), s.PortsOk →
    (s.seq = .idle → (∃ kept, (hostMove .drainYin { s with yin := s.yin ++ y }).yin = kept ++ y) ∧
      ∃ kept, (hostMove .drainBin { s with bin := s.bin ++ b }).bin = kept ++ b) ∧
    (∃ kept, (hostMove .assertRst { s with yin := s.yin ++ y }).yin = kept ++ y) ∧
    ∃ kept, (hostMove .assertRst { s with bin := s.bin ++ b }).bin = kept ++ b

/-- What the commands do right after reset (rule R232): BUILD_TREE raises InvalidInput, GEN_CODES and DECODE raise InvalidTree,
ENCODE raises UnknownSymbol at its first lookup, and HDR_WRITE writes two braces. That HDR_WRITE comes to its end rests on the host
accepting every byte at reset: rule R86 and the model's choice (log entry 3). What ENCODE leaves on YIN is a leftover (rule R242; log
entry 28). -/
def Obligations.CommandsRightAfterReset : Prop :=
  exec .buildTree State.reset = .next { State.reset with done := true, err := true, errCode := 1#4 } ∧
  (∀ i ∈ [Instr.genCodes, Instr.decode], exec i State.reset =
    .next { State.reset with done := true, err := true, errCode := 4#4, errInfo := 0xFFFFFFFF#32 }) ∧
  (∀ (v : Byte) (rest : List YTok), exec .encode { State.reset with yin := .byte v :: rest } =
    .next { State.reset with
      yin := rest, yinLeft := rest.length, byteCount := 1#64, done := true, err := true, errCode := 2#4, errInfo := v.setWidth 32 }) ∧
  (∀ rest : List YTok, exec .encode { State.reset with yin := .endTok :: rest } =
    .next { State.reset with yin := rest, yinLeft := rest.length, done := true, err := true, errCode := 2#4, errInfo := 256#32 }) ∧
  exec .hdrWrite State.reset = .next { State.reset with yout := [0x7B#8, 0x7D#8], byteCount := 2#64, done := true }

/-! ### Invariants -/

/-- The reset state is sound: the control invariant (rules R22, R34, R42, R200, R201, R217, R230), the tree invariant (rule R47), the
code table invariant (rule R48), the place of the running command, and the leftovers of the input ports (rule R242; log entry 28). That
the traversal stack is empty at reset is the model's choice (log entry 10). -/
def Obligations.ResetIsSound : Prop := State.reset.Sound

/-- Every step keeps the control invariant, from any state that has it: BUSY is 1 exactly while the sequencer runs, PQ and the
traversal stack are empty, the report agrees with BUSY, DONE and ERR, ERR_CODE is none of the reserved codes, and RST holds the
codec at its reset values (rules R22, R34, R42, R200, R201, R217, R230). That the traversal stack is empty between commands is the
model's choice (log entry 10). -/
def Obligations.StepKeepsControl : Prop :=
  ∀ s t : State, s.ControlOk → step s = .next t → t.ControlOk

/-- Every step keeps a sound state sound: the control invariant (rules R22, R34, R42, R200, R201, R217, R230), the tree invariant (rule
R47), the code table invariant (rule R48), the place of the running command (rule R161), and that the leftovers of a port no command
is reading are among its tokens (rule R242; log entry 28). That the traversal stack is empty between commands is the model's choice
(log entry 10). -/
def Obligations.StepKeepsSound : Prop :=
  ∀ s t : State, s.Sound → step s = .next t → t.Sound

/-- From a sound state the machine goes on: no step faults or refuses (rules R81, R143, R201). -/
def Obligations.SoundStepGoesOn : Prop :=
  ∀ s : State, s.Sound → ∃ t : State, step s = .next t

/-- Rule R48: in a sound state with CT_READY = 1 there is a tree, exactly the keys of FT have a code, each code is its leaf's path,
no code is a prefix of another, and with two keys or more no code is empty. -/
def Obligations.CodeTableIsPrefixFree : Prop :=
  ∀ s : State, s.Sound → s.ctReady = true →
    s.treeValid = true ∧
    (∀ k : Key, s.ct[k].isSome = s.ft[k].isSome) ∧
    (∀ k : Key, ∀ c, s.ct[k] = some c → IsCodeOf s k c) ∧
    (∀ j k : Key, ∀ c d, j ≠ k → s.ct[j] = some c → s.ct[k] = some d → ¬ c <+: d) ∧
    (2 ≤ (keys s.ft).length → ∀ k : Key, ∀ c, s.ct[k] = some c → c ≠ [])
end

