-- ==== Sys2Proof/Laws/State.lean ====
section
/-! SUPPORT. One lemma per field per named update of State, each true by definition: what the update writes and what it leaves.
Later proofs rewrite with these and unfold no record update. -/

namespace Sys2Proof.Machine

open Sys2Proof

/-! ### accept -/

@[simp] theorem accept_busy (w : Word) (s : State) : (accept w s).busy = true := rfl
@[simp] theorem accept_done (w : Word) (s : State) : (accept w s).done = false := rfl
@[simp] theorem accept_err (w : Word) (s : State) : (accept w s).err = false := rfl
@[simp] theorem accept_ovr (w : Word) (s : State) : (accept w s).ovr = s.ovr := rfl
@[simp] theorem accept_treeValid (w : Word) (s : State) : (accept w s).treeValid = s.treeValid := rfl
@[simp] theorem accept_ctReady (w : Word) (s : State) : (accept w s).ctReady = s.ctReady := rfl
@[simp] theorem accept_errCode (w : Word) (s : State) : (accept w s).errCode = 0#4 := rfl
@[simp] theorem accept_irqEn (w : Word) (s : State) : (accept w s).irqEn = s.irqEn := rfl
@[simp] theorem accept_errInfo (w : Word) (s : State) : (accept w s).errInfo = 0#32 := rfl
@[simp] theorem accept_bitCount (w : Word) (s : State) : (accept w s).bitCount = 0#64 := rfl
@[simp] theorem accept_byteCount (w : Word) (s : State) : (accept w s).byteCount = 0#64 := rfl
@[simp] theorem accept_root (w : Word) (s : State) : (accept w s).root = s.root := rfl
@[simp] theorem accept_nodeCnt (w : Word) (s : State) : (accept w s).nodeCnt = s.nodeCnt := rfl
@[simp] theorem accept_ftIdx (w : Word) (s : State) : (accept w s).ftIdx = s.ftIdx := rfl
@[simp] theorem accept_ctIdx (w : Word) (s : State) : (accept w s).ctIdx = s.ctIdx := rfl
@[simp] theorem accept_nodeIdx (w : Word) (s : State) : (accept w s).nodeIdx = s.nodeIdx := rfl
@[simp] theorem accept_ft (w : Word) (s : State) : (accept w s).ft = s.ft := rfl
@[simp] theorem accept_node (w : Word) (s : State) : (accept w s).node = s.node := rfl
@[simp] theorem accept_pq (w : Word) (s : State) : (accept w s).pq = s.pq := rfl
@[simp] theorem accept_ct (w : Word) (s : State) : (accept w s).ct = s.ct := rfl
@[simp] theorem accept_walk (w : Word) (s : State) : (accept w s).walk = s.walk := rfl
@[simp] theorem accept_seq (w : Word) (s : State) : (accept w s).seq = .accepted w := rfl
@[simp] theorem accept_yin (w : Word) (s : State) : (accept w s).yin = s.yin := rfl
@[simp] theorem accept_bin (w : Word) (s : State) : (accept w s).bin = s.bin := rfl
@[simp] theorem accept_yinLeft (w : Word) (s : State) : (accept w s).yinLeft = s.yinLeft := rfl
@[simp] theorem accept_binLeft (w : Word) (s : State) : (accept w s).binLeft = s.binLeft := rfl
@[simp] theorem accept_yinBack (w : Word) (s : State) : (accept w s).yinBack = s.yinBack := rfl
@[simp] theorem accept_binBack (w : Word) (s : State) : (accept w s).binBack = s.binBack := rfl
@[simp] theorem accept_yout (w : Word) (s : State) : (accept w s).yout = s.yout := rfl
@[simp] theorem accept_bout (w : Word) (s : State) : (accept w s).bout = s.bout := rfl
@[simp] theorem accept_youtReady (w : Word) (s : State) : (accept w s).youtReady = s.youtReady := rfl
@[simp] theorem accept_boutReady (w : Word) (s : State) : (accept w s).boutReady = s.boutReady := rfl
@[simp] theorem accept_rst (w : Word) (s : State) : (accept w s).rst = s.rst := rfl
@[simp] theorem accept_responses (w : Word) (s : State) : (accept w s).responses = s.responses := rfl
@[simp] theorem accept_host (w : Word) (s : State) : (accept w s).host = s.host := rfl
@[simp] theorem accept_hold (w : Word) (s : State) : (accept w s).hold = s.hold := rfl
@[simp] theorem accept_freeCtr (w : Word) (s : State) : (accept w s).freeCtr = s.freeCtr := rfl

/-! ### dropCommand -/

@[simp] theorem dropCommand_busy (s : State) : (dropCommand s).busy = s.busy := rfl
@[simp] theorem dropCommand_done (s : State) : (dropCommand s).done = s.done := rfl
@[simp] theorem dropCommand_err (s : State) : (dropCommand s).err = s.err := rfl
@[simp] theorem dropCommand_ovr (s : State) : (dropCommand s).ovr = true := rfl
@[simp] theorem dropCommand_treeValid (s : State) : (dropCommand s).treeValid = s.treeValid := rfl
@[simp] theorem dropCommand_ctReady (s : State) : (dropCommand s).ctReady = s.ctReady := rfl
@[simp] theorem dropCommand_errCode (s : State) : (dropCommand s).errCode = s.errCode := rfl
@[simp] theorem dropCommand_irqEn (s : State) : (dropCommand s).irqEn = s.irqEn := rfl
@[simp] theorem dropCommand_errInfo (s : State) : (dropCommand s).errInfo = s.errInfo := rfl
@[simp] theorem dropCommand_bitCount (s : State) : (dropCommand s).bitCount = s.bitCount := rfl
@[simp] theorem dropCommand_byteCount (s : State) : (dropCommand s).byteCount = s.byteCount := rfl
@[simp] theorem dropCommand_root (s : State) : (dropCommand s).root = s.root := rfl
@[simp] theorem dropCommand_nodeCnt (s : State) : (dropCommand s).nodeCnt = s.nodeCnt := rfl
@[simp] theorem dropCommand_ftIdx (s : State) : (dropCommand s).ftIdx = s.ftIdx := rfl
@[simp] theorem dropCommand_ctIdx (s : State) : (dropCommand s).ctIdx = s.ctIdx := rfl
@[simp] theorem dropCommand_nodeIdx (s : State) : (dropCommand s).nodeIdx = s.nodeIdx := rfl
@[simp] theorem dropCommand_ft (s : State) : (dropCommand s).ft = s.ft := rfl
@[simp] theorem dropCommand_node (s : State) : (dropCommand s).node = s.node := rfl
@[simp] theorem dropCommand_pq (s : State) : (dropCommand s).pq = s.pq := rfl
@[simp] theorem dropCommand_ct (s : State) : (dropCommand s).ct = s.ct := rfl
@[simp] theorem dropCommand_walk (s : State) : (dropCommand s).walk = s.walk := rfl
@[simp] theorem dropCommand_seq (s : State) : (dropCommand s).seq = s.seq := rfl
@[simp] theorem dropCommand_yin (s : State) : (dropCommand s).yin = s.yin := rfl
@[simp] theorem dropCommand_bin (s : State) : (dropCommand s).bin = s.bin := rfl
@[simp] theorem dropCommand_yinLeft (s : State) : (dropCommand s).yinLeft = s.yinLeft := rfl
@[simp] theorem dropCommand_binLeft (s : State) : (dropCommand s).binLeft = s.binLeft := rfl
@[simp] theorem dropCommand_yinBack (s : State) : (dropCommand s).yinBack = s.yinBack := rfl
@[simp] theorem dropCommand_binBack (s : State) : (dropCommand s).binBack = s.binBack := rfl
@[simp] theorem dropCommand_yout (s : State) : (dropCommand s).yout = s.yout := rfl
@[simp] theorem dropCommand_bout (s : State) : (dropCommand s).bout = s.bout := rfl
@[simp] theorem dropCommand_youtReady (s : State) : (dropCommand s).youtReady = s.youtReady := rfl
@[simp] theorem dropCommand_boutReady (s : State) : (dropCommand s).boutReady = s.boutReady := rfl
@[simp] theorem dropCommand_rst (s : State) : (dropCommand s).rst = s.rst := rfl
@[simp] theorem dropCommand_responses (s : State) : (dropCommand s).responses = s.responses := rfl
@[simp] theorem dropCommand_host (s : State) : (dropCommand s).host = s.host := rfl
@[simp] theorem dropCommand_hold (s : State) : (dropCommand s).hold = s.hold := rfl
@[simp] theorem dropCommand_freeCtr (s : State) : (dropCommand s).freeCtr = s.freeCtr := rfl

/-! ### finish -/

@[simp] theorem finish_busy (s : State) : (finish s).busy = false := rfl
@[simp] theorem finish_done (s : State) : (finish s).done = true := rfl
@[simp] theorem finish_err (s : State) : (finish s).err = s.err := rfl
@[simp] theorem finish_ovr (s : State) : (finish s).ovr = s.ovr := rfl
@[simp] theorem finish_treeValid (s : State) : (finish s).treeValid = s.treeValid := rfl
@[simp] theorem finish_ctReady (s : State) : (finish s).ctReady = s.ctReady := rfl
@[simp] theorem finish_errCode (s : State) : (finish s).errCode = s.errCode := rfl
@[simp] theorem finish_irqEn (s : State) : (finish s).irqEn = s.irqEn := rfl
@[simp] theorem finish_errInfo (s : State) : (finish s).errInfo = s.errInfo := rfl
@[simp] theorem finish_bitCount (s : State) : (finish s).bitCount = s.bitCount := rfl
@[simp] theorem finish_byteCount (s : State) : (finish s).byteCount = s.byteCount := rfl
@[simp] theorem finish_root (s : State) : (finish s).root = s.root := rfl
@[simp] theorem finish_nodeCnt (s : State) : (finish s).nodeCnt = s.nodeCnt := rfl
@[simp] theorem finish_ftIdx (s : State) : (finish s).ftIdx = s.ftIdx := rfl
@[simp] theorem finish_ctIdx (s : State) : (finish s).ctIdx = s.ctIdx := rfl
@[simp] theorem finish_nodeIdx (s : State) : (finish s).nodeIdx = s.nodeIdx := rfl
@[simp] theorem finish_ft (s : State) : (finish s).ft = s.ft := rfl
@[simp] theorem finish_node (s : State) : (finish s).node = s.node := rfl
@[simp] theorem finish_pq (s : State) : (finish s).pq = s.pq := rfl
@[simp] theorem finish_ct (s : State) : (finish s).ct = s.ct := rfl
@[simp] theorem finish_walk (s : State) : (finish s).walk = s.walk := rfl
@[simp] theorem finish_seq (s : State) : (finish s).seq = .idle := rfl
@[simp] theorem finish_yin (s : State) : (finish s).yin = s.yin := rfl
@[simp] theorem finish_bin (s : State) : (finish s).bin = s.bin := rfl
@[simp] theorem finish_yinLeft (s : State) : (finish s).yinLeft = s.yinLeft := rfl
@[simp] theorem finish_binLeft (s : State) : (finish s).binLeft = s.binLeft := rfl
@[simp] theorem finish_yinBack (s : State) : (finish s).yinBack = s.yinBack := rfl
@[simp] theorem finish_binBack (s : State) : (finish s).binBack = s.binBack := rfl
@[simp] theorem finish_yout (s : State) : (finish s).yout = s.yout := rfl
@[simp] theorem finish_bout (s : State) : (finish s).bout = s.bout := rfl
@[simp] theorem finish_youtReady (s : State) : (finish s).youtReady = s.youtReady := rfl
@[simp] theorem finish_boutReady (s : State) : (finish s).boutReady = s.boutReady := rfl
@[simp] theorem finish_rst (s : State) : (finish s).rst = s.rst := rfl
@[simp] theorem finish_responses (s : State) : (finish s).responses = s.responses := rfl
@[simp] theorem finish_host (s : State) : (finish s).host = s.host := rfl
@[simp] theorem finish_hold (s : State) : (finish s).hold = s.hold := rfl
@[simp] theorem finish_freeCtr (s : State) : (finish s).freeCtr = s.freeCtr := rfl

/-! ### raise -/

@[simp] theorem raise_busy (e : ErrKind) (i : Word) (s : State) : (raise e i s).busy = false := rfl
@[simp] theorem raise_done (e : ErrKind) (i : Word) (s : State) : (raise e i s).done = true := rfl
@[simp] theorem raise_err (e : ErrKind) (i : Word) (s : State) : (raise e i s).err = true := rfl
@[simp] theorem raise_ovr (e : ErrKind) (i : Word) (s : State) : (raise e i s).ovr = s.ovr := rfl
@[simp] theorem raise_treeValid (e : ErrKind) (i : Word) (s : State) : (raise e i s).treeValid = s.treeValid := rfl
@[simp] theorem raise_ctReady (e : ErrKind) (i : Word) (s : State) : (raise e i s).ctReady = s.ctReady := rfl
@[simp] theorem raise_errCode (e : ErrKind) (i : Word) (s : State) : (raise e i s).errCode = e.code := rfl
@[simp] theorem raise_irqEn (e : ErrKind) (i : Word) (s : State) : (raise e i s).irqEn = s.irqEn := rfl
@[simp] theorem raise_errInfo (e : ErrKind) (i : Word) (s : State) : (raise e i s).errInfo = i := rfl
@[simp] theorem raise_bitCount (e : ErrKind) (i : Word) (s : State) : (raise e i s).bitCount = s.bitCount := rfl
@[simp] theorem raise_byteCount (e : ErrKind) (i : Word) (s : State) : (raise e i s).byteCount = s.byteCount := rfl
@[simp] theorem raise_root (e : ErrKind) (i : Word) (s : State) : (raise e i s).root = s.root := rfl
@[simp] theorem raise_nodeCnt (e : ErrKind) (i : Word) (s : State) : (raise e i s).nodeCnt = s.nodeCnt := rfl
@[simp] theorem raise_ftIdx (e : ErrKind) (i : Word) (s : State) : (raise e i s).ftIdx = s.ftIdx := rfl
@[simp] theorem raise_ctIdx (e : ErrKind) (i : Word) (s : State) : (raise e i s).ctIdx = s.ctIdx := rfl
@[simp] theorem raise_nodeIdx (e : ErrKind) (i : Word) (s : State) : (raise e i s).nodeIdx = s.nodeIdx := rfl
@[simp] theorem raise_ft (e : ErrKind) (i : Word) (s : State) : (raise e i s).ft = s.ft := rfl
@[simp] theorem raise_node (e : ErrKind) (i : Word) (s : State) : (raise e i s).node = s.node := rfl
@[simp] theorem raise_pq (e : ErrKind) (i : Word) (s : State) : (raise e i s).pq = s.pq := rfl
@[simp] theorem raise_ct (e : ErrKind) (i : Word) (s : State) : (raise e i s).ct = s.ct := rfl
@[simp] theorem raise_walk (e : ErrKind) (i : Word) (s : State) : (raise e i s).walk = s.walk := rfl
@[simp] theorem raise_seq (e : ErrKind) (i : Word) (s : State) : (raise e i s).seq = .idle := rfl
@[simp] theorem raise_yin (e : ErrKind) (i : Word) (s : State) : (raise e i s).yin = s.yin := rfl
@[simp] theorem raise_bin (e : ErrKind) (i : Word) (s : State) : (raise e i s).bin = s.bin := rfl
@[simp] theorem raise_yinLeft (e : ErrKind) (i : Word) (s : State) : (raise e i s).yinLeft = s.yinLeft := rfl
@[simp] theorem raise_binLeft (e : ErrKind) (i : Word) (s : State) : (raise e i s).binLeft = s.binLeft := rfl
@[simp] theorem raise_yinBack (e : ErrKind) (i : Word) (s : State) : (raise e i s).yinBack = s.yinBack := rfl
@[simp] theorem raise_binBack (e : ErrKind) (i : Word) (s : State) : (raise e i s).binBack = s.binBack := rfl
@[simp] theorem raise_yout (e : ErrKind) (i : Word) (s : State) : (raise e i s).yout = s.yout := rfl
@[simp] theorem raise_bout (e : ErrKind) (i : Word) (s : State) : (raise e i s).bout = s.bout := rfl
@[simp] theorem raise_youtReady (e : ErrKind) (i : Word) (s : State) : (raise e i s).youtReady = s.youtReady := rfl
@[simp] theorem raise_boutReady (e : ErrKind) (i : Word) (s : State) : (raise e i s).boutReady = s.boutReady := rfl
@[simp] theorem raise_rst (e : ErrKind) (i : Word) (s : State) : (raise e i s).rst = s.rst := rfl
@[simp] theorem raise_responses (e : ErrKind) (i : Word) (s : State) : (raise e i s).responses = s.responses := rfl
@[simp] theorem raise_host (e : ErrKind) (i : Word) (s : State) : (raise e i s).host = s.host := rfl
@[simp] theorem raise_hold (e : ErrKind) (i : Word) (s : State) : (raise e i s).hold = s.hold := rfl
@[simp] theorem raise_freeCtr (e : ErrKind) (i : Word) (s : State) : (raise e i s).freeCtr = s.freeCtr := rfl

/-! ### clearFt -/

@[simp] theorem clearFt_busy (s : State) : (clearFt s).busy = s.busy := rfl
@[simp] theorem clearFt_done (s : State) : (clearFt s).done = s.done := rfl
@[simp] theorem clearFt_err (s : State) : (clearFt s).err = s.err := rfl
@[simp] theorem clearFt_ovr (s : State) : (clearFt s).ovr = s.ovr := rfl
@[simp] theorem clearFt_treeValid (s : State) : (clearFt s).treeValid = s.treeValid := rfl
@[simp] theorem clearFt_ctReady (s : State) : (clearFt s).ctReady = s.ctReady := rfl
@[simp] theorem clearFt_errCode (s : State) : (clearFt s).errCode = s.errCode := rfl
@[simp] theorem clearFt_irqEn (s : State) : (clearFt s).irqEn = s.irqEn := rfl
@[simp] theorem clearFt_errInfo (s : State) : (clearFt s).errInfo = s.errInfo := rfl
@[simp] theorem clearFt_bitCount (s : State) : (clearFt s).bitCount = s.bitCount := rfl
@[simp] theorem clearFt_byteCount (s : State) : (clearFt s).byteCount = s.byteCount := rfl
@[simp] theorem clearFt_root (s : State) : (clearFt s).root = s.root := rfl
@[simp] theorem clearFt_nodeCnt (s : State) : (clearFt s).nodeCnt = s.nodeCnt := rfl
@[simp] theorem clearFt_ftIdx (s : State) : (clearFt s).ftIdx = s.ftIdx := rfl
@[simp] theorem clearFt_ctIdx (s : State) : (clearFt s).ctIdx = s.ctIdx := rfl
@[simp] theorem clearFt_nodeIdx (s : State) : (clearFt s).nodeIdx = s.nodeIdx := rfl
@[simp] theorem clearFt_ft (s : State) : (clearFt s).ft = Vector.replicate 257 none := rfl
@[simp] theorem clearFt_node (s : State) : (clearFt s).node = s.node := rfl
@[simp] theorem clearFt_pq (s : State) : (clearFt s).pq = s.pq := rfl
@[simp] theorem clearFt_ct (s : State) : (clearFt s).ct = s.ct := rfl
@[simp] theorem clearFt_walk (s : State) : (clearFt s).walk = s.walk := rfl
@[simp] theorem clearFt_seq (s : State) : (clearFt s).seq = s.seq := rfl
@[simp] theorem clearFt_yin (s : State) : (clearFt s).yin = s.yin := rfl
@[simp] theorem clearFt_bin (s : State) : (clearFt s).bin = s.bin := rfl
@[simp] theorem clearFt_yinLeft (s : State) : (clearFt s).yinLeft = s.yinLeft := rfl
@[simp] theorem clearFt_binLeft (s : State) : (clearFt s).binLeft = s.binLeft := rfl
@[simp] theorem clearFt_yinBack (s : State) : (clearFt s).yinBack = s.yinBack := rfl
@[simp] theorem clearFt_binBack (s : State) : (clearFt s).binBack = s.binBack := rfl
@[simp] theorem clearFt_yout (s : State) : (clearFt s).yout = s.yout := rfl
@[simp] theorem clearFt_bout (s : State) : (clearFt s).bout = s.bout := rfl
@[simp] theorem clearFt_youtReady (s : State) : (clearFt s).youtReady = s.youtReady := rfl
@[simp] theorem clearFt_boutReady (s : State) : (clearFt s).boutReady = s.boutReady := rfl
@[simp] theorem clearFt_rst (s : State) : (clearFt s).rst = s.rst := rfl
@[simp] theorem clearFt_responses (s : State) : (clearFt s).responses = s.responses := rfl
@[simp] theorem clearFt_host (s : State) : (clearFt s).host = s.host := rfl
@[simp] theorem clearFt_hold (s : State) : (clearFt s).hold = s.hold := rfl
@[simp] theorem clearFt_freeCtr (s : State) : (clearFt s).freeCtr = s.freeCtr := rfl

/-! ### invalidateCodes -/

@[simp] theorem invalidateCodes_busy (s : State) : (invalidateCodes s).busy = s.busy := rfl
@[simp] theorem invalidateCodes_done (s : State) : (invalidateCodes s).done = s.done := rfl
@[simp] theorem invalidateCodes_err (s : State) : (invalidateCodes s).err = s.err := rfl
@[simp] theorem invalidateCodes_ovr (s : State) : (invalidateCodes s).ovr = s.ovr := rfl
@[simp] theorem invalidateCodes_treeValid (s : State) : (invalidateCodes s).treeValid = s.treeValid := rfl
@[simp] theorem invalidateCodes_ctReady (s : State) : (invalidateCodes s).ctReady = false := rfl
@[simp] theorem invalidateCodes_errCode (s : State) : (invalidateCodes s).errCode = s.errCode := rfl
@[simp] theorem invalidateCodes_irqEn (s : State) : (invalidateCodes s).irqEn = s.irqEn := rfl
@[simp] theorem invalidateCodes_errInfo (s : State) : (invalidateCodes s).errInfo = s.errInfo := rfl
@[simp] theorem invalidateCodes_bitCount (s : State) : (invalidateCodes s).bitCount = s.bitCount := rfl
@[simp] theorem invalidateCodes_byteCount (s : State) : (invalidateCodes s).byteCount = s.byteCount := rfl
@[simp] theorem invalidateCodes_root (s : State) : (invalidateCodes s).root = s.root := rfl
@[simp] theorem invalidateCodes_nodeCnt (s : State) : (invalidateCodes s).nodeCnt = s.nodeCnt := rfl
@[simp] theorem invalidateCodes_ftIdx (s : State) : (invalidateCodes s).ftIdx = s.ftIdx := rfl
@[simp] theorem invalidateCodes_ctIdx (s : State) : (invalidateCodes s).ctIdx = s.ctIdx := rfl
@[simp] theorem invalidateCodes_nodeIdx (s : State) : (invalidateCodes s).nodeIdx = s.nodeIdx := rfl
@[simp] theorem invalidateCodes_ft (s : State) : (invalidateCodes s).ft = s.ft := rfl
@[simp] theorem invalidateCodes_node (s : State) : (invalidateCodes s).node = s.node := rfl
@[simp] theorem invalidateCodes_pq (s : State) : (invalidateCodes s).pq = s.pq := rfl
@[simp] theorem invalidateCodes_ct (s : State) : (invalidateCodes s).ct = Vector.replicate 257 none := rfl
@[simp] theorem invalidateCodes_walk (s : State) : (invalidateCodes s).walk = s.walk := rfl
@[simp] theorem invalidateCodes_seq (s : State) : (invalidateCodes s).seq = s.seq := rfl
@[simp] theorem invalidateCodes_yin (s : State) : (invalidateCodes s).yin = s.yin := rfl
@[simp] theorem invalidateCodes_bin (s : State) : (invalidateCodes s).bin = s.bin := rfl
@[simp] theorem invalidateCodes_yinLeft (s : State) : (invalidateCodes s).yinLeft = s.yinLeft := rfl
@[simp] theorem invalidateCodes_binLeft (s : State) : (invalidateCodes s).binLeft = s.binLeft := rfl
@[simp] theorem invalidateCodes_yinBack (s : State) : (invalidateCodes s).yinBack = s.yinBack := rfl
@[simp] theorem invalidateCodes_binBack (s : State) : (invalidateCodes s).binBack = s.binBack := rfl
@[simp] theorem invalidateCodes_yout (s : State) : (invalidateCodes s).yout = s.yout := rfl
@[simp] theorem invalidateCodes_bout (s : State) : (invalidateCodes s).bout = s.bout := rfl
@[simp] theorem invalidateCodes_youtReady (s : State) : (invalidateCodes s).youtReady = s.youtReady := rfl
@[simp] theorem invalidateCodes_boutReady (s : State) : (invalidateCodes s).boutReady = s.boutReady := rfl
@[simp] theorem invalidateCodes_rst (s : State) : (invalidateCodes s).rst = s.rst := rfl
@[simp] theorem invalidateCodes_responses (s : State) : (invalidateCodes s).responses = s.responses := rfl
@[simp] theorem invalidateCodes_host (s : State) : (invalidateCodes s).host = s.host := rfl
@[simp] theorem invalidateCodes_hold (s : State) : (invalidateCodes s).hold = s.hold := rfl
@[simp] theorem invalidateCodes_freeCtr (s : State) : (invalidateCodes s).freeCtr = s.freeCtr := rfl

/-! ### dropTree -/

@[simp] theorem dropTree_busy (s : State) : (dropTree s).busy = s.busy := rfl
@[simp] theorem dropTree_done (s : State) : (dropTree s).done = s.done := rfl
@[simp] theorem dropTree_err (s : State) : (dropTree s).err = s.err := rfl
@[simp] theorem dropTree_ovr (s : State) : (dropTree s).ovr = s.ovr := rfl
@[simp] theorem dropTree_treeValid (s : State) : (dropTree s).treeValid = false := rfl
@[simp] theorem dropTree_ctReady (s : State) : (dropTree s).ctReady = s.ctReady := rfl
@[simp] theorem dropTree_errCode (s : State) : (dropTree s).errCode = s.errCode := rfl
@[simp] theorem dropTree_irqEn (s : State) : (dropTree s).irqEn = s.irqEn := rfl
@[simp] theorem dropTree_errInfo (s : State) : (dropTree s).errInfo = s.errInfo := rfl
@[simp] theorem dropTree_bitCount (s : State) : (dropTree s).bitCount = s.bitCount := rfl
@[simp] theorem dropTree_byteCount (s : State) : (dropTree s).byteCount = s.byteCount := rfl
@[simp] theorem dropTree_root (s : State) : (dropTree s).root = 0 := rfl
@[simp] theorem dropTree_nodeCnt (s : State) : (dropTree s).nodeCnt = 0 := rfl
@[simp] theorem dropTree_ftIdx (s : State) : (dropTree s).ftIdx = s.ftIdx := rfl
@[simp] theorem dropTree_ctIdx (s : State) : (dropTree s).ctIdx = s.ctIdx := rfl
@[simp] theorem dropTree_nodeIdx (s : State) : (dropTree s).nodeIdx = s.nodeIdx := rfl
@[simp] theorem dropTree_ft (s : State) : (dropTree s).ft = s.ft := rfl
@[simp] theorem dropTree_node (s : State) : (dropTree s).node = s.node := rfl
@[simp] theorem dropTree_pq (s : State) : (dropTree s).pq = s.pq := rfl
@[simp] theorem dropTree_ct (s : State) : (dropTree s).ct = s.ct := rfl
@[simp] theorem dropTree_walk (s : State) : (dropTree s).walk = s.walk := rfl
@[simp] theorem dropTree_seq (s : State) : (dropTree s).seq = s.seq := rfl
@[simp] theorem dropTree_yin (s : State) : (dropTree s).yin = s.yin := rfl
@[simp] theorem dropTree_bin (s : State) : (dropTree s).bin = s.bin := rfl
@[simp] theorem dropTree_yinLeft (s : State) : (dropTree s).yinLeft = s.yinLeft := rfl
@[simp] theorem dropTree_binLeft (s : State) : (dropTree s).binLeft = s.binLeft := rfl
@[simp] theorem dropTree_yinBack (s : State) : (dropTree s).yinBack = s.yinBack := rfl
@[simp] theorem dropTree_binBack (s : State) : (dropTree s).binBack = s.binBack := rfl
@[simp] theorem dropTree_yout (s : State) : (dropTree s).yout = s.yout := rfl
@[simp] theorem dropTree_bout (s : State) : (dropTree s).bout = s.bout := rfl
@[simp] theorem dropTree_youtReady (s : State) : (dropTree s).youtReady = s.youtReady := rfl
@[simp] theorem dropTree_boutReady (s : State) : (dropTree s).boutReady = s.boutReady := rfl
@[simp] theorem dropTree_rst (s : State) : (dropTree s).rst = s.rst := rfl
@[simp] theorem dropTree_responses (s : State) : (dropTree s).responses = s.responses := rfl
@[simp] theorem dropTree_host (s : State) : (dropTree s).host = s.host := rfl
@[simp] theorem dropTree_hold (s : State) : (dropTree s).hold = s.hold := rfl
@[simp] theorem dropTree_freeCtr (s : State) : (dropTree s).freeCtr = s.freeCtr := rfl

/-! ### invalidateTree -/

@[simp] theorem invalidateTree_busy (s : State) : (invalidateTree s).busy = s.busy := rfl
@[simp] theorem invalidateTree_done (s : State) : (invalidateTree s).done = s.done := rfl
@[simp] theorem invalidateTree_err (s : State) : (invalidateTree s).err = s.err := rfl
@[simp] theorem invalidateTree_ovr (s : State) : (invalidateTree s).ovr = s.ovr := rfl
@[simp] theorem invalidateTree_treeValid (s : State) : (invalidateTree s).treeValid = false := rfl
@[simp] theorem invalidateTree_ctReady (s : State) : (invalidateTree s).ctReady = false := rfl
@[simp] theorem invalidateTree_errCode (s : State) : (invalidateTree s).errCode = s.errCode := rfl
@[simp] theorem invalidateTree_irqEn (s : State) : (invalidateTree s).irqEn = s.irqEn := rfl
@[simp] theorem invalidateTree_errInfo (s : State) : (invalidateTree s).errInfo = s.errInfo := rfl
@[simp] theorem invalidateTree_bitCount (s : State) : (invalidateTree s).bitCount = s.bitCount := rfl
@[simp] theorem invalidateTree_byteCount (s : State) : (invalidateTree s).byteCount = s.byteCount := rfl
@[simp] theorem invalidateTree_root (s : State) : (invalidateTree s).root = 0 := rfl
@[simp] theorem invalidateTree_nodeCnt (s : State) : (invalidateTree s).nodeCnt = 0 := rfl
@[simp] theorem invalidateTree_ftIdx (s : State) : (invalidateTree s).ftIdx = s.ftIdx := rfl
@[simp] theorem invalidateTree_ctIdx (s : State) : (invalidateTree s).ctIdx = s.ctIdx := rfl
@[simp] theorem invalidateTree_nodeIdx (s : State) : (invalidateTree s).nodeIdx = s.nodeIdx := rfl
@[simp] theorem invalidateTree_ft (s : State) : (invalidateTree s).ft = s.ft := rfl
@[simp] theorem invalidateTree_node (s : State) : (invalidateTree s).node = s.node := rfl
@[simp] theorem invalidateTree_pq (s : State) : (invalidateTree s).pq = s.pq := rfl
@[simp] theorem invalidateTree_ct (s : State) : (invalidateTree s).ct = Vector.replicate 257 none := rfl
@[simp] theorem invalidateTree_walk (s : State) : (invalidateTree s).walk = s.walk := rfl
@[simp] theorem invalidateTree_seq (s : State) : (invalidateTree s).seq = s.seq := rfl
@[simp] theorem invalidateTree_yin (s : State) : (invalidateTree s).yin = s.yin := rfl
@[simp] theorem invalidateTree_bin (s : State) : (invalidateTree s).bin = s.bin := rfl
@[simp] theorem invalidateTree_yinLeft (s : State) : (invalidateTree s).yinLeft = s.yinLeft := rfl
@[simp] theorem invalidateTree_binLeft (s : State) : (invalidateTree s).binLeft = s.binLeft := rfl
@[simp] theorem invalidateTree_yinBack (s : State) : (invalidateTree s).yinBack = s.yinBack := rfl
@[simp] theorem invalidateTree_binBack (s : State) : (invalidateTree s).binBack = s.binBack := rfl
@[simp] theorem invalidateTree_yout (s : State) : (invalidateTree s).yout = s.yout := rfl
@[simp] theorem invalidateTree_bout (s : State) : (invalidateTree s).bout = s.bout := rfl
@[simp] theorem invalidateTree_youtReady (s : State) : (invalidateTree s).youtReady = s.youtReady := rfl
@[simp] theorem invalidateTree_boutReady (s : State) : (invalidateTree s).boutReady = s.boutReady := rfl
@[simp] theorem invalidateTree_rst (s : State) : (invalidateTree s).rst = s.rst := rfl
@[simp] theorem invalidateTree_responses (s : State) : (invalidateTree s).responses = s.responses := rfl
@[simp] theorem invalidateTree_host (s : State) : (invalidateTree s).host = s.host := rfl
@[simp] theorem invalidateTree_hold (s : State) : (invalidateTree s).hold = s.hold := rfl
@[simp] theorem invalidateTree_freeCtr (s : State) : (invalidateTree s).freeCtr = s.freeCtr := rfl

/-! ### setFt -/

@[simp] theorem setFt_busy (k : Key) (c : Count) (s : State) : (setFt k c s).busy = s.busy := rfl
@[simp] theorem setFt_done (k : Key) (c : Count) (s : State) : (setFt k c s).done = s.done := rfl
@[simp] theorem setFt_err (k : Key) (c : Count) (s : State) : (setFt k c s).err = s.err := rfl
@[simp] theorem setFt_ovr (k : Key) (c : Count) (s : State) : (setFt k c s).ovr = s.ovr := rfl
@[simp] theorem setFt_treeValid (k : Key) (c : Count) (s : State) : (setFt k c s).treeValid = s.treeValid := rfl
@[simp] theorem setFt_ctReady (k : Key) (c : Count) (s : State) : (setFt k c s).ctReady = s.ctReady := rfl
@[simp] theorem setFt_errCode (k : Key) (c : Count) (s : State) : (setFt k c s).errCode = s.errCode := rfl
@[simp] theorem setFt_irqEn (k : Key) (c : Count) (s : State) : (setFt k c s).irqEn = s.irqEn := rfl
@[simp] theorem setFt_errInfo (k : Key) (c : Count) (s : State) : (setFt k c s).errInfo = s.errInfo := rfl
@[simp] theorem setFt_bitCount (k : Key) (c : Count) (s : State) : (setFt k c s).bitCount = s.bitCount := rfl
@[simp] theorem setFt_byteCount (k : Key) (c : Count) (s : State) : (setFt k c s).byteCount = s.byteCount := rfl
@[simp] theorem setFt_root (k : Key) (c : Count) (s : State) : (setFt k c s).root = s.root := rfl
@[simp] theorem setFt_nodeCnt (k : Key) (c : Count) (s : State) : (setFt k c s).nodeCnt = s.nodeCnt := rfl
@[simp] theorem setFt_ftIdx (k : Key) (c : Count) (s : State) : (setFt k c s).ftIdx = s.ftIdx := rfl
@[simp] theorem setFt_ctIdx (k : Key) (c : Count) (s : State) : (setFt k c s).ctIdx = s.ctIdx := rfl
@[simp] theorem setFt_nodeIdx (k : Key) (c : Count) (s : State) : (setFt k c s).nodeIdx = s.nodeIdx := rfl
@[simp] theorem setFt_ft (k : Key) (c : Count) (s : State) : (setFt k c s).ft = s.ft.set k (some c) := rfl
@[simp] theorem setFt_node (k : Key) (c : Count) (s : State) : (setFt k c s).node = s.node := rfl
@[simp] theorem setFt_pq (k : Key) (c : Count) (s : State) : (setFt k c s).pq = s.pq := rfl
@[simp] theorem setFt_ct (k : Key) (c : Count) (s : State) : (setFt k c s).ct = s.ct := rfl
@[simp] theorem setFt_walk (k : Key) (c : Count) (s : State) : (setFt k c s).walk = s.walk := rfl
@[simp] theorem setFt_seq (k : Key) (c : Count) (s : State) : (setFt k c s).seq = s.seq := rfl
@[simp] theorem setFt_yin (k : Key) (c : Count) (s : State) : (setFt k c s).yin = s.yin := rfl
@[simp] theorem setFt_bin (k : Key) (c : Count) (s : State) : (setFt k c s).bin = s.bin := rfl
@[simp] theorem setFt_yinLeft (k : Key) (c : Count) (s : State) : (setFt k c s).yinLeft = s.yinLeft := rfl
@[simp] theorem setFt_binLeft (k : Key) (c : Count) (s : State) : (setFt k c s).binLeft = s.binLeft := rfl
@[simp] theorem setFt_yinBack (k : Key) (c : Count) (s : State) : (setFt k c s).yinBack = s.yinBack := rfl
@[simp] theorem setFt_binBack (k : Key) (c : Count) (s : State) : (setFt k c s).binBack = s.binBack := rfl
@[simp] theorem setFt_yout (k : Key) (c : Count) (s : State) : (setFt k c s).yout = s.yout := rfl
@[simp] theorem setFt_bout (k : Key) (c : Count) (s : State) : (setFt k c s).bout = s.bout := rfl
@[simp] theorem setFt_youtReady (k : Key) (c : Count) (s : State) : (setFt k c s).youtReady = s.youtReady := rfl
@[simp] theorem setFt_boutReady (k : Key) (c : Count) (s : State) : (setFt k c s).boutReady = s.boutReady := rfl
@[simp] theorem setFt_rst (k : Key) (c : Count) (s : State) : (setFt k c s).rst = s.rst := rfl
@[simp] theorem setFt_responses (k : Key) (c : Count) (s : State) : (setFt k c s).responses = s.responses := rfl
@[simp] theorem setFt_host (k : Key) (c : Count) (s : State) : (setFt k c s).host = s.host := rfl
@[simp] theorem setFt_hold (k : Key) (c : Count) (s : State) : (setFt k c s).hold = s.hold := rfl
@[simp] theorem setFt_freeCtr (k : Key) (c : Count) (s : State) : (setFt k c s).freeCtr = s.freeCtr := rfl

/-! ### setCode -/

@[simp] theorem setCode_busy (k : Key) (c : Path) (s : State) : (setCode k c s).busy = s.busy := rfl
@[simp] theorem setCode_done (k : Key) (c : Path) (s : State) : (setCode k c s).done = s.done := rfl
@[simp] theorem setCode_err (k : Key) (c : Path) (s : State) : (setCode k c s).err = s.err := rfl
@[simp] theorem setCode_ovr (k : Key) (c : Path) (s : State) : (setCode k c s).ovr = s.ovr := rfl
@[simp] theorem setCode_treeValid (k : Key) (c : Path) (s : State) : (setCode k c s).treeValid = s.treeValid := rfl
@[simp] theorem setCode_ctReady (k : Key) (c : Path) (s : State) : (setCode k c s).ctReady = s.ctReady := rfl
@[simp] theorem setCode_errCode (k : Key) (c : Path) (s : State) : (setCode k c s).errCode = s.errCode := rfl
@[simp] theorem setCode_irqEn (k : Key) (c : Path) (s : State) : (setCode k c s).irqEn = s.irqEn := rfl
@[simp] theorem setCode_errInfo (k : Key) (c : Path) (s : State) : (setCode k c s).errInfo = s.errInfo := rfl
@[simp] theorem setCode_bitCount (k : Key) (c : Path) (s : State) : (setCode k c s).bitCount = s.bitCount := rfl
@[simp] theorem setCode_byteCount (k : Key) (c : Path) (s : State) : (setCode k c s).byteCount = s.byteCount := rfl
@[simp] theorem setCode_root (k : Key) (c : Path) (s : State) : (setCode k c s).root = s.root := rfl
@[simp] theorem setCode_nodeCnt (k : Key) (c : Path) (s : State) : (setCode k c s).nodeCnt = s.nodeCnt := rfl
@[simp] theorem setCode_ftIdx (k : Key) (c : Path) (s : State) : (setCode k c s).ftIdx = s.ftIdx := rfl
@[simp] theorem setCode_ctIdx (k : Key) (c : Path) (s : State) : (setCode k c s).ctIdx = s.ctIdx := rfl
@[simp] theorem setCode_nodeIdx (k : Key) (c : Path) (s : State) : (setCode k c s).nodeIdx = s.nodeIdx := rfl
@[simp] theorem setCode_ft (k : Key) (c : Path) (s : State) : (setCode k c s).ft = s.ft := rfl
@[simp] theorem setCode_node (k : Key) (c : Path) (s : State) : (setCode k c s).node = s.node := rfl
@[simp] theorem setCode_pq (k : Key) (c : Path) (s : State) : (setCode k c s).pq = s.pq := rfl
@[simp] theorem setCode_ct (k : Key) (c : Path) (s : State) : (setCode k c s).ct = s.ct.set k (some c) := rfl
@[simp] theorem setCode_walk (k : Key) (c : Path) (s : State) : (setCode k c s).walk = s.walk := rfl
@[simp] theorem setCode_seq (k : Key) (c : Path) (s : State) : (setCode k c s).seq = s.seq := rfl
@[simp] theorem setCode_yin (k : Key) (c : Path) (s : State) : (setCode k c s).yin = s.yin := rfl
@[simp] theorem setCode_bin (k : Key) (c : Path) (s : State) : (setCode k c s).bin = s.bin := rfl
@[simp] theorem setCode_yinLeft (k : Key) (c : Path) (s : State) : (setCode k c s).yinLeft = s.yinLeft := rfl
@[simp] theorem setCode_binLeft (k : Key) (c : Path) (s : State) : (setCode k c s).binLeft = s.binLeft := rfl
@[simp] theorem setCode_yinBack (k : Key) (c : Path) (s : State) : (setCode k c s).yinBack = s.yinBack := rfl
@[simp] theorem setCode_binBack (k : Key) (c : Path) (s : State) : (setCode k c s).binBack = s.binBack := rfl
@[simp] theorem setCode_yout (k : Key) (c : Path) (s : State) : (setCode k c s).yout = s.yout := rfl
@[simp] theorem setCode_bout (k : Key) (c : Path) (s : State) : (setCode k c s).bout = s.bout := rfl
@[simp] theorem setCode_youtReady (k : Key) (c : Path) (s : State) : (setCode k c s).youtReady = s.youtReady := rfl
@[simp] theorem setCode_boutReady (k : Key) (c : Path) (s : State) : (setCode k c s).boutReady = s.boutReady := rfl
@[simp] theorem setCode_rst (k : Key) (c : Path) (s : State) : (setCode k c s).rst = s.rst := rfl
@[simp] theorem setCode_responses (k : Key) (c : Path) (s : State) : (setCode k c s).responses = s.responses := rfl
@[simp] theorem setCode_host (k : Key) (c : Path) (s : State) : (setCode k c s).host = s.host := rfl
@[simp] theorem setCode_hold (k : Key) (c : Path) (s : State) : (setCode k c s).hold = s.hold := rfl
@[simp] theorem setCode_freeCtr (k : Key) (c : Path) (s : State) : (setCode k c s).freeCtr = s.freeCtr := rfl

/-! ### takeYin -/

@[simp] theorem takeYin_busy (ts : List YTok) (s : State) : (takeYin ts s).busy = s.busy := rfl
@[simp] theorem takeYin_done (ts : List YTok) (s : State) : (takeYin ts s).done = s.done := rfl
@[simp] theorem takeYin_err (ts : List YTok) (s : State) : (takeYin ts s).err = s.err := rfl
@[simp] theorem takeYin_ovr (ts : List YTok) (s : State) : (takeYin ts s).ovr = s.ovr := rfl
@[simp] theorem takeYin_treeValid (ts : List YTok) (s : State) : (takeYin ts s).treeValid = s.treeValid := rfl
@[simp] theorem takeYin_ctReady (ts : List YTok) (s : State) : (takeYin ts s).ctReady = s.ctReady := rfl
@[simp] theorem takeYin_errCode (ts : List YTok) (s : State) : (takeYin ts s).errCode = s.errCode := rfl
@[simp] theorem takeYin_irqEn (ts : List YTok) (s : State) : (takeYin ts s).irqEn = s.irqEn := rfl
@[simp] theorem takeYin_errInfo (ts : List YTok) (s : State) : (takeYin ts s).errInfo = s.errInfo := rfl
@[simp] theorem takeYin_bitCount (ts : List YTok) (s : State) : (takeYin ts s).bitCount = s.bitCount := rfl
@[simp] theorem takeYin_byteCount (ts : List YTok) (s : State) : (takeYin ts s).byteCount = s.byteCount := rfl
@[simp] theorem takeYin_root (ts : List YTok) (s : State) : (takeYin ts s).root = s.root := rfl
@[simp] theorem takeYin_nodeCnt (ts : List YTok) (s : State) : (takeYin ts s).nodeCnt = s.nodeCnt := rfl
@[simp] theorem takeYin_ftIdx (ts : List YTok) (s : State) : (takeYin ts s).ftIdx = s.ftIdx := rfl
@[simp] theorem takeYin_ctIdx (ts : List YTok) (s : State) : (takeYin ts s).ctIdx = s.ctIdx := rfl
@[simp] theorem takeYin_nodeIdx (ts : List YTok) (s : State) : (takeYin ts s).nodeIdx = s.nodeIdx := rfl
@[simp] theorem takeYin_ft (ts : List YTok) (s : State) : (takeYin ts s).ft = s.ft := rfl
@[simp] theorem takeYin_node (ts : List YTok) (s : State) : (takeYin ts s).node = s.node := rfl
@[simp] theorem takeYin_pq (ts : List YTok) (s : State) : (takeYin ts s).pq = s.pq := rfl
@[simp] theorem takeYin_ct (ts : List YTok) (s : State) : (takeYin ts s).ct = s.ct := rfl
@[simp] theorem takeYin_walk (ts : List YTok) (s : State) : (takeYin ts s).walk = s.walk := rfl
@[simp] theorem takeYin_seq (ts : List YTok) (s : State) : (takeYin ts s).seq = s.seq := rfl
@[simp] theorem takeYin_yin (ts : List YTok) (s : State) : (takeYin ts s).yin = ts := rfl
@[simp] theorem takeYin_bin (ts : List YTok) (s : State) : (takeYin ts s).bin = s.bin := rfl
@[simp] theorem takeYin_yinLeft (ts : List YTok) (s : State) : (takeYin ts s).yinLeft = s.yinLeft := rfl
@[simp] theorem takeYin_binLeft (ts : List YTok) (s : State) : (takeYin ts s).binLeft = s.binLeft := rfl
@[simp] theorem takeYin_yinBack (ts : List YTok) (s : State) : (takeYin ts s).yinBack = s.yinBack := rfl
@[simp] theorem takeYin_binBack (ts : List YTok) (s : State) : (takeYin ts s).binBack = s.binBack := rfl
@[simp] theorem takeYin_yout (ts : List YTok) (s : State) : (takeYin ts s).yout = s.yout := rfl
@[simp] theorem takeYin_bout (ts : List YTok) (s : State) : (takeYin ts s).bout = s.bout := rfl
@[simp] theorem takeYin_youtReady (ts : List YTok) (s : State) : (takeYin ts s).youtReady = s.youtReady := rfl
@[simp] theorem takeYin_boutReady (ts : List YTok) (s : State) : (takeYin ts s).boutReady = s.boutReady := rfl
@[simp] theorem takeYin_rst (ts : List YTok) (s : State) : (takeYin ts s).rst = s.rst := rfl
@[simp] theorem takeYin_responses (ts : List YTok) (s : State) : (takeYin ts s).responses = s.responses := rfl
@[simp] theorem takeYin_host (ts : List YTok) (s : State) : (takeYin ts s).host = s.host := rfl
@[simp] theorem takeYin_hold (ts : List YTok) (s : State) : (takeYin ts s).hold = s.hold := rfl
@[simp] theorem takeYin_freeCtr (ts : List YTok) (s : State) : (takeYin ts s).freeCtr = s.freeCtr := rfl

/-! ### takeBin -/

@[simp] theorem takeBin_busy (ts : List BTok) (s : State) : (takeBin ts s).busy = s.busy := rfl
@[simp] theorem takeBin_done (ts : List BTok) (s : State) : (takeBin ts s).done = s.done := rfl
@[simp] theorem takeBin_err (ts : List BTok) (s : State) : (takeBin ts s).err = s.err := rfl
@[simp] theorem takeBin_ovr (ts : List BTok) (s : State) : (takeBin ts s).ovr = s.ovr := rfl
@[simp] theorem takeBin_treeValid (ts : List BTok) (s : State) : (takeBin ts s).treeValid = s.treeValid := rfl
@[simp] theorem takeBin_ctReady (ts : List BTok) (s : State) : (takeBin ts s).ctReady = s.ctReady := rfl
@[simp] theorem takeBin_errCode (ts : List BTok) (s : State) : (takeBin ts s).errCode = s.errCode := rfl
@[simp] theorem takeBin_irqEn (ts : List BTok) (s : State) : (takeBin ts s).irqEn = s.irqEn := rfl
@[simp] theorem takeBin_errInfo (ts : List BTok) (s : State) : (takeBin ts s).errInfo = s.errInfo := rfl
@[simp] theorem takeBin_bitCount (ts : List BTok) (s : State) : (takeBin ts s).bitCount = s.bitCount := rfl
@[simp] theorem takeBin_byteCount (ts : List BTok) (s : State) : (takeBin ts s).byteCount = s.byteCount := rfl
@[simp] theorem takeBin_root (ts : List BTok) (s : State) : (takeBin ts s).root = s.root := rfl
@[simp] theorem takeBin_nodeCnt (ts : List BTok) (s : State) : (takeBin ts s).nodeCnt = s.nodeCnt := rfl
@[simp] theorem takeBin_ftIdx (ts : List BTok) (s : State) : (takeBin ts s).ftIdx = s.ftIdx := rfl
@[simp] theorem takeBin_ctIdx (ts : List BTok) (s : State) : (takeBin ts s).ctIdx = s.ctIdx := rfl
@[simp] theorem takeBin_nodeIdx (ts : List BTok) (s : State) : (takeBin ts s).nodeIdx = s.nodeIdx := rfl
@[simp] theorem takeBin_ft (ts : List BTok) (s : State) : (takeBin ts s).ft = s.ft := rfl
@[simp] theorem takeBin_node (ts : List BTok) (s : State) : (takeBin ts s).node = s.node := rfl
@[simp] theorem takeBin_pq (ts : List BTok) (s : State) : (takeBin ts s).pq = s.pq := rfl
@[simp] theorem takeBin_ct (ts : List BTok) (s : State) : (takeBin ts s).ct = s.ct := rfl
@[simp] theorem takeBin_walk (ts : List BTok) (s : State) : (takeBin ts s).walk = s.walk := rfl
@[simp] theorem takeBin_seq (ts : List BTok) (s : State) : (takeBin ts s).seq = s.seq := rfl
@[simp] theorem takeBin_yin (ts : List BTok) (s : State) : (takeBin ts s).yin = s.yin := rfl
@[simp] theorem takeBin_bin (ts : List BTok) (s : State) : (takeBin ts s).bin = ts := rfl
@[simp] theorem takeBin_yinLeft (ts : List BTok) (s : State) : (takeBin ts s).yinLeft = s.yinLeft := rfl
@[simp] theorem takeBin_binLeft (ts : List BTok) (s : State) : (takeBin ts s).binLeft = s.binLeft := rfl
@[simp] theorem takeBin_yinBack (ts : List BTok) (s : State) : (takeBin ts s).yinBack = s.yinBack := rfl
@[simp] theorem takeBin_binBack (ts : List BTok) (s : State) : (takeBin ts s).binBack = s.binBack := rfl
@[simp] theorem takeBin_yout (ts : List BTok) (s : State) : (takeBin ts s).yout = s.yout := rfl
@[simp] theorem takeBin_bout (ts : List BTok) (s : State) : (takeBin ts s).bout = s.bout := rfl
@[simp] theorem takeBin_youtReady (ts : List BTok) (s : State) : (takeBin ts s).youtReady = s.youtReady := rfl
@[simp] theorem takeBin_boutReady (ts : List BTok) (s : State) : (takeBin ts s).boutReady = s.boutReady := rfl
@[simp] theorem takeBin_rst (ts : List BTok) (s : State) : (takeBin ts s).rst = s.rst := rfl
@[simp] theorem takeBin_responses (ts : List BTok) (s : State) : (takeBin ts s).responses = s.responses := rfl
@[simp] theorem takeBin_host (ts : List BTok) (s : State) : (takeBin ts s).host = s.host := rfl
@[simp] theorem takeBin_hold (ts : List BTok) (s : State) : (takeBin ts s).hold = s.hold := rfl
@[simp] theorem takeBin_freeCtr (ts : List BTok) (s : State) : (takeBin ts s).freeCtr = s.freeCtr := rfl

/-! ### countByte -/

@[simp] theorem countByte_busy (s : State) : (countByte s).busy = s.busy := rfl
@[simp] theorem countByte_done (s : State) : (countByte s).done = s.done := rfl
@[simp] theorem countByte_err (s : State) : (countByte s).err = s.err := rfl
@[simp] theorem countByte_ovr (s : State) : (countByte s).ovr = s.ovr := rfl
@[simp] theorem countByte_treeValid (s : State) : (countByte s).treeValid = s.treeValid := rfl
@[simp] theorem countByte_ctReady (s : State) : (countByte s).ctReady = s.ctReady := rfl
@[simp] theorem countByte_errCode (s : State) : (countByte s).errCode = s.errCode := rfl
@[simp] theorem countByte_irqEn (s : State) : (countByte s).irqEn = s.irqEn := rfl
@[simp] theorem countByte_errInfo (s : State) : (countByte s).errInfo = s.errInfo := rfl
@[simp] theorem countByte_bitCount (s : State) : (countByte s).bitCount = s.bitCount := rfl
@[simp] theorem countByte_byteCount (s : State) : (countByte s).byteCount = s.byteCount + 1#64 := rfl
@[simp] theorem countByte_root (s : State) : (countByte s).root = s.root := rfl
@[simp] theorem countByte_nodeCnt (s : State) : (countByte s).nodeCnt = s.nodeCnt := rfl
@[simp] theorem countByte_ftIdx (s : State) : (countByte s).ftIdx = s.ftIdx := rfl
@[simp] theorem countByte_ctIdx (s : State) : (countByte s).ctIdx = s.ctIdx := rfl
@[simp] theorem countByte_nodeIdx (s : State) : (countByte s).nodeIdx = s.nodeIdx := rfl
@[simp] theorem countByte_ft (s : State) : (countByte s).ft = s.ft := rfl
@[simp] theorem countByte_node (s : State) : (countByte s).node = s.node := rfl
@[simp] theorem countByte_pq (s : State) : (countByte s).pq = s.pq := rfl
@[simp] theorem countByte_ct (s : State) : (countByte s).ct = s.ct := rfl
@[simp] theorem countByte_walk (s : State) : (countByte s).walk = s.walk := rfl
@[simp] theorem countByte_seq (s : State) : (countByte s).seq = s.seq := rfl
@[simp] theorem countByte_yin (s : State) : (countByte s).yin = s.yin := rfl
@[simp] theorem countByte_bin (s : State) : (countByte s).bin = s.bin := rfl
@[simp] theorem countByte_yinLeft (s : State) : (countByte s).yinLeft = s.yinLeft := rfl
@[simp] theorem countByte_binLeft (s : State) : (countByte s).binLeft = s.binLeft := rfl
@[simp] theorem countByte_yinBack (s : State) : (countByte s).yinBack = s.yinBack := rfl
@[simp] theorem countByte_binBack (s : State) : (countByte s).binBack = s.binBack := rfl
@[simp] theorem countByte_yout (s : State) : (countByte s).yout = s.yout := rfl
@[simp] theorem countByte_bout (s : State) : (countByte s).bout = s.bout := rfl
@[simp] theorem countByte_youtReady (s : State) : (countByte s).youtReady = s.youtReady := rfl
@[simp] theorem countByte_boutReady (s : State) : (countByte s).boutReady = s.boutReady := rfl
@[simp] theorem countByte_rst (s : State) : (countByte s).rst = s.rst := rfl
@[simp] theorem countByte_responses (s : State) : (countByte s).responses = s.responses := rfl
@[simp] theorem countByte_host (s : State) : (countByte s).host = s.host := rfl
@[simp] theorem countByte_hold (s : State) : (countByte s).hold = s.hold := rfl
@[simp] theorem countByte_freeCtr (s : State) : (countByte s).freeCtr = s.freeCtr := rfl

/-! ### countBit -/

@[simp] theorem countBit_busy (s : State) : (countBit s).busy = s.busy := rfl
@[simp] theorem countBit_done (s : State) : (countBit s).done = s.done := rfl
@[simp] theorem countBit_err (s : State) : (countBit s).err = s.err := rfl
@[simp] theorem countBit_ovr (s : State) : (countBit s).ovr = s.ovr := rfl
@[simp] theorem countBit_treeValid (s : State) : (countBit s).treeValid = s.treeValid := rfl
@[simp] theorem countBit_ctReady (s : State) : (countBit s).ctReady = s.ctReady := rfl
@[simp] theorem countBit_errCode (s : State) : (countBit s).errCode = s.errCode := rfl
@[simp] theorem countBit_irqEn (s : State) : (countBit s).irqEn = s.irqEn := rfl
@[simp] theorem countBit_errInfo (s : State) : (countBit s).errInfo = s.errInfo := rfl
@[simp] theorem countBit_bitCount (s : State) : (countBit s).bitCount = s.bitCount + 1#64 := rfl
@[simp] theorem countBit_byteCount (s : State) : (countBit s).byteCount = s.byteCount := rfl
@[simp] theorem countBit_root (s : State) : (countBit s).root = s.root := rfl
@[simp] theorem countBit_nodeCnt (s : State) : (countBit s).nodeCnt = s.nodeCnt := rfl
@[simp] theorem countBit_ftIdx (s : State) : (countBit s).ftIdx = s.ftIdx := rfl
@[simp] theorem countBit_ctIdx (s : State) : (countBit s).ctIdx = s.ctIdx := rfl
@[simp] theorem countBit_nodeIdx (s : State) : (countBit s).nodeIdx = s.nodeIdx := rfl
@[simp] theorem countBit_ft (s : State) : (countBit s).ft = s.ft := rfl
@[simp] theorem countBit_node (s : State) : (countBit s).node = s.node := rfl
@[simp] theorem countBit_pq (s : State) : (countBit s).pq = s.pq := rfl
@[simp] theorem countBit_ct (s : State) : (countBit s).ct = s.ct := rfl
@[simp] theorem countBit_walk (s : State) : (countBit s).walk = s.walk := rfl
@[simp] theorem countBit_seq (s : State) : (countBit s).seq = s.seq := rfl
@[simp] theorem countBit_yin (s : State) : (countBit s).yin = s.yin := rfl
@[simp] theorem countBit_bin (s : State) : (countBit s).bin = s.bin := rfl
@[simp] theorem countBit_yinLeft (s : State) : (countBit s).yinLeft = s.yinLeft := rfl
@[simp] theorem countBit_binLeft (s : State) : (countBit s).binLeft = s.binLeft := rfl
@[simp] theorem countBit_yinBack (s : State) : (countBit s).yinBack = s.yinBack := rfl
@[simp] theorem countBit_binBack (s : State) : (countBit s).binBack = s.binBack := rfl
@[simp] theorem countBit_yout (s : State) : (countBit s).yout = s.yout := rfl
@[simp] theorem countBit_bout (s : State) : (countBit s).bout = s.bout := rfl
@[simp] theorem countBit_youtReady (s : State) : (countBit s).youtReady = s.youtReady := rfl
@[simp] theorem countBit_boutReady (s : State) : (countBit s).boutReady = s.boutReady := rfl
@[simp] theorem countBit_rst (s : State) : (countBit s).rst = s.rst := rfl
@[simp] theorem countBit_responses (s : State) : (countBit s).responses = s.responses := rfl
@[simp] theorem countBit_host (s : State) : (countBit s).host = s.host := rfl
@[simp] theorem countBit_hold (s : State) : (countBit s).hold = s.hold := rfl
@[simp] theorem countBit_freeCtr (s : State) : (countBit s).freeCtr = s.freeCtr := rfl

/-! ### waitAt -/

@[simp] theorem waitAt_busy (q : Seq) (s : State) : (waitAt q s).busy = s.busy := rfl
@[simp] theorem waitAt_done (q : Seq) (s : State) : (waitAt q s).done = s.done := rfl
@[simp] theorem waitAt_err (q : Seq) (s : State) : (waitAt q s).err = s.err := rfl
@[simp] theorem waitAt_ovr (q : Seq) (s : State) : (waitAt q s).ovr = s.ovr := rfl
@[simp] theorem waitAt_treeValid (q : Seq) (s : State) : (waitAt q s).treeValid = s.treeValid := rfl
@[simp] theorem waitAt_ctReady (q : Seq) (s : State) : (waitAt q s).ctReady = s.ctReady := rfl
@[simp] theorem waitAt_errCode (q : Seq) (s : State) : (waitAt q s).errCode = s.errCode := rfl
@[simp] theorem waitAt_irqEn (q : Seq) (s : State) : (waitAt q s).irqEn = s.irqEn := rfl
@[simp] theorem waitAt_errInfo (q : Seq) (s : State) : (waitAt q s).errInfo = s.errInfo := rfl
@[simp] theorem waitAt_bitCount (q : Seq) (s : State) : (waitAt q s).bitCount = s.bitCount := rfl
@[simp] theorem waitAt_byteCount (q : Seq) (s : State) : (waitAt q s).byteCount = s.byteCount := rfl
@[simp] theorem waitAt_root (q : Seq) (s : State) : (waitAt q s).root = s.root := rfl
@[simp] theorem waitAt_nodeCnt (q : Seq) (s : State) : (waitAt q s).nodeCnt = s.nodeCnt := rfl
@[simp] theorem waitAt_ftIdx (q : Seq) (s : State) : (waitAt q s).ftIdx = s.ftIdx := rfl
@[simp] theorem waitAt_ctIdx (q : Seq) (s : State) : (waitAt q s).ctIdx = s.ctIdx := rfl
@[simp] theorem waitAt_nodeIdx (q : Seq) (s : State) : (waitAt q s).nodeIdx = s.nodeIdx := rfl
@[simp] theorem waitAt_ft (q : Seq) (s : State) : (waitAt q s).ft = s.ft := rfl
@[simp] theorem waitAt_node (q : Seq) (s : State) : (waitAt q s).node = s.node := rfl
@[simp] theorem waitAt_pq (q : Seq) (s : State) : (waitAt q s).pq = s.pq := rfl
@[simp] theorem waitAt_ct (q : Seq) (s : State) : (waitAt q s).ct = s.ct := rfl
@[simp] theorem waitAt_walk (q : Seq) (s : State) : (waitAt q s).walk = s.walk := rfl
@[simp] theorem waitAt_seq (q : Seq) (s : State) : (waitAt q s).seq = q := rfl
@[simp] theorem waitAt_yin (q : Seq) (s : State) : (waitAt q s).yin = s.yin := rfl
@[simp] theorem waitAt_bin (q : Seq) (s : State) : (waitAt q s).bin = s.bin := rfl
@[simp] theorem waitAt_yinLeft (q : Seq) (s : State) : (waitAt q s).yinLeft = s.yinLeft := rfl
@[simp] theorem waitAt_binLeft (q : Seq) (s : State) : (waitAt q s).binLeft = s.binLeft := rfl
@[simp] theorem waitAt_yinBack (q : Seq) (s : State) : (waitAt q s).yinBack = s.yinBack := rfl
@[simp] theorem waitAt_binBack (q : Seq) (s : State) : (waitAt q s).binBack = s.binBack := rfl
@[simp] theorem waitAt_yout (q : Seq) (s : State) : (waitAt q s).yout = s.yout := rfl
@[simp] theorem waitAt_bout (q : Seq) (s : State) : (waitAt q s).bout = s.bout := rfl
@[simp] theorem waitAt_youtReady (q : Seq) (s : State) : (waitAt q s).youtReady = s.youtReady := rfl
@[simp] theorem waitAt_boutReady (q : Seq) (s : State) : (waitAt q s).boutReady = s.boutReady := rfl
@[simp] theorem waitAt_rst (q : Seq) (s : State) : (waitAt q s).rst = s.rst := rfl
@[simp] theorem waitAt_responses (q : Seq) (s : State) : (waitAt q s).responses = s.responses := rfl
@[simp] theorem waitAt_host (q : Seq) (s : State) : (waitAt q s).host = s.host := rfl
@[simp] theorem waitAt_hold (q : Seq) (s : State) : (waitAt q s).hold = s.hold := rfl
@[simp] theorem waitAt_freeCtr (q : Seq) (s : State) : (waitAt q s).freeCtr = s.freeCtr := rfl

/-! ### pqInsert -/

@[simp] theorem pqInsert_busy (n : NodeIdx) (s : State) : (pqInsert n s).busy = s.busy := rfl
@[simp] theorem pqInsert_done (n : NodeIdx) (s : State) : (pqInsert n s).done = s.done := rfl
@[simp] theorem pqInsert_err (n : NodeIdx) (s : State) : (pqInsert n s).err = s.err := rfl
@[simp] theorem pqInsert_ovr (n : NodeIdx) (s : State) : (pqInsert n s).ovr = s.ovr := rfl
@[simp] theorem pqInsert_treeValid (n : NodeIdx) (s : State) : (pqInsert n s).treeValid = s.treeValid := rfl
@[simp] theorem pqInsert_ctReady (n : NodeIdx) (s : State) : (pqInsert n s).ctReady = s.ctReady := rfl
@[simp] theorem pqInsert_errCode (n : NodeIdx) (s : State) : (pqInsert n s).errCode = s.errCode := rfl
@[simp] theorem pqInsert_irqEn (n : NodeIdx) (s : State) : (pqInsert n s).irqEn = s.irqEn := rfl
@[simp] theorem pqInsert_errInfo (n : NodeIdx) (s : State) : (pqInsert n s).errInfo = s.errInfo := rfl
@[simp] theorem pqInsert_bitCount (n : NodeIdx) (s : State) : (pqInsert n s).bitCount = s.bitCount := rfl
@[simp] theorem pqInsert_byteCount (n : NodeIdx) (s : State) : (pqInsert n s).byteCount = s.byteCount := rfl
@[simp] theorem pqInsert_root (n : NodeIdx) (s : State) : (pqInsert n s).root = s.root := rfl
@[simp] theorem pqInsert_nodeCnt (n : NodeIdx) (s : State) : (pqInsert n s).nodeCnt = s.nodeCnt := rfl
@[simp] theorem pqInsert_ftIdx (n : NodeIdx) (s : State) : (pqInsert n s).ftIdx = s.ftIdx := rfl
@[simp] theorem pqInsert_ctIdx (n : NodeIdx) (s : State) : (pqInsert n s).ctIdx = s.ctIdx := rfl
@[simp] theorem pqInsert_nodeIdx (n : NodeIdx) (s : State) : (pqInsert n s).nodeIdx = s.nodeIdx := rfl
@[simp] theorem pqInsert_ft (n : NodeIdx) (s : State) : (pqInsert n s).ft = s.ft := rfl
@[simp] theorem pqInsert_node (n : NodeIdx) (s : State) : (pqInsert n s).node = s.node := rfl
@[simp] theorem pqInsert_pq (n : NodeIdx) (s : State) : (pqInsert n s).pq = n :: s.pq := rfl
@[simp] theorem pqInsert_ct (n : NodeIdx) (s : State) : (pqInsert n s).ct = s.ct := rfl
@[simp] theorem pqInsert_walk (n : NodeIdx) (s : State) : (pqInsert n s).walk = s.walk := rfl
@[simp] theorem pqInsert_seq (n : NodeIdx) (s : State) : (pqInsert n s).seq = s.seq := rfl
@[simp] theorem pqInsert_yin (n : NodeIdx) (s : State) : (pqInsert n s).yin = s.yin := rfl
@[simp] theorem pqInsert_bin (n : NodeIdx) (s : State) : (pqInsert n s).bin = s.bin := rfl
@[simp] theorem pqInsert_yinLeft (n : NodeIdx) (s : State) : (pqInsert n s).yinLeft = s.yinLeft := rfl
@[simp] theorem pqInsert_binLeft (n : NodeIdx) (s : State) : (pqInsert n s).binLeft = s.binLeft := rfl
@[simp] theorem pqInsert_yinBack (n : NodeIdx) (s : State) : (pqInsert n s).yinBack = s.yinBack := rfl
@[simp] theorem pqInsert_binBack (n : NodeIdx) (s : State) : (pqInsert n s).binBack = s.binBack := rfl
@[simp] theorem pqInsert_yout (n : NodeIdx) (s : State) : (pqInsert n s).yout = s.yout := rfl
@[simp] theorem pqInsert_bout (n : NodeIdx) (s : State) : (pqInsert n s).bout = s.bout := rfl
@[simp] theorem pqInsert_youtReady (n : NodeIdx) (s : State) : (pqInsert n s).youtReady = s.youtReady := rfl
@[simp] theorem pqInsert_boutReady (n : NodeIdx) (s : State) : (pqInsert n s).boutReady = s.boutReady := rfl
@[simp] theorem pqInsert_rst (n : NodeIdx) (s : State) : (pqInsert n s).rst = s.rst := rfl
@[simp] theorem pqInsert_responses (n : NodeIdx) (s : State) : (pqInsert n s).responses = s.responses := rfl
@[simp] theorem pqInsert_host (n : NodeIdx) (s : State) : (pqInsert n s).host = s.host := rfl
@[simp] theorem pqInsert_hold (n : NodeIdx) (s : State) : (pqInsert n s).hold = s.hold := rfl
@[simp] theorem pqInsert_freeCtr (n : NodeIdx) (s : State) : (pqInsert n s).freeCtr = s.freeCtr := rfl

/-! ### drawFree -/

@[simp] theorem drawFree_busy (s : State) : (drawFree s).busy = s.busy := rfl
@[simp] theorem drawFree_done (s : State) : (drawFree s).done = s.done := rfl
@[simp] theorem drawFree_err (s : State) : (drawFree s).err = s.err := rfl
@[simp] theorem drawFree_ovr (s : State) : (drawFree s).ovr = s.ovr := rfl
@[simp] theorem drawFree_treeValid (s : State) : (drawFree s).treeValid = s.treeValid := rfl
@[simp] theorem drawFree_ctReady (s : State) : (drawFree s).ctReady = s.ctReady := rfl
@[simp] theorem drawFree_errCode (s : State) : (drawFree s).errCode = s.errCode := rfl
@[simp] theorem drawFree_irqEn (s : State) : (drawFree s).irqEn = s.irqEn := rfl
@[simp] theorem drawFree_errInfo (s : State) : (drawFree s).errInfo = s.errInfo := rfl
@[simp] theorem drawFree_bitCount (s : State) : (drawFree s).bitCount = s.bitCount := rfl
@[simp] theorem drawFree_byteCount (s : State) : (drawFree s).byteCount = s.byteCount := rfl
@[simp] theorem drawFree_root (s : State) : (drawFree s).root = s.root := rfl
@[simp] theorem drawFree_nodeCnt (s : State) : (drawFree s).nodeCnt = s.nodeCnt := rfl
@[simp] theorem drawFree_ftIdx (s : State) : (drawFree s).ftIdx = s.ftIdx := rfl
@[simp] theorem drawFree_ctIdx (s : State) : (drawFree s).ctIdx = s.ctIdx := rfl
@[simp] theorem drawFree_nodeIdx (s : State) : (drawFree s).nodeIdx = s.nodeIdx := rfl
@[simp] theorem drawFree_ft (s : State) : (drawFree s).ft = s.ft := rfl
@[simp] theorem drawFree_node (s : State) : (drawFree s).node = s.node := rfl
@[simp] theorem drawFree_pq (s : State) : (drawFree s).pq = s.pq := rfl
@[simp] theorem drawFree_ct (s : State) : (drawFree s).ct = s.ct := rfl
@[simp] theorem drawFree_walk (s : State) : (drawFree s).walk = s.walk := rfl
@[simp] theorem drawFree_seq (s : State) : (drawFree s).seq = s.seq := rfl
@[simp] theorem drawFree_yin (s : State) : (drawFree s).yin = s.yin := rfl
@[simp] theorem drawFree_bin (s : State) : (drawFree s).bin = s.bin := rfl
@[simp] theorem drawFree_yinLeft (s : State) : (drawFree s).yinLeft = s.yinLeft := rfl
@[simp] theorem drawFree_binLeft (s : State) : (drawFree s).binLeft = s.binLeft := rfl
@[simp] theorem drawFree_yinBack (s : State) : (drawFree s).yinBack = s.yinBack := rfl
@[simp] theorem drawFree_binBack (s : State) : (drawFree s).binBack = s.binBack := rfl
@[simp] theorem drawFree_yout (s : State) : (drawFree s).yout = s.yout := rfl
@[simp] theorem drawFree_bout (s : State) : (drawFree s).bout = s.bout := rfl
@[simp] theorem drawFree_youtReady (s : State) : (drawFree s).youtReady = s.youtReady := rfl
@[simp] theorem drawFree_boutReady (s : State) : (drawFree s).boutReady = s.boutReady := rfl
@[simp] theorem drawFree_rst (s : State) : (drawFree s).rst = s.rst := rfl
@[simp] theorem drawFree_responses (s : State) : (drawFree s).responses = s.responses := rfl
@[simp] theorem drawFree_host (s : State) : (drawFree s).host = s.host := rfl
@[simp] theorem drawFree_hold (s : State) : (drawFree s).hold = s.hold := rfl
@[simp] theorem drawFree_freeCtr (s : State) : (drawFree s).freeCtr = s.freeCtr + 1 := rfl

/-! ### pushWalk -/

@[simp] theorem pushWalk_busy (n : NodeIdx) (p : Path) (s : State) : (pushWalk n p s).busy = s.busy := rfl
@[simp] theorem pushWalk_done (n : NodeIdx) (p : Path) (s : State) : (pushWalk n p s).done = s.done := rfl
@[simp] theorem pushWalk_err (n : NodeIdx) (p : Path) (s : State) : (pushWalk n p s).err = s.err := rfl
@[simp] theorem pushWalk_ovr (n : NodeIdx) (p : Path) (s : State) : (pushWalk n p s).ovr = s.ovr := rfl
@[simp] theorem pushWalk_treeValid (n : NodeIdx) (p : Path) (s : State) : (pushWalk n p s).treeValid = s.treeValid := rfl
@[simp] theorem pushWalk_ctReady (n : NodeIdx) (p : Path) (s : State) : (pushWalk n p s).ctReady = s.ctReady := rfl
@[simp] theorem pushWalk_errCode (n : NodeIdx) (p : Path) (s : State) : (pushWalk n p s).errCode = s.errCode := rfl
@[simp] theorem pushWalk_irqEn (n : NodeIdx) (p : Path) (s : State) : (pushWalk n p s).irqEn = s.irqEn := rfl
@[simp] theorem pushWalk_errInfo (n : NodeIdx) (p : Path) (s : State) : (pushWalk n p s).errInfo = s.errInfo := rfl
@[simp] theorem pushWalk_bitCount (n : NodeIdx) (p : Path) (s : State) : (pushWalk n p s).bitCount = s.bitCount := rfl
@[simp] theorem pushWalk_byteCount (n : NodeIdx) (p : Path) (s : State) : (pushWalk n p s).byteCount = s.byteCount := rfl
@[simp] theorem pushWalk_root (n : NodeIdx) (p : Path) (s : State) : (pushWalk n p s).root = s.root := rfl
@[simp] theorem pushWalk_nodeCnt (n : NodeIdx) (p : Path) (s : State) : (pushWalk n p s).nodeCnt = s.nodeCnt := rfl
@[simp] theorem pushWalk_ftIdx (n : NodeIdx) (p : Path) (s : State) : (pushWalk n p s).ftIdx = s.ftIdx := rfl
@[simp] theorem pushWalk_ctIdx (n : NodeIdx) (p : Path) (s : State) : (pushWalk n p s).ctIdx = s.ctIdx := rfl
@[simp] theorem pushWalk_nodeIdx (n : NodeIdx) (p : Path) (s : State) : (pushWalk n p s).nodeIdx = s.nodeIdx := rfl
@[simp] theorem pushWalk_ft (n : NodeIdx) (p : Path) (s : State) : (pushWalk n p s).ft = s.ft := rfl
@[simp] theorem pushWalk_node (n : NodeIdx) (p : Path) (s : State) : (pushWalk n p s).node = s.node := rfl
@[simp] theorem pushWalk_pq (n : NodeIdx) (p : Path) (s : State) : (pushWalk n p s).pq = s.pq := rfl
@[simp] theorem pushWalk_ct (n : NodeIdx) (p : Path) (s : State) : (pushWalk n p s).ct = s.ct := rfl
@[simp] theorem pushWalk_walk (n : NodeIdx) (p : Path) (s : State) : (pushWalk n p s).walk = (n, p) :: s.walk := rfl
@[simp] theorem pushWalk_seq (n : NodeIdx) (p : Path) (s : State) : (pushWalk n p s).seq = s.seq := rfl
@[simp] theorem pushWalk_yin (n : NodeIdx) (p : Path) (s : State) : (pushWalk n p s).yin = s.yin := rfl
@[simp] theorem pushWalk_bin (n : NodeIdx) (p : Path) (s : State) : (pushWalk n p s).bin = s.bin := rfl
@[simp] theorem pushWalk_yinLeft (n : NodeIdx) (p : Path) (s : State) : (pushWalk n p s).yinLeft = s.yinLeft := rfl
@[simp] theorem pushWalk_binLeft (n : NodeIdx) (p : Path) (s : State) : (pushWalk n p s).binLeft = s.binLeft := rfl
@[simp] theorem pushWalk_yinBack (n : NodeIdx) (p : Path) (s : State) : (pushWalk n p s).yinBack = s.yinBack := rfl
@[simp] theorem pushWalk_binBack (n : NodeIdx) (p : Path) (s : State) : (pushWalk n p s).binBack = s.binBack := rfl
@[simp] theorem pushWalk_yout (n : NodeIdx) (p : Path) (s : State) : (pushWalk n p s).yout = s.yout := rfl
@[simp] theorem pushWalk_bout (n : NodeIdx) (p : Path) (s : State) : (pushWalk n p s).bout = s.bout := rfl
@[simp] theorem pushWalk_youtReady (n : NodeIdx) (p : Path) (s : State) : (pushWalk n p s).youtReady = s.youtReady := rfl
@[simp] theorem pushWalk_boutReady (n : NodeIdx) (p : Path) (s : State) : (pushWalk n p s).boutReady = s.boutReady := rfl
@[simp] theorem pushWalk_rst (n : NodeIdx) (p : Path) (s : State) : (pushWalk n p s).rst = s.rst := rfl
@[simp] theorem pushWalk_responses (n : NodeIdx) (p : Path) (s : State) : (pushWalk n p s).responses = s.responses := rfl
@[simp] theorem pushWalk_host (n : NodeIdx) (p : Path) (s : State) : (pushWalk n p s).host = s.host := rfl
@[simp] theorem pushWalk_hold (n : NodeIdx) (p : Path) (s : State) : (pushWalk n p s).hold = s.hold := rfl
@[simp] theorem pushWalk_freeCtr (n : NodeIdx) (p : Path) (s : State) : (pushWalk n p s).freeCtr = s.freeCtr := rfl

/-! ### popWalk -/

@[simp] theorem popWalk_busy (r : List (NodeIdx × Path)) (s : State) : (popWalk r s).busy = s.busy := rfl
@[simp] theorem popWalk_done (r : List (NodeIdx × Path)) (s : State) : (popWalk r s).done = s.done := rfl
@[simp] theorem popWalk_err (r : List (NodeIdx × Path)) (s : State) : (popWalk r s).err = s.err := rfl
@[simp] theorem popWalk_ovr (r : List (NodeIdx × Path)) (s : State) : (popWalk r s).ovr = s.ovr := rfl
@[simp] theorem popWalk_treeValid (r : List (NodeIdx × Path)) (s : State) : (popWalk r s).treeValid = s.treeValid := rfl
@[simp] theorem popWalk_ctReady (r : List (NodeIdx × Path)) (s : State) : (popWalk r s).ctReady = s.ctReady := rfl
@[simp] theorem popWalk_errCode (r : List (NodeIdx × Path)) (s : State) : (popWalk r s).errCode = s.errCode := rfl
@[simp] theorem popWalk_irqEn (r : List (NodeIdx × Path)) (s : State) : (popWalk r s).irqEn = s.irqEn := rfl
@[simp] theorem popWalk_errInfo (r : List (NodeIdx × Path)) (s : State) : (popWalk r s).errInfo = s.errInfo := rfl
@[simp] theorem popWalk_bitCount (r : List (NodeIdx × Path)) (s : State) : (popWalk r s).bitCount = s.bitCount := rfl
@[simp] theorem popWalk_byteCount (r : List (NodeIdx × Path)) (s : State) : (popWalk r s).byteCount = s.byteCount := rfl
@[simp] theorem popWalk_root (r : List (NodeIdx × Path)) (s : State) : (popWalk r s).root = s.root := rfl
@[simp] theorem popWalk_nodeCnt (r : List (NodeIdx × Path)) (s : State) : (popWalk r s).nodeCnt = s.nodeCnt := rfl
@[simp] theorem popWalk_ftIdx (r : List (NodeIdx × Path)) (s : State) : (popWalk r s).ftIdx = s.ftIdx := rfl
@[simp] theorem popWalk_ctIdx (r : List (NodeIdx × Path)) (s : State) : (popWalk r s).ctIdx = s.ctIdx := rfl
@[simp] theorem popWalk_nodeIdx (r : List (NodeIdx × Path)) (s : State) : (popWalk r s).nodeIdx = s.nodeIdx := rfl
@[simp] theorem popWalk_ft (r : List (NodeIdx × Path)) (s : State) : (popWalk r s).ft = s.ft := rfl
@[simp] theorem popWalk_node (r : List (NodeIdx × Path)) (s : State) : (popWalk r s).node = s.node := rfl
@[simp] theorem popWalk_pq (r : List (NodeIdx × Path)) (s : State) : (popWalk r s).pq = s.pq := rfl
@[simp] theorem popWalk_ct (r : List (NodeIdx × Path)) (s : State) : (popWalk r s).ct = s.ct := rfl
@[simp] theorem popWalk_walk (r : List (NodeIdx × Path)) (s : State) : (popWalk r s).walk = r := rfl
@[simp] theorem popWalk_seq (r : List (NodeIdx × Path)) (s : State) : (popWalk r s).seq = s.seq := rfl
@[simp] theorem popWalk_yin (r : List (NodeIdx × Path)) (s : State) : (popWalk r s).yin = s.yin := rfl
@[simp] theorem popWalk_bin (r : List (NodeIdx × Path)) (s : State) : (popWalk r s).bin = s.bin := rfl
@[simp] theorem popWalk_yinLeft (r : List (NodeIdx × Path)) (s : State) : (popWalk r s).yinLeft = s.yinLeft := rfl
@[simp] theorem popWalk_binLeft (r : List (NodeIdx × Path)) (s : State) : (popWalk r s).binLeft = s.binLeft := rfl
@[simp] theorem popWalk_yinBack (r : List (NodeIdx × Path)) (s : State) : (popWalk r s).yinBack = s.yinBack := rfl
@[simp] theorem popWalk_binBack (r : List (NodeIdx × Path)) (s : State) : (popWalk r s).binBack = s.binBack := rfl
@[simp] theorem popWalk_yout (r : List (NodeIdx × Path)) (s : State) : (popWalk r s).yout = s.yout := rfl
@[simp] theorem popWalk_bout (r : List (NodeIdx × Path)) (s : State) : (popWalk r s).bout = s.bout := rfl
@[simp] theorem popWalk_youtReady (r : List (NodeIdx × Path)) (s : State) : (popWalk r s).youtReady = s.youtReady := rfl
@[simp] theorem popWalk_boutReady (r : List (NodeIdx × Path)) (s : State) : (popWalk r s).boutReady = s.boutReady := rfl
@[simp] theorem popWalk_rst (r : List (NodeIdx × Path)) (s : State) : (popWalk r s).rst = s.rst := rfl
@[simp] theorem popWalk_responses (r : List (NodeIdx × Path)) (s : State) : (popWalk r s).responses = s.responses := rfl
@[simp] theorem popWalk_host (r : List (NodeIdx × Path)) (s : State) : (popWalk r s).host = s.host := rfl
@[simp] theorem popWalk_hold (r : List (NodeIdx × Path)) (s : State) : (popWalk r s).hold = s.hold := rfl
@[simp] theorem popWalk_freeCtr (r : List (NodeIdx × Path)) (s : State) : (popWalk r s).freeCtr = s.freeCtr := rfl

/-! ### setCtReady -/

@[simp] theorem setCtReady_busy (s : State) : (setCtReady s).busy = s.busy := rfl
@[simp] theorem setCtReady_done (s : State) : (setCtReady s).done = s.done := rfl
@[simp] theorem setCtReady_err (s : State) : (setCtReady s).err = s.err := rfl
@[simp] theorem setCtReady_ovr (s : State) : (setCtReady s).ovr = s.ovr := rfl
@[simp] theorem setCtReady_treeValid (s : State) : (setCtReady s).treeValid = s.treeValid := rfl
@[simp] theorem setCtReady_ctReady (s : State) : (setCtReady s).ctReady = true := rfl
@[simp] theorem setCtReady_errCode (s : State) : (setCtReady s).errCode = s.errCode := rfl
@[simp] theorem setCtReady_irqEn (s : State) : (setCtReady s).irqEn = s.irqEn := rfl
@[simp] theorem setCtReady_errInfo (s : State) : (setCtReady s).errInfo = s.errInfo := rfl
@[simp] theorem setCtReady_bitCount (s : State) : (setCtReady s).bitCount = s.bitCount := rfl
@[simp] theorem setCtReady_byteCount (s : State) : (setCtReady s).byteCount = s.byteCount := rfl
@[simp] theorem setCtReady_root (s : State) : (setCtReady s).root = s.root := rfl
@[simp] theorem setCtReady_nodeCnt (s : State) : (setCtReady s).nodeCnt = s.nodeCnt := rfl
@[simp] theorem setCtReady_ftIdx (s : State) : (setCtReady s).ftIdx = s.ftIdx := rfl
@[simp] theorem setCtReady_ctIdx (s : State) : (setCtReady s).ctIdx = s.ctIdx := rfl
@[simp] theorem setCtReady_nodeIdx (s : State) : (setCtReady s).nodeIdx = s.nodeIdx := rfl
@[simp] theorem setCtReady_ft (s : State) : (setCtReady s).ft = s.ft := rfl
@[simp] theorem setCtReady_node (s : State) : (setCtReady s).node = s.node := rfl
@[simp] theorem setCtReady_pq (s : State) : (setCtReady s).pq = s.pq := rfl
@[simp] theorem setCtReady_ct (s : State) : (setCtReady s).ct = s.ct := rfl
@[simp] theorem setCtReady_walk (s : State) : (setCtReady s).walk = s.walk := rfl
@[simp] theorem setCtReady_seq (s : State) : (setCtReady s).seq = s.seq := rfl
@[simp] theorem setCtReady_yin (s : State) : (setCtReady s).yin = s.yin := rfl
@[simp] theorem setCtReady_bin (s : State) : (setCtReady s).bin = s.bin := rfl
@[simp] theorem setCtReady_yinLeft (s : State) : (setCtReady s).yinLeft = s.yinLeft := rfl
@[simp] theorem setCtReady_binLeft (s : State) : (setCtReady s).binLeft = s.binLeft := rfl
@[simp] theorem setCtReady_yinBack (s : State) : (setCtReady s).yinBack = s.yinBack := rfl
@[simp] theorem setCtReady_binBack (s : State) : (setCtReady s).binBack = s.binBack := rfl
@[simp] theorem setCtReady_yout (s : State) : (setCtReady s).yout = s.yout := rfl
@[simp] theorem setCtReady_bout (s : State) : (setCtReady s).bout = s.bout := rfl
@[simp] theorem setCtReady_youtReady (s : State) : (setCtReady s).youtReady = s.youtReady := rfl
@[simp] theorem setCtReady_boutReady (s : State) : (setCtReady s).boutReady = s.boutReady := rfl
@[simp] theorem setCtReady_rst (s : State) : (setCtReady s).rst = s.rst := rfl
@[simp] theorem setCtReady_responses (s : State) : (setCtReady s).responses = s.responses := rfl
@[simp] theorem setCtReady_host (s : State) : (setCtReady s).host = s.host := rfl
@[simp] theorem setCtReady_hold (s : State) : (setCtReady s).hold = s.hold := rfl
@[simp] theorem setCtReady_freeCtr (s : State) : (setCtReady s).freeCtr = s.freeCtr := rfl

/-! ### setRoot -/

@[simp] theorem setRoot_busy (r : NodeIdx) (s : State) : (setRoot r s).busy = s.busy := rfl
@[simp] theorem setRoot_done (r : NodeIdx) (s : State) : (setRoot r s).done = s.done := rfl
@[simp] theorem setRoot_err (r : NodeIdx) (s : State) : (setRoot r s).err = s.err := rfl
@[simp] theorem setRoot_ovr (r : NodeIdx) (s : State) : (setRoot r s).ovr = s.ovr := rfl
@[simp] theorem setRoot_treeValid (r : NodeIdx) (s : State) : (setRoot r s).treeValid = true := rfl
@[simp] theorem setRoot_ctReady (r : NodeIdx) (s : State) : (setRoot r s).ctReady = s.ctReady := rfl
@[simp] theorem setRoot_errCode (r : NodeIdx) (s : State) : (setRoot r s).errCode = s.errCode := rfl
@[simp] theorem setRoot_irqEn (r : NodeIdx) (s : State) : (setRoot r s).irqEn = s.irqEn := rfl
@[simp] theorem setRoot_errInfo (r : NodeIdx) (s : State) : (setRoot r s).errInfo = s.errInfo := rfl
@[simp] theorem setRoot_bitCount (r : NodeIdx) (s : State) : (setRoot r s).bitCount = s.bitCount := rfl
@[simp] theorem setRoot_byteCount (r : NodeIdx) (s : State) : (setRoot r s).byteCount = s.byteCount := rfl
@[simp] theorem setRoot_root (r : NodeIdx) (s : State) : (setRoot r s).root = r := rfl
@[simp] theorem setRoot_nodeCnt (r : NodeIdx) (s : State) : (setRoot r s).nodeCnt = s.nodeCnt := rfl
@[simp] theorem setRoot_ftIdx (r : NodeIdx) (s : State) : (setRoot r s).ftIdx = s.ftIdx := rfl
@[simp] theorem setRoot_ctIdx (r : NodeIdx) (s : State) : (setRoot r s).ctIdx = s.ctIdx := rfl
@[simp] theorem setRoot_nodeIdx (r : NodeIdx) (s : State) : (setRoot r s).nodeIdx = s.nodeIdx := rfl
@[simp] theorem setRoot_ft (r : NodeIdx) (s : State) : (setRoot r s).ft = s.ft := rfl
@[simp] theorem setRoot_node (r : NodeIdx) (s : State) : (setRoot r s).node = s.node := rfl
@[simp] theorem setRoot_pq (r : NodeIdx) (s : State) : (setRoot r s).pq = s.pq := rfl
@[simp] theorem setRoot_ct (r : NodeIdx) (s : State) : (setRoot r s).ct = s.ct := rfl
@[simp] theorem setRoot_walk (r : NodeIdx) (s : State) : (setRoot r s).walk = s.walk := rfl
@[simp] theorem setRoot_seq (r : NodeIdx) (s : State) : (setRoot r s).seq = s.seq := rfl
@[simp] theorem setRoot_yin (r : NodeIdx) (s : State) : (setRoot r s).yin = s.yin := rfl
@[simp] theorem setRoot_bin (r : NodeIdx) (s : State) : (setRoot r s).bin = s.bin := rfl
@[simp] theorem setRoot_yinLeft (r : NodeIdx) (s : State) : (setRoot r s).yinLeft = s.yinLeft := rfl
@[simp] theorem setRoot_binLeft (r : NodeIdx) (s : State) : (setRoot r s).binLeft = s.binLeft := rfl
@[simp] theorem setRoot_yinBack (r : NodeIdx) (s : State) : (setRoot r s).yinBack = s.yinBack := rfl
@[simp] theorem setRoot_binBack (r : NodeIdx) (s : State) : (setRoot r s).binBack = s.binBack := rfl
@[simp] theorem setRoot_yout (r : NodeIdx) (s : State) : (setRoot r s).yout = s.yout := rfl
@[simp] theorem setRoot_bout (r : NodeIdx) (s : State) : (setRoot r s).bout = s.bout := rfl
@[simp] theorem setRoot_youtReady (r : NodeIdx) (s : State) : (setRoot r s).youtReady = s.youtReady := rfl
@[simp] theorem setRoot_boutReady (r : NodeIdx) (s : State) : (setRoot r s).boutReady = s.boutReady := rfl
@[simp] theorem setRoot_rst (r : NodeIdx) (s : State) : (setRoot r s).rst = s.rst := rfl
@[simp] theorem setRoot_responses (r : NodeIdx) (s : State) : (setRoot r s).responses = s.responses := rfl
@[simp] theorem setRoot_host (r : NodeIdx) (s : State) : (setRoot r s).host = s.host := rfl
@[simp] theorem setRoot_hold (r : NodeIdx) (s : State) : (setRoot r s).hold = s.hold := rfl
@[simp] theorem setRoot_freeCtr (r : NodeIdx) (s : State) : (setRoot r s).freeCtr = s.freeCtr := rfl

/-! ### startBuild -/

@[simp] theorem startBuild_busy (s : State) : (startBuild s).busy = s.busy := rfl
@[simp] theorem startBuild_done (s : State) : (startBuild s).done = s.done := rfl
@[simp] theorem startBuild_err (s : State) : (startBuild s).err = s.err := rfl
@[simp] theorem startBuild_ovr (s : State) : (startBuild s).ovr = s.ovr := rfl
@[simp] theorem startBuild_treeValid (s : State) : (startBuild s).treeValid = false := rfl
@[simp] theorem startBuild_ctReady (s : State) : (startBuild s).ctReady = false := rfl
@[simp] theorem startBuild_errCode (s : State) : (startBuild s).errCode = s.errCode := rfl
@[simp] theorem startBuild_irqEn (s : State) : (startBuild s).irqEn = s.irqEn := rfl
@[simp] theorem startBuild_errInfo (s : State) : (startBuild s).errInfo = s.errInfo := rfl
@[simp] theorem startBuild_bitCount (s : State) : (startBuild s).bitCount = s.bitCount := rfl
@[simp] theorem startBuild_byteCount (s : State) : (startBuild s).byteCount = s.byteCount := rfl
@[simp] theorem startBuild_root (s : State) : (startBuild s).root = 0 := rfl
@[simp] theorem startBuild_nodeCnt (s : State) : (startBuild s).nodeCnt = 0 := rfl
@[simp] theorem startBuild_ftIdx (s : State) : (startBuild s).ftIdx = s.ftIdx := rfl
@[simp] theorem startBuild_ctIdx (s : State) : (startBuild s).ctIdx = s.ctIdx := rfl
@[simp] theorem startBuild_nodeIdx (s : State) : (startBuild s).nodeIdx = s.nodeIdx := rfl
@[simp] theorem startBuild_ft (s : State) : (startBuild s).ft = s.ft := rfl
@[simp] theorem startBuild_node (s : State) : (startBuild s).node = s.node := rfl
@[simp] theorem startBuild_pq (s : State) : (startBuild s).pq = [] := rfl
@[simp] theorem startBuild_ct (s : State) : (startBuild s).ct = Vector.replicate 257 none := rfl
@[simp] theorem startBuild_walk (s : State) : (startBuild s).walk = s.walk := rfl
@[simp] theorem startBuild_seq (s : State) : (startBuild s).seq = s.seq := rfl
@[simp] theorem startBuild_yin (s : State) : (startBuild s).yin = s.yin := rfl
@[simp] theorem startBuild_bin (s : State) : (startBuild s).bin = s.bin := rfl
@[simp] theorem startBuild_yinLeft (s : State) : (startBuild s).yinLeft = s.yinLeft := rfl
@[simp] theorem startBuild_binLeft (s : State) : (startBuild s).binLeft = s.binLeft := rfl
@[simp] theorem startBuild_yinBack (s : State) : (startBuild s).yinBack = s.yinBack := rfl
@[simp] theorem startBuild_binBack (s : State) : (startBuild s).binBack = s.binBack := rfl
@[simp] theorem startBuild_yout (s : State) : (startBuild s).yout = s.yout := rfl
@[simp] theorem startBuild_bout (s : State) : (startBuild s).bout = s.bout := rfl
@[simp] theorem startBuild_youtReady (s : State) : (startBuild s).youtReady = s.youtReady := rfl
@[simp] theorem startBuild_boutReady (s : State) : (startBuild s).boutReady = s.boutReady := rfl
@[simp] theorem startBuild_rst (s : State) : (startBuild s).rst = s.rst := rfl
@[simp] theorem startBuild_responses (s : State) : (startBuild s).responses = s.responses := rfl
@[simp] theorem startBuild_host (s : State) : (startBuild s).host = s.host := rfl
@[simp] theorem startBuild_hold (s : State) : (startBuild s).hold = s.hold := rfl
@[simp] theorem startBuild_freeCtr (s : State) : (startBuild s).freeCtr = s.freeCtr := rfl

/-! ### leaveYin -/

@[simp] theorem leaveYin_busy (s : State) : (leaveYin s).busy = s.busy := rfl
@[simp] theorem leaveYin_done (s : State) : (leaveYin s).done = s.done := rfl
@[simp] theorem leaveYin_err (s : State) : (leaveYin s).err = s.err := rfl
@[simp] theorem leaveYin_ovr (s : State) : (leaveYin s).ovr = s.ovr := rfl
@[simp] theorem leaveYin_treeValid (s : State) : (leaveYin s).treeValid = s.treeValid := rfl
@[simp] theorem leaveYin_ctReady (s : State) : (leaveYin s).ctReady = s.ctReady := rfl
@[simp] theorem leaveYin_errCode (s : State) : (leaveYin s).errCode = s.errCode := rfl
@[simp] theorem leaveYin_irqEn (s : State) : (leaveYin s).irqEn = s.irqEn := rfl
@[simp] theorem leaveYin_errInfo (s : State) : (leaveYin s).errInfo = s.errInfo := rfl
@[simp] theorem leaveYin_bitCount (s : State) : (leaveYin s).bitCount = s.bitCount := rfl
@[simp] theorem leaveYin_byteCount (s : State) : (leaveYin s).byteCount = s.byteCount := rfl
@[simp] theorem leaveYin_root (s : State) : (leaveYin s).root = s.root := rfl
@[simp] theorem leaveYin_nodeCnt (s : State) : (leaveYin s).nodeCnt = s.nodeCnt := rfl
@[simp] theorem leaveYin_ftIdx (s : State) : (leaveYin s).ftIdx = s.ftIdx := rfl
@[simp] theorem leaveYin_ctIdx (s : State) : (leaveYin s).ctIdx = s.ctIdx := rfl
@[simp] theorem leaveYin_nodeIdx (s : State) : (leaveYin s).nodeIdx = s.nodeIdx := rfl
@[simp] theorem leaveYin_ft (s : State) : (leaveYin s).ft = s.ft := rfl
@[simp] theorem leaveYin_node (s : State) : (leaveYin s).node = s.node := rfl
@[simp] theorem leaveYin_pq (s : State) : (leaveYin s).pq = s.pq := rfl
@[simp] theorem leaveYin_ct (s : State) : (leaveYin s).ct = s.ct := rfl
@[simp] theorem leaveYin_walk (s : State) : (leaveYin s).walk = s.walk := rfl
@[simp] theorem leaveYin_seq (s : State) : (leaveYin s).seq = s.seq := rfl
@[simp] theorem leaveYin_yin (s : State) : (leaveYin s).yin = s.yin := rfl
@[simp] theorem leaveYin_bin (s : State) : (leaveYin s).bin = s.bin := rfl
@[simp] theorem leaveYin_yinLeft (s : State) : (leaveYin s).yinLeft = s.yin.length := rfl
@[simp] theorem leaveYin_binLeft (s : State) : (leaveYin s).binLeft = s.binLeft := rfl
@[simp] theorem leaveYin_yinBack (s : State) : (leaveYin s).yinBack = s.yinBack := rfl
@[simp] theorem leaveYin_binBack (s : State) : (leaveYin s).binBack = s.binBack := rfl
@[simp] theorem leaveYin_yout (s : State) : (leaveYin s).yout = s.yout := rfl
@[simp] theorem leaveYin_bout (s : State) : (leaveYin s).bout = s.bout := rfl
@[simp] theorem leaveYin_youtReady (s : State) : (leaveYin s).youtReady = s.youtReady := rfl
@[simp] theorem leaveYin_boutReady (s : State) : (leaveYin s).boutReady = s.boutReady := rfl
@[simp] theorem leaveYin_rst (s : State) : (leaveYin s).rst = s.rst := rfl
@[simp] theorem leaveYin_responses (s : State) : (leaveYin s).responses = s.responses := rfl
@[simp] theorem leaveYin_host (s : State) : (leaveYin s).host = s.host := rfl
@[simp] theorem leaveYin_hold (s : State) : (leaveYin s).hold = s.hold := rfl
@[simp] theorem leaveYin_freeCtr (s : State) : (leaveYin s).freeCtr = s.freeCtr := rfl

/-! ### leaveBin -/

@[simp] theorem leaveBin_busy (s : State) : (leaveBin s).busy = s.busy := rfl
@[simp] theorem leaveBin_done (s : State) : (leaveBin s).done = s.done := rfl
@[simp] theorem leaveBin_err (s : State) : (leaveBin s).err = s.err := rfl
@[simp] theorem leaveBin_ovr (s : State) : (leaveBin s).ovr = s.ovr := rfl
@[simp] theorem leaveBin_treeValid (s : State) : (leaveBin s).treeValid = s.treeValid := rfl
@[simp] theorem leaveBin_ctReady (s : State) : (leaveBin s).ctReady = s.ctReady := rfl
@[simp] theorem leaveBin_errCode (s : State) : (leaveBin s).errCode = s.errCode := rfl
@[simp] theorem leaveBin_irqEn (s : State) : (leaveBin s).irqEn = s.irqEn := rfl
@[simp] theorem leaveBin_errInfo (s : State) : (leaveBin s).errInfo = s.errInfo := rfl
@[simp] theorem leaveBin_bitCount (s : State) : (leaveBin s).bitCount = s.bitCount := rfl
@[simp] theorem leaveBin_byteCount (s : State) : (leaveBin s).byteCount = s.byteCount := rfl
@[simp] theorem leaveBin_root (s : State) : (leaveBin s).root = s.root := rfl
@[simp] theorem leaveBin_nodeCnt (s : State) : (leaveBin s).nodeCnt = s.nodeCnt := rfl
@[simp] theorem leaveBin_ftIdx (s : State) : (leaveBin s).ftIdx = s.ftIdx := rfl
@[simp] theorem leaveBin_ctIdx (s : State) : (leaveBin s).ctIdx = s.ctIdx := rfl
@[simp] theorem leaveBin_nodeIdx (s : State) : (leaveBin s).nodeIdx = s.nodeIdx := rfl
@[simp] theorem leaveBin_ft (s : State) : (leaveBin s).ft = s.ft := rfl
@[simp] theorem leaveBin_node (s : State) : (leaveBin s).node = s.node := rfl
@[simp] theorem leaveBin_pq (s : State) : (leaveBin s).pq = s.pq := rfl
@[simp] theorem leaveBin_ct (s : State) : (leaveBin s).ct = s.ct := rfl
@[simp] theorem leaveBin_walk (s : State) : (leaveBin s).walk = s.walk := rfl
@[simp] theorem leaveBin_seq (s : State) : (leaveBin s).seq = s.seq := rfl
@[simp] theorem leaveBin_yin (s : State) : (leaveBin s).yin = s.yin := rfl
@[simp] theorem leaveBin_bin (s : State) : (leaveBin s).bin = s.bin := rfl
@[simp] theorem leaveBin_yinLeft (s : State) : (leaveBin s).yinLeft = s.yinLeft := rfl
@[simp] theorem leaveBin_binLeft (s : State) : (leaveBin s).binLeft = s.bin.length := rfl
@[simp] theorem leaveBin_yinBack (s : State) : (leaveBin s).yinBack = s.yinBack := rfl
@[simp] theorem leaveBin_binBack (s : State) : (leaveBin s).binBack = s.binBack := rfl
@[simp] theorem leaveBin_yout (s : State) : (leaveBin s).yout = s.yout := rfl
@[simp] theorem leaveBin_bout (s : State) : (leaveBin s).bout = s.bout := rfl
@[simp] theorem leaveBin_youtReady (s : State) : (leaveBin s).youtReady = s.youtReady := rfl
@[simp] theorem leaveBin_boutReady (s : State) : (leaveBin s).boutReady = s.boutReady := rfl
@[simp] theorem leaveBin_rst (s : State) : (leaveBin s).rst = s.rst := rfl
@[simp] theorem leaveBin_responses (s : State) : (leaveBin s).responses = s.responses := rfl
@[simp] theorem leaveBin_host (s : State) : (leaveBin s).host = s.host := rfl
@[simp] theorem leaveBin_hold (s : State) : (leaveBin s).hold = s.hold := rfl
@[simp] theorem leaveBin_freeCtr (s : State) : (leaveBin s).freeCtr = s.freeCtr := rfl

/-! ### spendYin -/

@[simp] theorem spendYin_busy (s : State) : (spendYin s).busy = s.busy := rfl
@[simp] theorem spendYin_done (s : State) : (spendYin s).done = s.done := rfl
@[simp] theorem spendYin_err (s : State) : (spendYin s).err = s.err := rfl
@[simp] theorem spendYin_ovr (s : State) : (spendYin s).ovr = s.ovr := rfl
@[simp] theorem spendYin_treeValid (s : State) : (spendYin s).treeValid = s.treeValid := rfl
@[simp] theorem spendYin_ctReady (s : State) : (spendYin s).ctReady = s.ctReady := rfl
@[simp] theorem spendYin_errCode (s : State) : (spendYin s).errCode = s.errCode := rfl
@[simp] theorem spendYin_irqEn (s : State) : (spendYin s).irqEn = s.irqEn := rfl
@[simp] theorem spendYin_errInfo (s : State) : (spendYin s).errInfo = s.errInfo := rfl
@[simp] theorem spendYin_bitCount (s : State) : (spendYin s).bitCount = s.bitCount := rfl
@[simp] theorem spendYin_byteCount (s : State) : (spendYin s).byteCount = s.byteCount := rfl
@[simp] theorem spendYin_root (s : State) : (spendYin s).root = s.root := rfl
@[simp] theorem spendYin_nodeCnt (s : State) : (spendYin s).nodeCnt = s.nodeCnt := rfl
@[simp] theorem spendYin_ftIdx (s : State) : (spendYin s).ftIdx = s.ftIdx := rfl
@[simp] theorem spendYin_ctIdx (s : State) : (spendYin s).ctIdx = s.ctIdx := rfl
@[simp] theorem spendYin_nodeIdx (s : State) : (spendYin s).nodeIdx = s.nodeIdx := rfl
@[simp] theorem spendYin_ft (s : State) : (spendYin s).ft = s.ft := rfl
@[simp] theorem spendYin_node (s : State) : (spendYin s).node = s.node := rfl
@[simp] theorem spendYin_pq (s : State) : (spendYin s).pq = s.pq := rfl
@[simp] theorem spendYin_ct (s : State) : (spendYin s).ct = s.ct := rfl
@[simp] theorem spendYin_walk (s : State) : (spendYin s).walk = s.walk := rfl
@[simp] theorem spendYin_seq (s : State) : (spendYin s).seq = s.seq := rfl
@[simp] theorem spendYin_yin (s : State) : (spendYin s).yin = s.yin := rfl
@[simp] theorem spendYin_bin (s : State) : (spendYin s).bin = s.bin := rfl
@[simp] theorem spendYin_yinLeft (s : State) : (spendYin s).yinLeft = 0 := rfl
@[simp] theorem spendYin_binLeft (s : State) : (spendYin s).binLeft = s.binLeft := rfl
@[simp] theorem spendYin_yinBack (s : State) : (spendYin s).yinBack = s.yinBack := rfl
@[simp] theorem spendYin_binBack (s : State) : (spendYin s).binBack = s.binBack := rfl
@[simp] theorem spendYin_yout (s : State) : (spendYin s).yout = s.yout := rfl
@[simp] theorem spendYin_bout (s : State) : (spendYin s).bout = s.bout := rfl
@[simp] theorem spendYin_youtReady (s : State) : (spendYin s).youtReady = s.youtReady := rfl
@[simp] theorem spendYin_boutReady (s : State) : (spendYin s).boutReady = s.boutReady := rfl
@[simp] theorem spendYin_rst (s : State) : (spendYin s).rst = s.rst := rfl
@[simp] theorem spendYin_responses (s : State) : (spendYin s).responses = s.responses := rfl
@[simp] theorem spendYin_host (s : State) : (spendYin s).host = s.host := rfl
@[simp] theorem spendYin_hold (s : State) : (spendYin s).hold = s.hold := rfl
@[simp] theorem spendYin_freeCtr (s : State) : (spendYin s).freeCtr = s.freeCtr := rfl

/-! ### takeBackYin -/

@[simp] theorem takeBackYin_busy (n : Nat) (s : State) : (takeBackYin n s).busy = s.busy := rfl
@[simp] theorem takeBackYin_done (n : Nat) (s : State) : (takeBackYin n s).done = s.done := rfl
@[simp] theorem takeBackYin_err (n : Nat) (s : State) : (takeBackYin n s).err = s.err := rfl
@[simp] theorem takeBackYin_ovr (n : Nat) (s : State) : (takeBackYin n s).ovr = s.ovr := rfl
@[simp] theorem takeBackYin_treeValid (n : Nat) (s : State) : (takeBackYin n s).treeValid = s.treeValid := rfl
@[simp] theorem takeBackYin_ctReady (n : Nat) (s : State) : (takeBackYin n s).ctReady = s.ctReady := rfl
@[simp] theorem takeBackYin_errCode (n : Nat) (s : State) : (takeBackYin n s).errCode = s.errCode := rfl
@[simp] theorem takeBackYin_irqEn (n : Nat) (s : State) : (takeBackYin n s).irqEn = s.irqEn := rfl
@[simp] theorem takeBackYin_errInfo (n : Nat) (s : State) : (takeBackYin n s).errInfo = s.errInfo := rfl
@[simp] theorem takeBackYin_bitCount (n : Nat) (s : State) : (takeBackYin n s).bitCount = s.bitCount := rfl
@[simp] theorem takeBackYin_byteCount (n : Nat) (s : State) : (takeBackYin n s).byteCount = s.byteCount := rfl
@[simp] theorem takeBackYin_root (n : Nat) (s : State) : (takeBackYin n s).root = s.root := rfl
@[simp] theorem takeBackYin_nodeCnt (n : Nat) (s : State) : (takeBackYin n s).nodeCnt = s.nodeCnt := rfl
@[simp] theorem takeBackYin_ftIdx (n : Nat) (s : State) : (takeBackYin n s).ftIdx = s.ftIdx := rfl
@[simp] theorem takeBackYin_ctIdx (n : Nat) (s : State) : (takeBackYin n s).ctIdx = s.ctIdx := rfl
@[simp] theorem takeBackYin_nodeIdx (n : Nat) (s : State) : (takeBackYin n s).nodeIdx = s.nodeIdx := rfl
@[simp] theorem takeBackYin_ft (n : Nat) (s : State) : (takeBackYin n s).ft = s.ft := rfl
@[simp] theorem takeBackYin_node (n : Nat) (s : State) : (takeBackYin n s).node = s.node := rfl
@[simp] theorem takeBackYin_pq (n : Nat) (s : State) : (takeBackYin n s).pq = s.pq := rfl
@[simp] theorem takeBackYin_ct (n : Nat) (s : State) : (takeBackYin n s).ct = s.ct := rfl
@[simp] theorem takeBackYin_walk (n : Nat) (s : State) : (takeBackYin n s).walk = s.walk := rfl
@[simp] theorem takeBackYin_seq (n : Nat) (s : State) : (takeBackYin n s).seq = s.seq := rfl
@[simp] theorem takeBackYin_yin (n : Nat) (s : State) : (takeBackYin n s).yin = s.yin.drop n := rfl
@[simp] theorem takeBackYin_bin (n : Nat) (s : State) : (takeBackYin n s).bin = s.bin := rfl
@[simp] theorem takeBackYin_yinLeft (n : Nat) (s : State) : (takeBackYin n s).yinLeft = 0 := rfl
@[simp] theorem takeBackYin_binLeft (n : Nat) (s : State) : (takeBackYin n s).binLeft = s.binLeft := rfl
@[simp] theorem takeBackYin_yinBack (n : Nat) (s : State) : (takeBackYin n s).yinBack = s.yinBack ++ s.yin.take n := rfl
@[simp] theorem takeBackYin_binBack (n : Nat) (s : State) : (takeBackYin n s).binBack = s.binBack := rfl
@[simp] theorem takeBackYin_yout (n : Nat) (s : State) : (takeBackYin n s).yout = s.yout := rfl
@[simp] theorem takeBackYin_bout (n : Nat) (s : State) : (takeBackYin n s).bout = s.bout := rfl
@[simp] theorem takeBackYin_youtReady (n : Nat) (s : State) : (takeBackYin n s).youtReady = s.youtReady := rfl
@[simp] theorem takeBackYin_boutReady (n : Nat) (s : State) : (takeBackYin n s).boutReady = s.boutReady := rfl
@[simp] theorem takeBackYin_rst (n : Nat) (s : State) : (takeBackYin n s).rst = s.rst := rfl
@[simp] theorem takeBackYin_responses (n : Nat) (s : State) : (takeBackYin n s).responses = s.responses := rfl
@[simp] theorem takeBackYin_host (n : Nat) (s : State) : (takeBackYin n s).host = s.host := rfl
@[simp] theorem takeBackYin_hold (n : Nat) (s : State) : (takeBackYin n s).hold = s.hold := rfl
@[simp] theorem takeBackYin_freeCtr (n : Nat) (s : State) : (takeBackYin n s).freeCtr = s.freeCtr := rfl

/-! ### takeBackBin -/

@[simp] theorem takeBackBin_busy (n : Nat) (s : State) : (takeBackBin n s).busy = s.busy := rfl
@[simp] theorem takeBackBin_done (n : Nat) (s : State) : (takeBackBin n s).done = s.done := rfl
@[simp] theorem takeBackBin_err (n : Nat) (s : State) : (takeBackBin n s).err = s.err := rfl
@[simp] theorem takeBackBin_ovr (n : Nat) (s : State) : (takeBackBin n s).ovr = s.ovr := rfl
@[simp] theorem takeBackBin_treeValid (n : Nat) (s : State) : (takeBackBin n s).treeValid = s.treeValid := rfl
@[simp] theorem takeBackBin_ctReady (n : Nat) (s : State) : (takeBackBin n s).ctReady = s.ctReady := rfl
@[simp] theorem takeBackBin_errCode (n : Nat) (s : State) : (takeBackBin n s).errCode = s.errCode := rfl
@[simp] theorem takeBackBin_irqEn (n : Nat) (s : State) : (takeBackBin n s).irqEn = s.irqEn := rfl
@[simp] theorem takeBackBin_errInfo (n : Nat) (s : State) : (takeBackBin n s).errInfo = s.errInfo := rfl
@[simp] theorem takeBackBin_bitCount (n : Nat) (s : State) : (takeBackBin n s).bitCount = s.bitCount := rfl
@[simp] theorem takeBackBin_byteCount (n : Nat) (s : State) : (takeBackBin n s).byteCount = s.byteCount := rfl
@[simp] theorem takeBackBin_root (n : Nat) (s : State) : (takeBackBin n s).root = s.root := rfl
@[simp] theorem takeBackBin_nodeCnt (n : Nat) (s : State) : (takeBackBin n s).nodeCnt = s.nodeCnt := rfl
@[simp] theorem takeBackBin_ftIdx (n : Nat) (s : State) : (takeBackBin n s).ftIdx = s.ftIdx := rfl
@[simp] theorem takeBackBin_ctIdx (n : Nat) (s : State) : (takeBackBin n s).ctIdx = s.ctIdx := rfl
@[simp] theorem takeBackBin_nodeIdx (n : Nat) (s : State) : (takeBackBin n s).nodeIdx = s.nodeIdx := rfl
@[simp] theorem takeBackBin_ft (n : Nat) (s : State) : (takeBackBin n s).ft = s.ft := rfl
@[simp] theorem takeBackBin_node (n : Nat) (s : State) : (takeBackBin n s).node = s.node := rfl
@[simp] theorem takeBackBin_pq (n : Nat) (s : State) : (takeBackBin n s).pq = s.pq := rfl
@[simp] theorem takeBackBin_ct (n : Nat) (s : State) : (takeBackBin n s).ct = s.ct := rfl
@[simp] theorem takeBackBin_walk (n : Nat) (s : State) : (takeBackBin n s).walk = s.walk := rfl
@[simp] theorem takeBackBin_seq (n : Nat) (s : State) : (takeBackBin n s).seq = s.seq := rfl
@[simp] theorem takeBackBin_yin (n : Nat) (s : State) : (takeBackBin n s).yin = s.yin := rfl
@[simp] theorem takeBackBin_bin (n : Nat) (s : State) : (takeBackBin n s).bin = s.bin.drop n := rfl
@[simp] theorem takeBackBin_yinLeft (n : Nat) (s : State) : (takeBackBin n s).yinLeft = s.yinLeft := rfl
@[simp] theorem takeBackBin_binLeft (n : Nat) (s : State) : (takeBackBin n s).binLeft = 0 := rfl
@[simp] theorem takeBackBin_yinBack (n : Nat) (s : State) : (takeBackBin n s).yinBack = s.yinBack := rfl
@[simp] theorem takeBackBin_binBack (n : Nat) (s : State) : (takeBackBin n s).binBack = s.binBack ++ s.bin.take n := rfl
@[simp] theorem takeBackBin_yout (n : Nat) (s : State) : (takeBackBin n s).yout = s.yout := rfl
@[simp] theorem takeBackBin_bout (n : Nat) (s : State) : (takeBackBin n s).bout = s.bout := rfl
@[simp] theorem takeBackBin_youtReady (n : Nat) (s : State) : (takeBackBin n s).youtReady = s.youtReady := rfl
@[simp] theorem takeBackBin_boutReady (n : Nat) (s : State) : (takeBackBin n s).boutReady = s.boutReady := rfl
@[simp] theorem takeBackBin_rst (n : Nat) (s : State) : (takeBackBin n s).rst = s.rst := rfl
@[simp] theorem takeBackBin_responses (n : Nat) (s : State) : (takeBackBin n s).responses = s.responses := rfl
@[simp] theorem takeBackBin_host (n : Nat) (s : State) : (takeBackBin n s).host = s.host := rfl
@[simp] theorem takeBackBin_hold (n : Nat) (s : State) : (takeBackBin n s).hold = s.hold := rfl
@[simp] theorem takeBackBin_freeCtr (n : Nat) (s : State) : (takeBackBin n s).freeCtr = s.freeCtr := rfl

/-! ### respond -/

@[simp] theorem respond_busy (r : BusResponse) (s : State) : (respond r s).busy = s.busy := rfl
@[simp] theorem respond_done (r : BusResponse) (s : State) : (respond r s).done = s.done := rfl
@[simp] theorem respond_err (r : BusResponse) (s : State) : (respond r s).err = s.err := rfl
@[simp] theorem respond_ovr (r : BusResponse) (s : State) : (respond r s).ovr = s.ovr := rfl
@[simp] theorem respond_treeValid (r : BusResponse) (s : State) : (respond r s).treeValid = s.treeValid := rfl
@[simp] theorem respond_ctReady (r : BusResponse) (s : State) : (respond r s).ctReady = s.ctReady := rfl
@[simp] theorem respond_errCode (r : BusResponse) (s : State) : (respond r s).errCode = s.errCode := rfl
@[simp] theorem respond_irqEn (r : BusResponse) (s : State) : (respond r s).irqEn = s.irqEn := rfl
@[simp] theorem respond_errInfo (r : BusResponse) (s : State) : (respond r s).errInfo = s.errInfo := rfl
@[simp] theorem respond_bitCount (r : BusResponse) (s : State) : (respond r s).bitCount = s.bitCount := rfl
@[simp] theorem respond_byteCount (r : BusResponse) (s : State) : (respond r s).byteCount = s.byteCount := rfl
@[simp] theorem respond_root (r : BusResponse) (s : State) : (respond r s).root = s.root := rfl
@[simp] theorem respond_nodeCnt (r : BusResponse) (s : State) : (respond r s).nodeCnt = s.nodeCnt := rfl
@[simp] theorem respond_ftIdx (r : BusResponse) (s : State) : (respond r s).ftIdx = s.ftIdx := rfl
@[simp] theorem respond_ctIdx (r : BusResponse) (s : State) : (respond r s).ctIdx = s.ctIdx := rfl
@[simp] theorem respond_nodeIdx (r : BusResponse) (s : State) : (respond r s).nodeIdx = s.nodeIdx := rfl
@[simp] theorem respond_ft (r : BusResponse) (s : State) : (respond r s).ft = s.ft := rfl
@[simp] theorem respond_node (r : BusResponse) (s : State) : (respond r s).node = s.node := rfl
@[simp] theorem respond_pq (r : BusResponse) (s : State) : (respond r s).pq = s.pq := rfl
@[simp] theorem respond_ct (r : BusResponse) (s : State) : (respond r s).ct = s.ct := rfl
@[simp] theorem respond_walk (r : BusResponse) (s : State) : (respond r s).walk = s.walk := rfl
@[simp] theorem respond_seq (r : BusResponse) (s : State) : (respond r s).seq = s.seq := rfl
@[simp] theorem respond_yin (r : BusResponse) (s : State) : (respond r s).yin = s.yin := rfl
@[simp] theorem respond_bin (r : BusResponse) (s : State) : (respond r s).bin = s.bin := rfl
@[simp] theorem respond_yinLeft (r : BusResponse) (s : State) : (respond r s).yinLeft = s.yinLeft := rfl
@[simp] theorem respond_binLeft (r : BusResponse) (s : State) : (respond r s).binLeft = s.binLeft := rfl
@[simp] theorem respond_yinBack (r : BusResponse) (s : State) : (respond r s).yinBack = s.yinBack := rfl
@[simp] theorem respond_binBack (r : BusResponse) (s : State) : (respond r s).binBack = s.binBack := rfl
@[simp] theorem respond_yout (r : BusResponse) (s : State) : (respond r s).yout = s.yout := rfl
@[simp] theorem respond_bout (r : BusResponse) (s : State) : (respond r s).bout = s.bout := rfl
@[simp] theorem respond_youtReady (r : BusResponse) (s : State) : (respond r s).youtReady = s.youtReady := rfl
@[simp] theorem respond_boutReady (r : BusResponse) (s : State) : (respond r s).boutReady = s.boutReady := rfl
@[simp] theorem respond_rst (r : BusResponse) (s : State) : (respond r s).rst = s.rst := rfl
@[simp] theorem respond_responses (r : BusResponse) (s : State) : (respond r s).responses = s.responses ++ [r] := rfl
@[simp] theorem respond_host (r : BusResponse) (s : State) : (respond r s).host = s.host := rfl
@[simp] theorem respond_hold (r : BusResponse) (s : State) : (respond r s).hold = s.hold := rfl
@[simp] theorem respond_freeCtr (r : BusResponse) (s : State) : (respond r s).freeCtr = s.freeCtr := rfl

end Sys2Proof.Machine
end

