-- ==== Sys2Proof/Laws/Ops.lean ====
section
/-! SUPPORT. What the shared operations do: tables, arena, priority queue, ports. Callers cite these and unfold no operation. -/

namespace Sys2Proof.Machine

open Sys2Proof

/-! ### Tables -/

@[simp] theorem emptyTable_getElem {α : Type} (k : Key) : (Vector.replicate 257 (none : Option α))[k] = none := by
  simp [Fin.getElem_fin]

theorem setTable_getElem {α : Type} (t : Vector (Option α) 257) (j k : Key) (c : α) :
    (t.set j (some c))[k] = if j = k then some c else t[k] := by
  simp only [Fin.getElem_fin, Vector.getElem_set, Fin.ext_iff]

theorem table_ext {α : Type} {t u : Vector (Option α) 257} (h : ∀ k : Key, t[k] = u[k]) : t = u :=
  Vector.ext fun i hi => h ⟨i, hi⟩

theorem mem_keys {ft : FreqTable} {k : Key} : k ∈ keys ft ↔ ft[k].isSome = true := by
  simp [keys]

theorem keys_nodup (ft : FreqTable) : (keys ft).Nodup := (List.nodup_finRange 257).filter _

theorem keys_length_le (ft : FreqTable) : (keys ft).length ≤ 257 := by
  have h := List.length_filter_le (fun k : Key => ft[k].isSome) (List.finRange 257)
  simpa [keys] using h

theorem keys_ascending (ft : FreqTable) : (keys ft).Pairwise (· < ·) :=
  (List.pairwise_lt_finRange 257).filter _

theorem keys_eq_nil {ft : FreqTable} : keys ft = [] ↔ ∀ k : Key, ft[k] = none := by
  rw [List.eq_nil_iff_forall_not_mem]
  simp only [mem_keys, Bool.not_eq_true, Option.isSome_eq_false_iff, Option.isNone_iff_eq_none]

theorem keySymbol_toNat (k : Key) : (keySymbol k).toNat = k.val := by
  have := k.isLt
  simp [keySymbol]
  omega

theorem keySymbol_inj {j k : Key} (h : keySymbol j = keySymbol k) : j = k := by
  have := congrArg BitVec.toNat h
  simp only [keySymbol_toNat] at this
  exact Fin.ext this

@[simp] theorem byteKey_val (v : Byte) : (byteKey v).val = v.toNat := rfl

@[simp] theorem eofKey_val : eofKey.val = 256 := rfl

theorem byteKey_inj {u v : Byte} (h : byteKey u = byteKey v) : u = v := by
  have := congrArg Fin.val h
  simp only [byteKey_val] at this
  exact BitVec.eq_of_toNat_eq this

theorem byteKey_ne_eof (v : Byte) : byteKey v ≠ eofKey := by
  intro h
  have := congrArg Fin.val h
  simp only [byteKey_val, eofKey_val] at this
  omega

/-- Every key is a byte or PSEUDO_EOF. -/
theorem key_cases (k : Key) : k = eofKey ∨ ∃ v : Byte, k = byteKey v := by
  by_cases h : k.val = 256
  · exact .inl (Fin.ext h)
  · refine .inr ⟨BitVec.ofNat 8 k.val, Fin.ext ?_⟩
    have := k.isLt
    simp only [byteKey_val, BitVec.toNat_ofNat]
    omega

/-! ### Arena -/

theorem newNode_index (nd : Node) (s : State) (h : s.nodeCnt.val < 513) : (newNode nd s).1 = ⟨s.nodeCnt.val, h⟩ :=
  Fin.ext (Nat.mod_eq_of_lt h)

/-- `pushNode` while the arena has room: the node stands at index NODE_CNT and is in the queue; nothing else changes. -/
theorem pushNode_eq (nd : Node) (s : State) (h : s.nodeCnt.val < 513) :
    pushNode nd s = { s with
      node := s.node.set s.nodeCnt.val nd h
      nodeCnt := ⟨s.nodeCnt.val + 1, by omega⟩
      pq := ⟨s.nodeCnt.val, h⟩ :: s.pq } := by
  have h1 : s.nodeCnt.val % 513 = s.nodeCnt.val := Nat.mod_eq_of_lt h
  have h2 : (s.nodeCnt.val + 1) % 514 = s.nodeCnt.val + 1 := Nat.mod_eq_of_lt (by omega)
  simp only [pushNode, newNode, pqInsert, Fin.ofNat, h1, h2]

theorem pushNode_nodeAt (nd : Node) (s : State) (h : s.nodeCnt.val < 513) (m : NodeIdx) :
    nodeAt (pushNode nd s) m = if m.val = s.nodeCnt.val then nd else nodeAt s m := by
  rw [pushNode_eq nd s h]
  simp only [nodeAt, Fin.getElem_fin, Vector.getElem_set, eq_comm]

/-- `pushNode` writes the arena, NODE_CNT and PQ only, whatever the arena holds. -/
theorem pushNode_frame (nd : Node) (s : State) :
    pushNode nd s = { s with node := (pushNode nd s).node, nodeCnt := (pushNode nd s).nodeCnt, pq := (pushNode nd s).pq } := rfl

/-! ### Priority queue -/

theorem pqBefore_iff (s : State) (n m : NodeIdx) :
    pqBefore s n m = true ↔
      (nodeAt s n).weight < (nodeAt s m).weight ∨ ((nodeAt s n).weight = (nodeAt s m).weight ∧ n < m) := by
  simp [pqBefore]

theorem pqBefore_trans {s : State} {a b c : NodeIdx} (h : pqBefore s a b = true) (g : pqBefore s b c = true) :
    pqBefore s a c = true := by
  simp only [pqBefore_iff, BitVec.lt_def, ← BitVec.toNat_inj, Fin.lt_def] at *
  omega

theorem pqBefore_total (s : State) (a b : NodeIdx) : pqBefore s a b = true ∨ a = b ∨ pqBefore s b a = true := by
  simp only [pqBefore_iff, BitVec.lt_def, ← BitVec.toNat_inj, Fin.lt_def, Fin.ext_iff]
  omega

theorem pqLeast_mem (s : State) (m : NodeIdx) (ns : List NodeIdx) : pqLeast s m ns ∈ m :: ns := by
  induction ns generalizing m with
  | nil => simp [pqLeast]
  | cons n ns ih =>
    rw [pqLeast]
    split
    · exact List.mem_cons_of_mem _ (ih n)
    · rcases List.mem_cons.mp (ih m) with h | h
      · rw [h]; exact List.mem_cons_self
      · exact List.mem_cons_of_mem _ (List.mem_cons_of_mem _ h)

theorem pqLeast_least (s : State) (m : NodeIdx) (ns : List NodeIdx) :
    ∀ x ∈ m :: ns, x = pqLeast s m ns ∨ pqBefore s (pqLeast s m ns) x = true := by
  induction ns generalizing m with
  | nil => intro x hx; exact .inl (by simpa [pqLeast] using hx)
  | cons n ns ih =>
    intro x hx
    rw [pqLeast]
    split <;> rename_i hb
    · have hn := ih n
      rcases List.mem_cons.mp hx with rfl | hx
      · rcases hn n List.mem_cons_self with h | h
        · exact .inr (h ▸ hb)
        · exact .inr (pqBefore_trans h hb)
      · exact hn x hx
    · have hm := ih m
      rcases List.mem_cons.mp hx with rfl | hx
      · exact hm x List.mem_cons_self
      · rcases List.mem_cons.mp hx with rfl | hx
        · rcases pqBefore_total s x m with h | h | h
          · exact absurd h hb
          · exact h ▸ hm m List.mem_cons_self
          · rcases hm m List.mem_cons_self with g | g
            · exact .inr (g ▸ h)
            · exact .inr (pqBefore_trans g h)
        · exact hm x (List.mem_cons_of_mem _ hx)

/-- `PQPopMin()` in one lemma: what it answers, and that the node is the least of the queue. -/
theorem pqPopMin_spec {s t : State} {a : NodeIdx} (h : pqPopMin s = some (a, t)) :
    a ∈ s.pq ∧ (∀ x ∈ s.pq, x = a ∨ pqBefore s a x = true) ∧ t = { s with pq := s.pq.erase a } := by
  unfold pqPopMin at h
  split at h
  · cases h
  · rename_i n ns hq
    simp only [Option.some.injEq, Prod.mk.injEq] at h
    obtain ⟨rfl, rfl⟩ := h
    rw [hq]
    exact ⟨pqLeast_mem s n ns, pqLeast_least s n ns, rfl⟩

theorem pqPopMin_none {s : State} : pqPopMin s = none ↔ s.pq = [] := by
  unfold pqPopMin
  split <;> simp_all

/-! ### Ports -/

theorem writeYout_all {s : State} (h : s.youtReady = .all) (v : Byte) :
    writeYout v s = some { s with yout := s.yout ++ [v] } := by
  simp only [writeYout, h, Acceptance.take]

theorem writeBout_all {s : State} (h : s.boutReady = .all) (b : Bool) :
    writeBout b s = some { s with bout := s.bout ++ [b] } := by
  simp only [writeBout, h, Acceptance.take]

/-- A byte sent on YOUT changes that port only. -/
theorem writeYout_some {v : Byte} {s t : State} (h : writeYout v s = some t) :
    t = { s with youtReady := t.youtReady, yout := s.yout ++ [v] } := by
  unfold writeYout at h
  split at h <;> simp_all
  subst h; rfl

/-- A bit sent on BOUT changes that port only. -/
theorem writeBout_some {b : Bool} {s t : State} (h : writeBout b s = some t) :
    t = { s with boutReady := t.boutReady, bout := s.bout ++ [b] } := by
  unfold writeBout at h
  split at h <;> simp_all
  subst h; rfl

end Sys2Proof.Machine
end

