-- ==== Sys2Proof/Laws/CodeTable.lean ====
section
/-! SUPPORT. What GEN_CODES does: its walk of a tree comes to its end, and gives every leaf its path. -/

namespace Sys2Proof.Machine

open Sys2Proof

theorem leads_snoc {s : State} {n m : NodeIdx} {p : Path} (b : Bool) (h : leads s n p = some m)
    (hm : isLeaf s m = false) : leads s n (p ++ [b]) = some (child s m b) := by
  induction p generalizing n with
  | nil => simp only [leads, Option.some.injEq] at h; subst h; simp [leads, hm]
  | cons a p ih =>
    rw [leads] at h
    split at h
    · cases h
    · rename_i hl
      rw [List.cons_append, leads, if_neg hl, ih h]

theorem leads_congr {s t : State} (h : s.node = t.node) (n : NodeIdx) (p : Path) : leads s n p = leads t n p := by
  induction p generalizing n with
  | nil => rfl
  | cons a p ih =>
    have hN : nodeAt s n = nodeAt t n := by rw [nodeAt, nodeAt, h]
    rw [leads, leads, isLeaf, isLeaf, child, child, hN, ih]

/-- In a tree the parent of a node is unique. -/
theorem TreeShape.linked_unique {s : State} (h : TreeShape s) {p q c : NodeIdx} (hp : Linked s p c) (hq : Linked s q c) :
    p = q ∧ c ≠ s.root := by
  have hpc := h.children p hp.1 hp.2.1
  have hc := h.count
  have hlt : c.val < p.val := by
    simp only [Fin.lt_def] at hpc
    rcases hp.2.2 with e | e <;> rw [e] at hpc <;> omega
  have hne : c ≠ s.root := by
    intro e
    have := hp.1
    rw [e] at hlt
    omega
  obtain ⟨r, -, hr⟩ := h.parent c (by have := hp.1; omega) hne
  exact ⟨(hr p hp).trans (hr q hq).symm, hne⟩

/-- A tree with L leaves has at most 2L - 1 nodes (rule R8). -/
theorem TreeShape.count_le {s : State} (h : TreeShape s) : s.nodeCnt.val + 1 ≤ 2 * (keys s.ft).length := by
  classical
  have below : ∀ m : Nat, m ≤ 513 → ∃ I : Finset NodeIdx, (∀ n, n ∈ I ↔ n.val < m) ∧ I.card = m := by
    intro m hm
    refine ⟨(Finset.range m).attachFin (fun i hi => by have := Finset.mem_range.mp hi; omega), fun n => ?_, ?_⟩
    · rw [Finset.mem_attachFin, Finset.mem_range]
    · rw [Finset.card_attachFin, Finset.card_range]
  have hc := h.count
  have hk := keys_length_le s.ft
  obtain ⟨nodes, hnodes, hncard⟩ := below s.nodeCnt.val hc.2.1
  obtain ⟨leafs, hleafs, hlcard⟩ := below (keys s.ft).length (by omega)
  have hsub : leafs ⊆ nodes := fun n hn => by
    rw [hnodes]; rw [hleafs] at hn; have := h.leafCount; omega
  obtain ⟨ints, hints⟩ : ∃ I : Finset NodeIdx, I = nodes \ leafs := ⟨_, rfl⟩
  have hicard : ints.card + (keys s.ft).length = s.nodeCnt.val := by
    rw [hints, Finset.card_sdiff_of_subset hsub, hncard, hlcard]
    have := h.leafCount; omega
  have hlink : ∀ n ∈ ints, ∀ b, Linked s n (child s n b) := by
    intro n hn b
    rw [hints, Finset.mem_sdiff, hnodes, hleafs] at hn
    refine ⟨hn.1, ?_, by cases b; exacts [.inl rfl, .inr rfl]⟩
    rcases hb : isLeaf s n with _ | _
    · rfl
    · exact absurd ((h.leaves n hn.1).mp hb) hn.2
  have himg : (ints ×ˢ (Finset.univ : Finset Bool)).card ≤ (nodes.erase s.root).card := by
    refine Finset.card_le_card_of_injOn (fun x => child s x.1 x.2) ?_ ?_
    · rintro ⟨n, b⟩ hx
      have hl := hlink n (Finset.mem_product.mp (Finset.mem_coe.mp hx)).1 b
      have hch := h.children n hl.1 hl.2.1
      simp only [Fin.lt_def] at hch
      refine Finset.mem_coe.mpr (Finset.mem_erase.mpr ⟨(h.linked_unique hl hl).2, ?_⟩)
      rw [hnodes]
      have := hl.1
      cases b <;> simp only [] <;> omega
    · rintro ⟨n, b⟩ hx ⟨m, d⟩ hy he
      have hl := hlink n (Finset.mem_product.mp (Finset.mem_coe.mp hx)).1 b
      have hl2 := hlink m (Finset.mem_product.mp (Finset.mem_coe.mp hy)).1 d
      simp only at he
      rw [← he] at hl2
      obtain ⟨rfl, -⟩ := h.linked_unique hl hl2
      have hch := (h.children n hl.1 hl.2.1).2.2
      cases b <;> cases d <;> simp_all
  have hroot : s.root ∈ nodes := by rw [hnodes]; omega
  rw [Finset.card_product, Finset.card_univ, Fintype.card_bool, Finset.card_erase_of_mem hroot, hncard] at himg
  omega

/-- A node's place during the walk: where its path leads, and that the path is short enough. -/
structure OnWalk (s : State) (n : NodeIdx) (path : Path) : Prop where
  lt : n.val < s.nodeCnt.val
  leads : leads s s.root path = some n
  depth : path.length + n.val < s.nodeCnt.val
  short : path.length ≤ 256

/-- The walk's invariant: `seen` are the nodes walked, `s0` the state before the walk, `(n, path)` the node to walk now. -/
structure WalkInv (s0 : State) (seen : List NodeIdx) (n : NodeIdx) (path : Path) (s : State) : Prop where
  frame : s = { s0 with ct := s.ct, walk := s.walk }
  here : OnWalk s0 n path
  stack : ∀ x ∈ s.walk, OnWalk s0 x.1 x.2
  nodup : (n :: s.walk.map Prod.fst ++ seen).Nodup
  bound : ∀ x ∈ seen, x.val < s0.nodeCnt.val
  rooted : s0.root ∈ n :: s.walk.map Prod.fst ++ seen
  down : ∀ x ∈ seen, isLeaf s0 x = false → ∀ b, child s0 x b ∈ n :: s.walk.map Prod.fst ++ seen
  up : ∀ x ∈ n :: s.walk.map Prod.fst ++ seen, x ≠ s0.root → ∃ p ∈ seen, Linked s0 p x
  path : ∀ k : Key, ∀ c, s.ct[k] = some c → c.length ≤ 256 ∧ IsCodeOf s0 k c
  coded : ∀ x ∈ seen, isLeaf s0 x = true → ∀ k : Key, (nodeAt s0 x).sym = keySymbol k → s.ct[k].isSome = true

/-- The leaf of a tree has a key as its symbol. -/
theorem TreeShape.leaf_key {s : State} (h : TreeShape s) {n : NodeIdx} (hn : n.val < s.nodeCnt.val) (hl : isLeaf s n = true) :
    ∃ k : Key, (keys s.ft)[n.val]? = some k ∧ (nodeAt s n).sym = keySymbol k := by
  have := (h.leaves n hn).mp hl
  exact ⟨(keys s.ft)[n.val], List.getElem?_eq_getElem this, h.symbols n _ hn (List.getElem?_eq_getElem this)⟩

theorem setCode_isSome {s : State} {j k : Key} {c : Path} (h : s.ct[k].isSome = true) : (setCode j c s).ct[k].isSome = true := by
  rw [setCode_ct, setTable_getElem]; split <;> simp_all

/-- The walk of a tree comes to its end, having given every leaf its path and nothing else a code (rules R140, R141). -/
theorem walkTree_spec {s0 : State} (hT : TreeShape s0) (fuel : Nat) {seen : List NodeIdx} {n : NodeIdx} {path : Path}
    {s : State} (hI : WalkInv s0 seen n path s) (hfuel : s0.nodeCnt.val ≤ fuel + seen.length) :
    ∃ t, walkTree fuel n path s = some t ∧ t = { s0 with ct := t.ct, walk := [] } ∧
      (∀ k : Key, ∀ c, t.ct[k] = some c → c.length ≤ 256 ∧ IsCodeOf s0 k c) ∧
      (∀ x : NodeIdx, x.val < s0.nodeCnt.val → isLeaf s0 x = true → ∀ k : Key, (nodeAt s0 x).sym = keySymbol k →
        t.ct[k].isSome = true) := by
  induction fuel generalizing seen n path s with
  | zero =>
    exfalso
    have hnd := hI.nodup
    have hsub : (n :: seen).Nodup := by
      simp only [List.cons_append, List.nodup_cons, List.mem_append, not_or] at hnd ⊢
      exact ⟨hnd.1.2, (List.nodup_append.mp hnd.2).2.1⟩
    have hss : (n :: seen).map Fin.val ⊆ List.range s0.nodeCnt.val := by
      intro x hx
      obtain ⟨m, hm, rfl⟩ := List.mem_map.mp hx
      rcases List.mem_cons.mp hm with rfl | hm
      · exact List.mem_range.mpr hI.here.lt
      · exact List.mem_range.mpr (hI.bound m hm)
    have := ((hsub.map Fin.val_injective).subperm hss).length_le
    simp at this
    omega
  | succ fuel ih =>
    have hnode : ∀ m, nodeAt s m = nodeAt s0 m := fun m => by rw [hI.frame]; rfl
    have hL : ∀ m, isLeaf s m = isLeaf s0 m := fun m => by rw [isLeaf, isLeaf, hnode]
    have hC : ∀ m b, child s m b = child s0 m b := fun m b => by rw [child, child, hnode]
    rw [walkTree]
    rcases hl : isLeaf s n with _ | _
    · -- an internal node
      have hl0 : isLeaf s0 n = false := by rw [← hL]; exact hl
      have hch := hT.children n hI.here.lt hl0
      have hdep := hI.here.depth
      have hcl := hT.count_le
      have hkl := keys_length_le s0.ft
      have hge : (keys s0.ft).length ≤ n.val := by
        by_contra hh
        have := (hT.leaves n hI.here.lt).mpr (by omega)
        rw [hl0] at this; cases this
      have hlen : path.length < Config.maxCodeLen := by simp only [Config.maxCodeLen]; omega
      simp only [Bool.false_eq_true, if_false, hlen, if_true, hC]
      have hlinkb : ∀ b, Linked s0 n (child s0 n b) := fun b => ⟨hI.here.lt, hl0, by cases b <;> simp⟩
      have hnseen : n ∉ seen := by
        have := hI.nodup
        simp only [List.cons_append, List.nodup_cons, List.mem_append, not_or] at this
        exact this.1.2
      have hfresh : ∀ b, child s0 n b ∉ n :: s.walk.map Prod.fst ++ seen := by
        intro b hb
        obtain ⟨p, hp, hpl⟩ := hI.up _ hb (hT.linked_unique (hlinkb b) (hlinkb b)).2
        exact hnseen ((hT.linked_unique (hlinkb b) hpl).1 ▸ hp)
      have hmem : ∀ x, x ∈ n :: s.walk.map Prod.fst ++ seen →
          x ∈ child s0 n false :: (child s0 n true :: s.walk.map Prod.fst) ++ (n :: seen) := by
        intro x hx
        simp only [List.cons_append, List.mem_cons, List.mem_append] at hx ⊢
        tauto
      refine ih (seen := n :: seen) ⟨?_, ?_, ?_, ?_, ?_, ?_, ?_, ?_, hI.path, ?_⟩ (by simp; omega)
      · rw [hI.frame]; rfl
      · refine ⟨?_, leads_snoc false hI.here.leads hl0, ?_, ?_⟩
        · have := hch.1; simp only [Fin.lt_def] at this; omega
        · have := hch.1; simp only [Fin.lt_def] at this; simp; omega
        · simp [Config.maxCodeLen] at hlen ⊢; omega
      · intro x hx
        rw [pushWalk_walk] at hx
        rcases List.mem_cons.mp hx with rfl | hx
        · refine ⟨?_, leads_snoc true hI.here.leads hl0, ?_, ?_⟩
          · have := hch.2.1; simp only [Fin.lt_def] at this; simp only; omega
          · have := hch.2.1; simp only [Fin.lt_def] at this; simp; omega
          · simp [Config.maxCodeLen] at hlen ⊢; omega
        · exact hI.stack x hx
      · rw [pushWalk_walk]
        have h1 := hfresh false
        have h2 := hfresh true
        have h3 := hI.nodup
        have h4 := hch.2.2
        simp only [List.cons_append, List.nodup_cons, List.mem_append, List.map_cons, List.mem_cons, not_or] at h1 h2 h3 ⊢
        have h5 : (List.map Prod.fst s.walk ++ (n :: seen)).Nodup := by
          rw [List.nodup_middle]
          simp only [List.nodup_cons, List.mem_append, not_or]
          exact h3
        exact ⟨⟨h4, h1.2.1, h1.1, h1.2.2⟩, ⟨h2.2.1, h2.1, h2.2.2⟩, h5⟩
      · intro x hx
        rcases List.mem_cons.mp hx with rfl | hx
        · exact hI.here.lt
        · exact hI.bound x hx
      · rw [pushWalk_walk, List.map_cons]; exact hmem _ hI.rooted
      · intro x hx hxl b
        rw [pushWalk_walk, List.map_cons]
        rcases List.mem_cons.mp hx with rfl | hx
        · cases b <;> simp
        · exact hmem _ (hI.down x hx hxl b)
      · intro x hx hxr
        rw [pushWalk_walk, List.map_cons] at hx
        simp only [List.cons_append, List.mem_cons, List.mem_append] at hx
        rcases hx with rfl | rfl | hx | rfl | hx
        · exact ⟨n, List.mem_cons_self, hlinkb false⟩
        · exact ⟨n, List.mem_cons_self, hlinkb true⟩
        · obtain ⟨p, hp, hpl⟩ := hI.up x (by simp [hx]) hxr
          exact ⟨p, List.mem_cons_of_mem _ hp, hpl⟩
        · obtain ⟨p, hp, hpl⟩ := hI.up x (by simp) hxr
          exact ⟨p, List.mem_cons_of_mem _ hp, hpl⟩
        · obtain ⟨p, hp, hpl⟩ := hI.up x (by simp [hx]) hxr
          exact ⟨p, List.mem_cons_of_mem _ hp, hpl⟩
      · intro x hx hxl k hk
        rcases List.mem_cons.mp hx with rfl | hx
        · rw [hl0] at hxl; cases hxl
        · exact hI.coded x hx hxl k hk
    · -- a leaf
      have hl0 : isLeaf s0 n = true := by rw [← hL]; exact hl
      obtain ⟨k, -, hk⟩ := hT.leaf_key hI.here.lt hl0
      have hkn : (nodeAt s n).sym.toNat = k.val := by rw [hnode, hk, keySymbol_toNat]
      have hlt : (nodeAt s n).sym.toNat < 257 := by rw [hkn]; exact k.isLt
      have hkk : (⟨(nodeAt s n).sym.toNat, hlt⟩ : Key) = k := Fin.ext hkn
      simp only [if_true, hlt, dite_true, hkk]
      have hpath : ∀ j : Key, ∀ c, (setCode k path s).ct[j] = some c → c.length ≤ 256 ∧ IsCodeOf s0 j c := by
        intro j c hc
        rw [setCode_ct, setTable_getElem] at hc
        split at hc
        · rename_i hkj
          simp only [Option.some.injEq] at hc
          subst hkj hc
          exact ⟨hI.here.short, n, hI.here.leads, hI.here.lt, hl0, hk⟩
        · exact hI.path j c hc
      have hcoded : ∀ x ∈ n :: seen, isLeaf s0 x = true → ∀ j : Key, (nodeAt s0 x).sym = keySymbol j →
          (setCode k path s).ct[j].isSome = true := by
        intro x hx hxl j hj
        rcases List.mem_cons.mp hx with rfl | hx
        · have : k = j := keySymbol_inj (hk ▸ hj)
          rw [setCode_ct, setTable_getElem, if_pos this]; rfl
        · exact setCode_isSome (hI.coded x hx hxl j hj)
      split
      · -- the end of the walk
        rename_i hw
        refine ⟨_, rfl, by rw [hI.frame]; simp [setCode, hw], hpath, ?_⟩
        have hall : ∀ d : Nat, ∀ x : NodeIdx, x.val < s0.nodeCnt.val → s0.nodeCnt.val - x.val = d → x ∈ n :: seen := by
          intro d
          induction d using Nat.strong_induction_on with
          | _ d ihd =>
            intro x hx hd
            by_cases hxr : x = s0.root
            · have := hI.rooted
              rw [hw] at this
              rw [hxr]; simpa using this
            · obtain ⟨p, hp, -⟩ := hT.parent x hx hxr
              have hch := hT.children p hp.1 hp.2.1
              have hxp : x.val < p.val := by
                simp only [Fin.lt_def] at hch
                rcases hp.2.2 with e | e <;> rw [e] at hch <;> omega
              have hpm := ihd (s0.nodeCnt.val - p.val) (by have := hp.1; omega) p hp.1 rfl
              rcases List.mem_cons.mp hpm with rfl | hpm
              · have := hp.2.1; rw [hl0] at this; cases this
              · have hd' := hI.down p hpm hp.2.1
                rw [hw] at hd'
                rcases hp.2.2 with e | e
                · have := hd' false; rw [e] at this; simpa using this
                · have := hd' true; rw [e] at this; simpa using this
        intro x hx hxl j hj
        exact hcoded x (hall _ x hx rfl) hxl j hj
      · rename_i m p rest hw
        have hmem : ∀ x, x ∈ n :: s.walk.map Prod.fst ++ seen ↔ x ∈ m :: rest.map Prod.fst ++ (n :: seen) := by
          intro x
          rw [hw]
          simp only [List.map_cons, List.cons_append, List.mem_cons, List.mem_append]
          tauto
        refine ih (seen := n :: seen) ⟨?_, ?_, ?_, ?_, ?_, ?_, ?_, ?_, hpath, hcoded⟩ (by simp; omega)
        · rw [hI.frame]; rfl
        · exact hI.stack (m, p) (by rw [hw]; exact List.mem_cons_self)
        · intro x hx
          exact hI.stack x (by rw [hw]; exact List.mem_cons_of_mem _ hx)
        · have h3 := hI.nodup
          rw [hw] at h3
          simp only [popWalk_walk]
          have : (m :: rest.map Prod.fst ++ (n :: seen)).Nodup ↔ (n :: (m :: rest.map Prod.fst) ++ seen).Nodup := by
            exact (List.perm_middle (l₁ := m :: rest.map Prod.fst)).nodup_iff
          exact this.mpr h3
        · intro x hx
          rcases List.mem_cons.mp hx with rfl | hx
          · exact hI.here.lt
          · exact hI.bound x hx
        · rw [popWalk_walk]; exact (hmem _).mp hI.rooted
        · intro x hx hxl b
          rw [popWalk_walk]
          rcases List.mem_cons.mp hx with rfl | hx
          · rw [hl0] at hxl; cases hxl
          · exact (hmem _).mp (hI.down x hx hxl b)
        · intro x hx hxr
          rw [popWalk_walk] at hx
          obtain ⟨q, hq, hql⟩ := hI.up x ((hmem x).mpr hx) hxr
          exact ⟨q, List.mem_cons_of_mem _ hq, hql⟩

/-- A tree is a matter of the arena, NODE_CNT, ROOT and FT. -/
theorem TreeShape.congr {s t : State} (h : TreeShape s) (hn : t.node = s.node) (hc : t.nodeCnt = s.nodeCnt) (hr : t.root = s.root)
    (hf : t.ft = s.ft) : TreeShape t := by
  have hN : ∀ n, nodeAt t n = nodeAt s n := fun n => by rw [nodeAt, nodeAt, hn]
  have hL : ∀ n, isLeaf t n = isLeaf s n := fun n => by rw [isLeaf, isLeaf, hN]
  have hC : ∀ n x, child t n x = child s n x := fun n x => by rw [child, child, hN]
  have hK : ∀ p c, Linked t p c ↔ Linked s p c := fun p c => by simp only [Linked, hL, hC, hc]
  refine ⟨?_, ?_, ?_, ?_, ?_, ?_, ?_⟩
  · rw [hc, hr]; exact h.count
  · simp only [hL, hC, hc]; exact h.children
  · simp only [hK, hc, hr]; exact h.parent
  · rw [hf, hc]; exact h.leafCount
  · simp only [hL, hf, hc]; exact h.leaves
  · simp only [hN, hf, hc]; exact h.symbols
  · simp only [hL, hC, hN, hc]; exact h.weights

/-- A code is a matter of the arena, NODE_CNT and ROOT. -/
theorem IsCodeOf.congr {s t : State} {k : Key} {c : Path} (h : IsCodeOf s k c) (hn : t.node = s.node)
    (hc : t.nodeCnt = s.nodeCnt) (hr : t.root = s.root) : IsCodeOf t k c := by
  obtain ⟨n, h1, h2, h3, h4⟩ := h
  have hN : ∀ n, nodeAt t n = nodeAt s n := fun n => by rw [nodeAt, nodeAt, hn]
  exact ⟨n, by rw [hr, leads_congr hn]; exact h1, by rw [hc]; exact h2, by rw [isLeaf, hN]; exact h3, by rw [hN]; exact h4⟩

/-- A symbol with a code is a key of FT. -/
theorem TreeShape.code_key {s : State} (h : TreeShape s) {k : Key} {c : Path} (hc : IsCodeOf s k c) : s.ft[k].isSome = true := by
  obtain ⟨n, -, hn, hl, hs⟩ := hc
  obtain ⟨j, hj, hj2⟩ := h.leaf_key hn hl
  have : j = k := keySymbol_inj (hj2.symm.trans hs)
  exact mem_keys.mp (this ▸ List.mem_of_getElem? hj)

/-- A key of FT has its leaf. -/
theorem TreeShape.key_leaf {s : State} (h : TreeShape s) {k : Key} (hk : s.ft[k].isSome = true) :
    ∃ n : NodeIdx, n.val < s.nodeCnt.val ∧ isLeaf s n = true ∧ (nodeAt s n).sym = keySymbol k := by
  obtain ⟨i, hi, hik⟩ := List.getElem_of_mem (mem_keys.mpr hk)
  have h1 := h.leafCount
  have h2 := h.count
  refine ⟨⟨i, by omega⟩, by simp only; omega, (h.leaves _ (by simp only; omega)).mpr hi, h.symbols _ k (by simp only; omega) ?_⟩
  rw [← hik]; exact List.getElem?_eq_getElem hi

/-- GEN_CODES on a tree: the table it leaves holds the codes of the keys and nothing else (rules R140, R141). -/
theorem execGenCodes_eq {s : State} (hv : s.treeValid = true) (hT : TreeShape s) :
    ∃ ct : CodeTable,
      execGenCodes s = .next (finish (setCtReady { s with ct := ct, walk := [] })) ∧
      (∀ k : Key, ct[k].isSome = s.ft[k].isSome) ∧
      (∀ k : Key, ∀ c, ct[k] = some c → c.length ≤ 256 ∧ IsCodeOf s k c) := by
  have hT0 : TreeShape (popWalk [] (invalidateCodes s)) := hT.congr rfl rfl rfl rfl
  have hc := hT.count
  obtain ⟨t, h1, h2, h3, h4⟩ := walkTree_spec (s0 := popWalk [] (invalidateCodes s)) hT0 Config.maxNodes (seen := [])
    (n := s.root) (path := []) (s := popWalk [] (invalidateCodes s))
    ⟨rfl, ⟨by simp; omega, rfl, by simp; omega, by simp⟩, by simp, by simp, by simp, by simp, by simp,
      by simp, fun k c e => by simp at e, by simp⟩
    (by simp [Config.maxNodes]; omega)
  have hcode : ∀ k : Key, ∀ c, t.ct[k] = some c → c.length ≤ 256 ∧ IsCodeOf s k c := fun k c e =>
    ⟨(h3 k c e).1, (h3 k c e).2.congr rfl rfl rfl⟩
  refine ⟨t.ct, ?_, fun k => ?_, hcode⟩
  · rw [execGenCodes, if_pos hv, h1]
    simp only
    rw [h2]; rfl
  · rcases hk : s.ft[k].isSome with _ | _
    · rcases hck : t.ct[k] with _ | c
      · rfl
      · have := hT.code_key (hcode k c hck).2
        rw [hk] at this; cases this
    · obtain ⟨n, g1, g2, g3⟩ := hT.key_leaf hk
      exact h4 n g1 g2 k g3

/-- Two paths after each other. -/
theorem leads_append (s : State) (n : NodeIdx) (p q : Path) : leads s n (p ++ q) = (leads s n p).bind fun m => leads s m q := by
  induction p generalizing n with
  | nil => rfl
  | cons b p ih =>
    rw [List.cons_append, leads, leads]
    split
    · rfl
    · exact ih _

/-- A path leads on past a leaf only by going no further. -/
theorem leads_of_leaf {s : State} {n m : NodeIdx} {p : Path} (hn : isLeaf s n = true) (h : leads s n p = some m) : p = [] ∧ m = n := by
  cases p with
  | nil => simp only [leads, Option.some.injEq] at h; exact ⟨rfl, h.symm⟩
  | cons b p => rw [leads, if_pos hn] at h; cases h

/-- A tree whose root is a leaf is that leaf: FT has one key. -/
theorem TreeShape.single {s : State} (h : TreeShape s) (hl : isLeaf s s.root = true) : s.nodeCnt.val = 1 ∧ (keys s.ft).length = 1 := by
  have hc := h.count
  have hr := (h.leaves s.root (by omega)).mp hl
  have h1 : s.nodeCnt.val = 1 := by
    by_contra hne
    obtain ⟨p, hp, -⟩ := h.parent ⟨0, by omega⟩ (by simp only; omega) (by
      intro e; have := congrArg Fin.val e; simp only at this; omega)
    have := (h.leaves p hp.1).mpr (by have := hp.1; omega)
    rw [hp.2.1] at this; cases this
  have := h.leafCount
  exact ⟨h1, by omega⟩

/-- Equal trees lead alike. -/
theorem TreeShape.leads_agree {s u : State} (h : TreeShape s) (hu : ∀ n : NodeIdx, n.val < s.nodeCnt.val → nodeAt u n = nodeAt s n)
    {n : NodeIdx} (hn : n.val < s.nodeCnt.val) (p : Path) : leads u n p = leads s n p := by
  induction p generalizing n with
  | nil => rfl
  | cons b p ih =>
    rw [leads, leads, isLeaf, isLeaf, child, child, hu n hn]
    split
    · rfl
    · rename_i hl
      have hch := h.children n hn (by simpa [isLeaf] using hl)
      simp only [Fin.lt_def, child] at hch
      refine ih ?_
      cases b <;> simp at hch ⊢ <;> omega

/-- No code goes on into another symbol's code. -/
theorem code_unique {s : State} {j k : Key} {c d : Path} (hc : IsCodeOf s j c) (hd : IsCodeOf s k d) (h : c <+: d) : j = k ∧ c = d := by
  obtain ⟨n, h1, h2, h3, h4⟩ := hc
  obtain ⟨m, g1, g2, g3, g4⟩ := hd
  obtain ⟨r, rfl⟩ := h
  rw [leads_append, h1, Option.bind_some] at g1
  obtain ⟨rfl, rfl⟩ := leads_of_leaf h3 g1
  exact ⟨keySymbol_inj (h4.symm.trans g4), by simp⟩
end Sys2Proof.Machine
end

