-- ==== Sys2Proof/Laws/Loops.lean ====
section
/-! SUPPORT. What the loops of the port commands do: what each may write, how it leaves the report, what it takes and sends, and
where it can be left waiting. -/

namespace Sys2Proof.Machine

open Sys2Proof

/-! ### How a command's run leaves the report -/

/-- The command has ended (rules R203, R204): successfully, the report as it was, or with an error that is not KeyNotFound. -/
structure Ended (s t : State) : Prop where
  idle : t.busy = false ∧ t.done = true ∧ t.seq = .idle
  report : (t.err = s.err ∧ t.errCode = s.errCode ∧ t.errInfo = s.errInfo) ∨
    ∃ e, e ≠ ErrKind.keyNotFound ∧ t.err = true ∧ t.errCode = e.code

/-- The command waits at a port transfer (rule R218): the report is as it was, and it stands where `P` says. -/
structure Waiting (P : Seq → Prop) (s t : State) : Prop where
  report : t.busy = s.busy ∧ t.done = s.done ∧ t.err = s.err ∧ t.errCode = s.errCode ∧ t.errInfo = s.errInfo
  place : P t.seq

theorem Ended.of_report {s s' t : State} (h : Ended s' t)
    (e : s'.err = s.err ∧ s'.errCode = s.errCode ∧ s'.errInfo = s.errInfo) : Ended s t :=
  ⟨h.idle, h.report.imp_left fun r => ⟨r.1.trans e.1, r.2.1.trans e.2.1, r.2.2.trans e.2.2⟩⟩

theorem Waiting.of_report {P : Seq → Prop} {s s' t : State} (h : Waiting P s' t)
    (e : s'.busy = s.busy ∧ s'.done = s.done ∧ s'.err = s.err ∧ s'.errCode = s.errCode ∧ s'.errInfo = s.errInfo) :
    Waiting P s t :=
  ⟨⟨h.report.1.trans e.1, h.report.2.1.trans e.2.1, h.report.2.2.1.trans e.2.2.1, h.report.2.2.2.1.trans e.2.2.2.1,
    h.report.2.2.2.2.trans e.2.2.2.2⟩, h.place⟩

theorem ended_finish (s : State) : Ended s (finish s) := ⟨⟨rfl, rfl, rfl⟩, .inl ⟨rfl, rfl, rfl⟩⟩

theorem ended_raise {e : ErrKind} (he : e ≠ .keyNotFound) (i : Word) (s : State) : Ended s (raise e i s) :=
  ⟨⟨rfl, rfl, rfl⟩, .inr ⟨e, he, rfl, rfl⟩⟩

/-! ### FREQ_COUNT -/

theorem bumpCount_eq (v : Byte) (s : State) : bumpCount v s = { s with ft := (bumpCount v s).ft } := by
  unfold bumpCount; split <;> rfl

/-- What FREQ_COUNT's loop may write: FT, BYTE_COUNT, YIN, the report and its own place. -/
theorem freqLoop_frame (ts : List YTok) (s : State) :
    freqLoop ts s = { s with
      ft := (freqLoop ts s).ft, byteCount := (freqLoop ts s).byteCount, yin := (freqLoop ts s).yin
      yinLeft := (freqLoop ts s).yinLeft
      busy := (freqLoop ts s).busy, done := (freqLoop ts s).done, err := (freqLoop ts s).err
      errCode := (freqLoop ts s).errCode, errInfo := (freqLoop ts s).errInfo, seq := (freqLoop ts s).seq } := by
  induction ts generalizing s with
  | nil => rfl
  | cons t ts ih =>
    cases t with
    | endTok => rfl
    | byte v =>
      rw [freqLoop]
      split
      · rfl
      · rw [ih, bumpCount_eq]; rfl

theorem freqLoop_ends (ts : List YTok) (s : State) :
    Ended s (freqLoop ts s) ∨ Waiting (· = .freqCount) s (freqLoop ts s) := by
  induction ts generalizing s with
  | nil => exact .inr ⟨⟨rfl, rfl, rfl, rfl, rfl⟩, rfl⟩
  | cons t ts ih =>
    cases t with
    | endTok => exact .inl ((ended_finish _).of_report ⟨rfl, rfl, rfl⟩)
    | byte v =>
      rw [freqLoop]
      split
      · exact .inl ((ended_raise (by decide) _ _).of_report ⟨rfl, rfl, rfl⟩)
      · have h := ih (bumpCount v (countByte (takeYin ts s)))
        rw [bumpCount_eq] at h ⊢
        exact h.imp (·.of_report ⟨rfl, rfl, rfl⟩) (·.of_report ⟨rfl, rfl, rfl, rfl, rfl⟩)

/-- The tokens FREQ_COUNT leaves are the last of those it was given. -/
theorem freqLoop_yin (ts : List YTok) (s : State) : ∃ used, ts = used ++ (freqLoop ts s).yin := by
  induction ts generalizing s with
  | nil => exact ⟨[], rfl⟩
  | cons t ts ih =>
    cases t with
    | endTok => exact ⟨[.endTok], rfl⟩
    | byte v =>
      rw [freqLoop]
      split
      · exact ⟨[.byte v], rfl⟩
      · obtain ⟨u, hu⟩ := ih (bumpCount v (countByte (takeYin ts s)))
        exact ⟨.byte v :: u, congrArg _ hu⟩

/-- FREQ_COUNT waits with FT[256] as it was (rule R113: a byte is never PSEUDO_EOF). -/
theorem freqLoop_eof (ts : List YTok) (s : State) (h : (freqLoop ts s).seq ≠ .idle) :
    (freqLoop ts s).ft[eofKey] = s.ft[eofKey] := by
  induction ts generalizing s with
  | nil => rfl
  | cons t ts ih =>
    cases t with
    | endTok => exact absurd rfl h
    | byte v =>
      rw [freqLoop] at h ⊢
      split at h
      · exact absurd rfl h
      · rename_i hf
        rw [if_neg hf]
        rw [ih _ h]
        unfold bumpCount
        split <;> rw [setFt_ft, setTable_getElem, if_neg (byteKey_ne_eof v)] <;> rfl

/-! ### HDR_WRITE -/

/-- What `Put` may write: YOUT, BYTE_COUNT, the report and its own place. -/
theorem putLoop_frame (cs : List Byte) (s : State) :
    putLoop cs s = { s with
      yout := (putLoop cs s).yout, youtReady := (putLoop cs s).youtReady, byteCount := (putLoop cs s).byteCount
      busy := (putLoop cs s).busy, done := (putLoop cs s).done, seq := (putLoop cs s).seq } := by
  induction cs generalizing s with
  | nil => rfl
  | cons c cs ih =>
    rw [putLoop]
    split
    · rfl
    · rename_i t ht
      rw [ih, writeYout_some ht]; rfl

theorem putLoop_ends (cs : List Byte) (s : State) :
    Ended s (putLoop cs s) ∨ Waiting (fun q => ∃ sent rest, rest ≠ [] ∧ cs = sent ++ rest ∧ q = .hdrWrite rest) s (putLoop cs s) := by
  induction cs generalizing s with
  | nil => exact .inl (ended_finish _)
  | cons c cs ih =>
    rw [putLoop]
    split
    · exact .inr ⟨⟨rfl, rfl, rfl, rfl, rfl⟩, [], c :: cs, by simp, rfl, rfl⟩
    · rename_i t ht
      rw [writeYout_some ht]
      rcases ih (countByte { s with youtReady := t.youtReady, yout := s.yout ++ [c] }) with h | h
      · exact .inl (h.of_report ⟨rfl, rfl, rfl⟩)
      · have h' := h.of_report (s := s) ⟨rfl, rfl, rfl, rfl, rfl⟩
        obtain ⟨sent, rest, h1, h2, h3⟩ := h.place
        exact .inr ⟨h'.report, c :: sent, rest, h1, by rw [h2]; rfl, h3⟩

theorem putLoop_yout (cs : List Byte) (s : State) : ∃ sent, (putLoop cs s).yout = s.yout ++ sent := by
  induction cs generalizing s with
  | nil => exact ⟨[], (List.append_nil _).symm⟩
  | cons c cs ih =>
    rw [putLoop]
    split
    · exact ⟨[], (List.append_nil _).symm⟩
    · rename_i t ht
      obtain ⟨sent, h⟩ := ih (countByte t)
      refine ⟨c :: sent, h.trans ?_⟩
      rw [writeYout_some ht]
      simp

/-! ### HDR_READ -/

theorem countToken_eq (t : YTok) (s : State) : countToken t s = { s with byteCount := (countToken t s).byteCount } := by
  cases t <;> rfl

theorem failHeader_eq (p : Nat) (s : State) :
    failHeader p s = raise .malformedHeader (if p < 2 ^ 32 then BitVec.ofNat 32 p else freshWord s)
      (clearFt { s with freeCtr := (failHeader p s).freeCtr }) := by
  unfold failHeader; split <;> rfl

/-- What HDR_READ's loop may write: FT, BYTE_COUNT, YIN, the report, its own place, and the count of free values. -/
theorem hdrLoop_frame (ts : List YTok) (pos : Nat) (place : HdrPos) (s : State) :
    hdrLoop ts pos place s = { s with
      ft := (hdrLoop ts pos place s).ft, byteCount := (hdrLoop ts pos place s).byteCount, yin := (hdrLoop ts pos place s).yin
      yinLeft := (hdrLoop ts pos place s).yinLeft
      busy := (hdrLoop ts pos place s).busy, done := (hdrLoop ts pos place s).done, err := (hdrLoop ts pos place s).err
      errCode := (hdrLoop ts pos place s).errCode, errInfo := (hdrLoop ts pos place s).errInfo
      seq := (hdrLoop ts pos place s).seq, freeCtr := (hdrLoop ts pos place s).freeCtr } := by
  induction ts generalizing pos place s with
  | nil => rfl
  | cons t ts ih =>
    rw [hdrLoop]
    split
    · rw [ih, countToken_eq]; rfl
    · rw [ih, countToken_eq]; rfl
    · rw [countToken_eq]; rfl
    · rw [countToken_eq]; rfl
    · rw [failHeader_eq, countToken_eq]; rfl

theorem hdrLoop_ends (ts : List YTok) (pos : Nat) (place : HdrPos) (s : State) :
    Ended s (hdrLoop ts pos place s) ∨ Waiting (fun q => ∃ p pl, q = .hdrRead p pl) s (hdrLoop ts pos place s) := by
  induction ts generalizing pos place s with
  | nil => exact .inr ⟨⟨rfl, rfl, rfl, rfl, rfl⟩, _, _, rfl⟩
  | cons t ts ih =>
    rw [hdrLoop]
    split
    · rename_i p _
      have h := ih (pos + 1) p (countToken t (takeYin ts s))
      rw [countToken_eq] at h ⊢
      exact h.imp (·.of_report ⟨rfl, rfl, rfl⟩) (·.of_report ⟨rfl, rfl, rfl, rfl, rfl⟩)
    · rename_i k c p _
      have h := ih (pos + 1) p (setFt k c (countToken t (takeYin ts s)))
      rw [countToken_eq] at h ⊢
      exact h.imp (·.of_report ⟨rfl, rfl, rfl⟩) (·.of_report ⟨rfl, rfl, rfl, rfl, rfl⟩)
    · rw [countToken_eq]; exact .inl ((ended_finish _).of_report ⟨rfl, rfl, rfl⟩)
    · rw [countToken_eq]; exact .inl ((ended_finish _).of_report ⟨rfl, rfl, rfl⟩)
    · rw [failHeader_eq, countToken_eq]; exact .inl ((ended_raise (by decide) _ _).of_report ⟨rfl, rfl, rfl⟩)

theorem hdrLoop_yin (ts : List YTok) (pos : Nat) (place : HdrPos) (s : State) :
    ∃ used, ts = used ++ (hdrLoop ts pos place s).yin := by
  induction ts generalizing pos place s with
  | nil => exact ⟨[], rfl⟩
  | cons t ts ih =>
    rw [hdrLoop]
    split
    · rename_i p _
      obtain ⟨u, hu⟩ := ih (pos + 1) p (countToken t (takeYin ts s))
      exact ⟨t :: u, congrArg _ hu⟩
    · rename_i k c p _
      obtain ⟨u, hu⟩ := ih (pos + 1) p (setFt k c (countToken t (takeYin ts s)))
      exact ⟨t :: u, congrArg _ hu⟩
    · exact ⟨[t], by rw [countToken_eq]; rfl⟩
    · exact ⟨[t], by rw [countToken_eq]; rfl⟩
    · exact ⟨[t], by rw [failHeader_eq, countToken_eq]; rfl⟩

/-- One token moves the parser from a place whose key is new to another such place (rule R182 f). -/
theorem hdrToken_place {s : State} {place : HdrPos} {t : YTok} (h : PlaceOk s place) :
    (∀ p, hdrToken s.ft place t = .go p → PlaceOk s p) ∧
    (∀ k c p, hdrToken s.ft place t = .store k c p → p = .space ∧ s.ft[k] = none) ∧
    (∀ k c, hdrToken s.ft place t = .storeEnd k c → s.ft[k] = none) := by
  have key : ∀ k d p, keyDigit k d = .go p → PlaceOk s p := by
    intro k d p hp; unfold keyDigit at hp; split at hp <;> cases hp; trivial
  have nokey : ∀ k d, (∀ j c p, keyDigit k d ≠ .store j c p) ∧ ∀ j c, keyDigit k d ≠ .storeEnd j c := by
    intro k d; unfold keyDigit; split <;> simp
  have val : ∀ k c d p, s.ft[k] = none → valueDigit k c d = .go p → PlaceOk s p := by
    intro k c d p hk hp; unfold valueDigit at hp; split at hp <;> cases hp; exact hk
  have noval : ∀ k c d, (∀ j e p, valueDigit k c d ≠ .store j e p) ∧ ∀ j e, valueDigit k c d ≠ .storeEnd j e := by
    intro k c d; unfold valueDigit; split <;> simp
  cases place with
  | brace => simp only [hdrToken]; split <;> simp [PlaceOk]
  | space => simp only [hdrToken]; split <;> simp [PlaceOk]
  | first =>
    simp only [hdrToken]
    split
    · simp
    · split
      · exact ⟨key _ _, fun _ _ _ e => absurd e ((nokey _ _).1 _ _ _), fun _ _ e => absurd e ((nokey _ _).2 _ _)⟩
      · simp
  | keyFirst =>
    simp only [hdrToken]
    split
    · exact ⟨key _ _, fun _ _ _ e => absurd e ((nokey _ _).1 _ _ _), fun _ _ e => absurd e ((nokey _ _).2 _ _)⟩
    · simp
  | key k =>
    simp only [hdrToken]
    split
    · exact ⟨key _ _, fun _ _ _ e => absurd e ((nokey _ _).1 _ _ _), fun _ _ e => absurd e ((nokey _ _).2 _ _)⟩
    · split
      · split
        · simp
        · rename_i hk
          refine ⟨fun p e => ?_, by simp, by simp⟩
          cases e
          simpa [PlaceOk] using hk
      · simp
  | valueFirst k =>
    simp only [hdrToken]
    split
    · exact ⟨fun p => val k 0 _ p h, fun _ _ _ e => absurd e ((noval _ _ _).1 _ _ _), fun _ _ e => absurd e ((noval _ _ _).2 _ _)⟩
    · simp
  | value k c =>
    simp only [hdrToken]
    split
    · exact ⟨fun p => val k _ _ p h, fun _ _ _ e => absurd e ((noval _ _ _).1 _ _ _), fun _ _ e => absurd e ((noval _ _ _).2 _ _)⟩
    · split
      · refine ⟨by simp, by simp, fun j e he => ?_⟩
        cases he; exact h
      · split
        · refine ⟨by simp, fun j e p he => ?_, by simp⟩
          cases he; exact ⟨rfl, h⟩
        · simp

/-- HDR_READ waits at a place whose key is new. -/
theorem hdrLoop_place {ts : List YTok} {pos : Nat} {place : HdrPos} {s : State} (h : PlaceOk s place) {p : Nat} {pl : HdrPos}
    (e : (hdrLoop ts pos place s).seq = .hdrRead p pl) : PlaceOk (hdrLoop ts pos place s) pl := by
  induction ts generalizing pos place s with
  | nil =>
    rw [hdrLoop] at e ⊢
    simp only [waitAt_seq, Seq.hdrRead.injEq] at e
    obtain ⟨-, rfl⟩ := e
    cases place <;> exact h
  | cons t ts ih =>
    have hp := hdrToken_place (t := t) h
    rw [hdrLoop] at e ⊢
    split at e
    · rename_i q hq
      have := hp.1 q hq
      refine ih ?_ e
      rw [countToken_eq]
      cases q <;> exact this
    · rename_i k c q hq
      obtain ⟨rfl, -⟩ := hp.2.1 k c q hq
      exact ih (place := .space) trivial e
    · cases e
    · cases e
    · rw [failHeader_eq] at e; cases e

/-! ### ENCODE -/

/-- What `EmitCode` may write: BOUT and BIT_COUNT. -/
theorem emitBits_frame {bs rest : Path} {s t : State} (e : emitBits bs s = (rest, t)) :
    t = { s with bout := t.bout, boutReady := t.boutReady, bitCount := t.bitCount } := by
  induction bs generalizing s with
  | nil => cases e; rfl
  | cons b bs ih =>
    rw [emitBits] at e
    split at e
    · cases e; rfl
    · rename_i u hu
      have := ih e
      rw [writeBout_some hu] at this
      exact this

/-- The bits `EmitCode` leaves are the last of the code, and it writes and counts the others. -/
theorem emitBits_bout {bs rest : Path} {s t : State} (e : emitBits bs s = (rest, t)) :
    ∃ sent, bs = sent ++ rest ∧ t.bout = s.bout ++ sent ∧ t.bitCount = s.bitCount + BitVec.ofNat 64 sent.length := by
  induction bs generalizing s with
  | nil => cases e; exact ⟨[], by simp⟩
  | cons b bs ih =>
    rw [emitBits] at e
    split at e
    · cases e; exact ⟨[], by simp⟩
    · rename_i u hu
      obtain ⟨sent, h1, h2, h3⟩ := ih e
      refine ⟨b :: sent, congrArg _ h1, h2.trans ?_, h3.trans ?_⟩
      · rw [writeBout_some hu]; simp
      · rw [writeBout_some hu]
        simp only [countBit_bitCount, List.length_cons]
        rw [BitVec.ofNat_add, BitVec.add_assoc, BitVec.add_comm (BitVec.ofNat 64 sent.length)]

/-- With BOUT accepting, a code is written whole. -/
theorem emitBits_all {s : State} (h : s.boutReady = .all) (bs : Path) :
    emitBits bs s = ([], { s with bout := s.bout ++ bs, bitCount := s.bitCount + BitVec.ofNat 64 bs.length }) := by
  induction bs generalizing s with
  | nil => simp [emitBits]
  | cons b bs ih =>
    rw [emitBits, writeBout_all h]
    simp only
    rw [ih (s := countBit { s with bout := s.bout ++ [b] }) h]
    simp only [countBit_bout, countBit_bitCount, List.append_assoc, List.singleton_append, List.length_cons]
    rw [BitVec.ofNat_add, BitVec.add_assoc, BitVec.add_comm (BitVec.ofNat 64 bs.length)]
    rfl

/-- What ENCODE's loop may write: YIN, BOUT, the counters, the report and its own place. -/
theorem encodeLoop_frame (ts : List YTok) (s : State) :
    encodeLoop ts s = { s with
      yin := (encodeLoop ts s).yin, yinLeft := (encodeLoop ts s).yinLeft, bout := (encodeLoop ts s).bout
      boutReady := (encodeLoop ts s).boutReady
      bitCount := (encodeLoop ts s).bitCount, byteCount := (encodeLoop ts s).byteCount
      busy := (encodeLoop ts s).busy, done := (encodeLoop ts s).done, err := (encodeLoop ts s).err
      errCode := (encodeLoop ts s).errCode, errInfo := (encodeLoop ts s).errInfo, seq := (encodeLoop ts s).seq } := by
  induction ts generalizing s with
  | nil => rfl
  | cons t ts ih =>
    cases t with
    | endTok =>
      rw [encodeLoop]
      split
      · rfl
      · rename_i c _
        split <;> rename_i e <;> rw [emitBits_frame e] <;> rfl
    | byte v =>
      rw [encodeLoop]
      split
      · rfl
      · rename_i c _
        split <;> rename_i e
        · rw [ih, emitBits_frame e]; rfl
        · rw [emitBits_frame e]; rfl

theorem encodeLoop_ends (ts : List YTok) (s : State) :
    Ended s (encodeLoop ts s) ∨
      Waiting (fun q => q = .encodeRead ∨ ∃ rest last, rest ≠ [] ∧ q = .encodeEmit rest last) s (encodeLoop ts s) := by
  induction ts generalizing s with
  | nil => exact .inr ⟨⟨rfl, rfl, rfl, rfl, rfl⟩, .inl rfl⟩
  | cons t ts ih =>
    cases t with
    | endTok =>
      rw [encodeLoop]
      split
      · exact .inl ((ended_raise (by decide) _ _).of_report ⟨rfl, rfl, rfl⟩)
      · rename_i c _
        split
        · rename_i u e
          rw [emitBits_frame e]
          exact .inl ((ended_finish _).of_report ⟨rfl, rfl, rfl⟩)
        · rename_i rest u hne e
          rw [emitBits_frame e]
          exact .inr ⟨⟨rfl, rfl, rfl, rfl, rfl⟩, .inr ⟨rest, true, fun hh => hne hh, rfl⟩⟩
    | byte v =>
      rw [encodeLoop]
      split
      · exact .inl ((ended_raise (by decide) _ _).of_report ⟨rfl, rfl, rfl⟩)
      · rename_i c _
        split
        · rename_i u e
          have g := ih u
          rw [emitBits_frame e] at g ⊢
          exact g.imp (·.of_report ⟨rfl, rfl, rfl⟩) (·.of_report ⟨rfl, rfl, rfl, rfl, rfl⟩)
        · rename_i rest u hne e
          rw [emitBits_frame e]
          exact .inr ⟨⟨rfl, rfl, rfl, rfl, rfl⟩, .inr ⟨rest, false, fun hh => hne hh, rfl⟩⟩

/-- ENCODE leaves the last of the tokens it was given, and what it writes on BOUT stands after what stood there. -/
theorem encodeLoop_ports (ts : List YTok) (s : State) :
    (∃ used, ts = used ++ (encodeLoop ts s).yin) ∧ ∃ sent, (encodeLoop ts s).bout = s.bout ++ sent := by
  induction ts generalizing s with
  | nil => exact ⟨⟨[], rfl⟩, [], (List.append_nil _).symm⟩
  | cons t ts ih =>
    cases t with
    | endTok =>
      rw [encodeLoop]
      split
      · exact ⟨⟨[.endTok], rfl⟩, [], (List.append_nil _).symm⟩
      · rename_i c _
        split <;> rename_i e <;> obtain ⟨sent, -, h2, -⟩ := emitBits_bout e <;>
          exact ⟨⟨[.endTok], by rw [emitBits_frame e]; rfl⟩, sent, h2⟩
    | byte v =>
      rw [encodeLoop]
      split
      · exact ⟨⟨[.byte v], rfl⟩, [], (List.append_nil _).symm⟩
      · rename_i c _
        split <;> rename_i e <;> obtain ⟨sent, -, h2, -⟩ := emitBits_bout e
        · rename_i u
          obtain ⟨⟨used, g1⟩, more, g2⟩ := ih u
          refine ⟨⟨.byte v :: used, congrArg _ g1⟩, sent ++ more, ?_⟩
          rw [g2, h2, List.append_assoc]; rfl
        · exact ⟨⟨[.byte v], by rw [emitBits_frame e]; rfl⟩, sent, h2⟩

/-! ### DECODE -/

theorem emitLeaf_some {n : NodeIdx} {s t : State} (h : emitLeaf n s = some t) :
    t = { s with youtReady := t.youtReady, yout := s.yout ++ [leafByte s n], byteCount := s.byteCount + 1#64 } := by
  unfold emitLeaf at h
  split at h
  · cases h
  · rename_i u hu
    simp only [Option.some.injEq] at h
    have := writeYout_some hu
    rw [← h, this]; rfl

theorem emitLeaf_all {s : State} (h : s.youtReady = .all) (n : NodeIdx) :
    emitLeaf n s = some { s with yout := s.yout ++ [leafByte s n], byteCount := s.byteCount + 1#64 } := by
  rw [emitLeaf, writeYout_all h]; rfl

/-- What DECODE's loop may write: BIN, YOUT, the counters, the report and its own place. -/
theorem decodeLoop_frame (ts : List BTok) (cur : NodeIdx) (s : State) :
    decodeLoop ts cur s = { s with
      bin := (decodeLoop ts cur s).bin, binLeft := (decodeLoop ts cur s).binLeft, yout := (decodeLoop ts cur s).yout
      youtReady := (decodeLoop ts cur s).youtReady
      bitCount := (decodeLoop ts cur s).bitCount, byteCount := (decodeLoop ts cur s).byteCount
      busy := (decodeLoop ts cur s).busy, done := (decodeLoop ts cur s).done, err := (decodeLoop ts cur s).err
      errCode := (decodeLoop ts cur s).errCode, errInfo := (decodeLoop ts cur s).errInfo, seq := (decodeLoop ts cur s).seq } := by
  induction ts generalizing cur s with
  | nil => rfl
  | cons t ts ih =>
    cases t with
    | endTok => rfl
    | bit b =>
      rw [decodeLoop]
      split
      · split
        · rfl
        · split
          · rfl
          · split
            · rfl
            · rename_i u hu
              rw [ih, emitLeaf_some hu]; rfl
      · rw [ih]; rfl

theorem decodeLoop_ends (ts : List BTok) (cur : NodeIdx) (s : State) :
    Ended s (decodeLoop ts cur s) ∨
      Waiting (fun q => (∃ c, q = .decodeRead c) ∨ ∃ c, q = .decodeWrite c) s (decodeLoop ts cur s) := by
  induction ts generalizing cur s with
  | nil => exact .inr ⟨⟨rfl, rfl, rfl, rfl, rfl⟩, .inl ⟨_, rfl⟩⟩
  | cons t ts ih =>
    cases t with
    | endTok => exact .inl ((ended_raise (by decide) _ _).of_report ⟨rfl, rfl, rfl⟩)
    | bit b =>
      rw [decodeLoop]
      split
      · split
        · exact .inl ((ended_finish _).of_report ⟨rfl, rfl, rfl⟩)
        · split
          · exact .inl ((ended_raise (by decide) _ _).of_report ⟨rfl, rfl, rfl⟩)
          · split
            · exact .inr ⟨⟨rfl, rfl, rfl, rfl, rfl⟩, .inr ⟨_, rfl⟩⟩
            · rename_i u hu
              have g := ih u.root u
              rw [emitLeaf_some hu] at g ⊢
              exact g.imp (·.of_report ⟨rfl, rfl, rfl⟩) (·.of_report ⟨rfl, rfl, rfl, rfl, rfl⟩)
      · exact (ih (child s cur b) (countBit (takeBin ts s))).imp (·.of_report ⟨rfl, rfl, rfl⟩)
          (·.of_report ⟨rfl, rfl, rfl, rfl, rfl⟩)

theorem decodeLoop_ports (ts : List BTok) (cur : NodeIdx) (s : State) :
    (∃ used, ts = used ++ (decodeLoop ts cur s).bin) ∧ ∃ sent, (decodeLoop ts cur s).yout = s.yout ++ sent := by
  induction ts generalizing cur s with
  | nil => exact ⟨⟨[], rfl⟩, [], (List.append_nil _).symm⟩
  | cons t ts ih =>
    cases t with
    | endTok => exact ⟨⟨[.endTok], rfl⟩, [], (List.append_nil _).symm⟩
    | bit b =>
      rw [decodeLoop]
      split
      · split
        · exact ⟨⟨[.bit b], rfl⟩, [], (List.append_nil _).symm⟩
        · split
          · exact ⟨⟨[.bit b], rfl⟩, [], (List.append_nil _).symm⟩
          · split
            · exact ⟨⟨[.bit b], rfl⟩, [], (List.append_nil _).symm⟩
            · rename_i u hu
              obtain ⟨⟨used, g1⟩, more, g2⟩ := ih u.root u
              refine ⟨⟨.bit b :: used, congrArg _ g1⟩, leafByte s (child s cur b) :: more, g2.trans ?_⟩
              rw [emitLeaf_some hu]
              simp only [List.append_assoc, List.singleton_append]
              rfl
      · obtain ⟨⟨used, g1⟩, more, g2⟩ := ih (child s cur b) (countBit (takeBin ts s))
        exact ⟨⟨.bit b :: used, congrArg _ g1⟩, more, g2⟩

/-- DECODE waits at an internal node of the tree, or at a byte's leaf (rule R161). -/
theorem decodeLoop_place {ts : List BTok} {cur : NodeIdx} {s : State}
    (hch : ∀ n : NodeIdx, n.val < s.nodeCnt.val → isLeaf s n = false → ∀ b, (child s n b).val < s.nodeCnt.val)
    (hr : s.root.val < s.nodeCnt.val) (hrl : isLeaf s s.root = false)
    (hc : cur.val < s.nodeCnt.val) (hcl : isLeaf s cur = false) :
    (∀ c, (decodeLoop ts cur s).seq = .decodeRead c → c.val < s.nodeCnt.val ∧ isLeaf s c = false) ∧
    (∀ c, (decodeLoop ts cur s).seq = .decodeWrite c →
      c.val < s.nodeCnt.val ∧ isLeaf s c = true ∧ (nodeAt s c).sym.toNat ≤ 255) := by
  induction ts generalizing cur s with
  | nil =>
    constructor
    · intro c e
      simp only [decodeLoop, waitAt_seq, Seq.decodeRead.injEq] at e
      exact e ▸ ⟨hc, hcl⟩
    · intro c e; cases e
  | cons t ts ih =>
    cases t with
    | endTok => exact ⟨fun c e => (by cases e), fun c e => (by cases e)⟩
    | bit b =>
      have hcb := hch cur hc hcl b
      rw [decodeLoop]
      split
      · rename_i hl
        split
        · exact ⟨fun c e => (by cases e), fun c e => (by cases e)⟩
        · split
          · exact ⟨fun c e => (by cases e), fun c e => (by cases e)⟩
          · rename_i hm
            split
            · refine ⟨fun c e => (by cases e), fun c e => ?_⟩
              simp only [waitAt_seq, Seq.decodeWrite.injEq] at e
              subst e
              exact ⟨hcb, hl, by simpa [isMarkerLeaf] using hm⟩
            · rename_i u hu
              have hu' := emitLeaf_some hu
              have := ih (s := u) (cur := u.root) (by rw [hu']; exact hch) (by rw [hu']; exact hr) (by rw [hu']; exact hrl)
                (by rw [hu']; exact hr) (by rw [hu']; exact hrl)
              rw [hu'] at this ⊢
              exact this
      · rename_i hl
        exact ih (s := countBit (takeBin ts s)) hch hr hrl hcb (Bool.not_eq_true _ ▸ hl)

end Sys2Proof.Machine
end

