-- ==== Sys2Proof/Laws/Header.lean ====
section
/-! SUPPORT. HDR_READ over whole headers: what its loop does over digits, entries, a header, and at each offence of rule R182; and
the digits HDR_WRITE writes. -/

namespace Sys2Proof.Machine

open Sys2Proof

/-! ### Digits -/

theorem digit?_char (d : Fin 10) : digit? (.byte (digitChar d)) = some d.val := by
  revert d; decide

theorem digit?_none {t : YTok} (h : NoDigit t) : digit? t = none := by
  cases t with
  | endTok => rfl
  | byte v =>
    rw [digit?, if_neg]
    rintro ⟨h1, h2⟩
    refine h ⟨v.toNat - 0x30, by omega⟩ (congrArg _ (BitVec.eq_of_toNat_eq ?_))
    have := v.isLt
    simp only [digitChar, BitVec.toNat_ofNat]
    omega

theorem digit?_some {t : YTok} {n : Nat} (h : digit? t = some n) : ∃ d : Fin 10, t = .byte (digitChar d) ∧ n = d.val := by
  cases t with
  | endTok => cases h
  | byte v =>
    rw [digit?] at h
    split at h
    · simp only [Option.some.injEq] at h
      refine ⟨⟨v.toNat - 0x30, by omega⟩, congrArg _ (BitVec.eq_of_toNat_eq ?_), h.symm⟩
      have := v.isLt
      simp only [digitChar, BitVec.toNat_ofNat]
      omega
    · cases h

theorem noDigit_of_none {t : YTok} (h : digit? t = none) : NoDigit t := by
  rintro d rfl
  rw [digit?_char] at h; cases h

theorem digitsValue_snoc (ds : List (Fin 10)) (d : Fin 10) : digitsValue (ds ++ [d]) = 10 * digitsValue ds + d.val := by
  rw [digitsValue, List.foldl_append]; rfl

theorem digitsValue_prefix (ds es : List (Fin 10)) : digitsValue ds ≤ digitsValue (ds ++ es) := by
  induction es using List.reverseRecOn with
  | nil => simp
  | append_singleton es d ih =>
    rw [← List.append_assoc, digitsValue_snoc]; omega

/-! ### HDR_READ's loop, token by token -/

/-- HDR_READ's loop takes its tokens from its argument. -/
theorem hdrLoop_takeYin (ts x : List YTok) (pos : Nat) (place : HdrPos) (s : State) :
    hdrLoop ts pos place (takeYin x s) = hdrLoop ts pos place s := by
  cases ts with
  | nil => rfl
  | cons t ts => cases t <;> rfl

/-- The state of HDR_READ's run: the mapping read so far, and the bytes counted. -/
def hdrAt (s : State) (ft : FreqTable) (n : Nat) : State := { s with ft := ft, byteCount := s.byteCount + BitVec.ofNat 64 n }

theorem countByte_hdrAt (s : State) (ft : FreqTable) (n : Nat) : countByte (hdrAt s ft n) = hdrAt s ft (n + 1) := by
  simp only [countByte, hdrAt, BitVec.ofNat_add, BitVec.add_assoc]

/-- The parser reads bytes and stands at another place. -/
def HdrGoes (bs : List Byte) (place : HdrPos) (s : State) (place' : HdrPos) (s' : State) : Prop :=
  ∀ (pos : Nat) (ts : List YTok), hdrLoop (bs.map YTok.byte ++ ts) pos place s = hdrLoop ts (pos + bs.length) place' s'

theorem HdrGoes.nil (place : HdrPos) (s : State) : HdrGoes [] place s place s := fun _ _ => rfl

theorem HdrGoes.append {as bs : List Byte} {p q r : HdrPos} {s t u : State} (h : HdrGoes as p s q t) (g : HdrGoes bs q t r u) :
    HdrGoes (as ++ bs) p s r u := by
  intro pos ts
  rw [List.map_append, List.append_assoc, h, g, List.length_append, Nat.add_assoc]

theorem HdrGoes.cast {bs cs : List Byte} {p q : HdrPos} {s s0 : State} {ft : FreqTable} {n m : Nat}
    (h : HdrGoes bs p s q (hdrAt s0 ft n)) (e1 : bs = cs) (e2 : n = m) : HdrGoes cs p s q (hdrAt s0 ft m) := e1 ▸ e2 ▸ h

theorem hdrGoes_one {b : Byte} {p q : HdrPos} {s : State} {ft : FreqTable} {n : Nat} (h : hdrToken ft p (.byte b) = .go q) :
    HdrGoes [b] p (hdrAt s ft n) q (hdrAt s ft (n + 1)) := by
  intro pos ts
  have h' : hdrToken (hdrAt s ft n).ft p (.byte b) = .go q := h
  rw [List.map_singleton, List.singleton_append, hdrLoop, h']
  simp only
  rw [show countToken (.byte b) (takeYin ts (hdrAt s ft n)) = takeYin ts (countByte (hdrAt s ft n)) from rfl, hdrLoop_takeYin,
    countByte_hdrAt]
  rfl

theorem hdrGoes_store {b : Byte} {p q : HdrPos} {s : State} {ft : FreqTable} {n : Nat} {k : Key} {c : Count}
    (h : hdrToken ft p (.byte b) = .store k c q) :
    HdrGoes [b] p (hdrAt s ft n) q (hdrAt s (ft.set k (some c)) (n + 1)) := by
  intro pos ts
  have h' : hdrToken (hdrAt s ft n).ft p (.byte b) = .store k c q := h
  rw [List.map_singleton, List.singleton_append, hdrLoop, h']
  simp only
  rw [show setFt k c (countToken (.byte b) (takeYin ts (hdrAt s ft n))) = takeYin ts (setFt k c (countByte (hdrAt s ft n))) from rfl,
    hdrLoop_takeYin, countByte_hdrAt]
  rfl

/-- The digits of a key after its first ones. -/
theorem hdrGoes_key {s : State} {ft : FreqTable} (ds es : List (Fin 10)) {n : Nat} (h : digitsValue (ds ++ es) < 257)
    (h0 : digitsValue ds < 257) :
    HdrGoes (es.map digitChar) (.key ⟨digitsValue ds, h0⟩) (hdrAt s ft n) (.key ⟨digitsValue (ds ++ es), h⟩)
      (hdrAt s ft (n + es.length)) := by
  induction es generalizing ds n with
  | nil => simp only [List.append_nil]; exact HdrGoes.nil _ _
  | cons d es ih =>
    have h1 : digitsValue (ds ++ [d]) < 257 := by
      have := digitsValue_prefix (ds ++ [d]) es
      rw [List.append_assoc] at this
      simp at this; omega
    have h2 : digitsValue (ds ++ [d] ++ es) < 257 := by rw [List.append_assoc]; exact h
    have hgo := hdrGoes_one (b := digitChar d) (p := .key ⟨digitsValue ds, h0⟩) (q := .key ⟨digitsValue (ds ++ [d]), h1⟩) (s := s)
      (ft := ft) (n := n) (by
        rw [digitsValue_snoc] at h1
        rw [hdrToken]
        simp only [digit?_char, keyDigit, dif_pos h1, digitsValue_snoc])
    have := hgo.append (ih (ds ++ [d]) (n := n + 1) h2 h1)
    simp only [List.append_assoc, List.singleton_append, List.map_cons, List.length_cons] at this ⊢
    rw [Nat.add_comm es.length 1, ← Nat.add_assoc]
    exact this

/-- A key: its digits, from the place where its first digit is expected. -/
theorem hdrGoes_firstKey {s : State} {ft : FreqTable} {p : HdrPos} (hp : p = .first ∨ p = .keyFirst) {ds : List (Fin 10)} {n : Nat}
    (hne : ds ≠ []) (h : digitsValue ds < 257) :
    HdrGoes (ds.map digitChar) p (hdrAt s ft n) (.key ⟨digitsValue ds, h⟩) (hdrAt s ft (n + ds.length)) := by
  obtain ⟨d, es, rfl⟩ := List.exists_cons_of_ne_nil hne
  have hd : digitsValue [d] = d.val := by simp [digitsValue]
  have hlt := d.isLt
  have h1 : digitsValue [d] < 257 := by omega
  have hgo := hdrGoes_one (b := digitChar d) (p := p) (q := .key ⟨digitsValue [d], h1⟩) (s := s) (ft := ft) (n := n) (by
    have hk : keyDigit 0 d.val = .go (.key ⟨digitsValue [d], h1⟩) := by
      rw [keyDigit, dif_pos (by omega)]; simp only [hd]; simp
    have hc : YTok.byte (digitChar d) ≠ .byte chClose := (show ∀ d, YTok.byte (digitChar d) ≠ .byte chClose by decide) d
    rcases hp with rfl | rfl
    · rw [hdrToken, if_neg hc, digit?_char]; exact hk
    · rw [hdrToken, digit?_char]; exact hk)
  have := hgo.append (hdrGoes_key (s := s) (ft := ft) [d] es (n := n + 1) h h1)
  simp only [List.singleton_append, List.map_cons, List.length_cons] at this ⊢
  rw [Nat.add_comm es.length 1, ← Nat.add_assoc]
  exact this

/-- The digits of a value after its first ones. -/
theorem hdrGoes_value {s : State} {ft : FreqTable} {k : Key} (ds es : List (Fin 10)) {n : Nat}
    (h : digitsValue (ds ++ es) ≤ Config.countMax) :
    HdrGoes (es.map digitChar) (.value k (BitVec.ofNat 32 (digitsValue ds))) (hdrAt s ft n)
      (.value k (BitVec.ofNat 32 (digitsValue (ds ++ es)))) (hdrAt s ft (n + es.length)) := by
  induction es generalizing ds n with
  | nil => simp only [List.append_nil]; exact HdrGoes.nil _ _
  | cons d es ih =>
    have h1 : digitsValue (ds ++ [d]) ≤ Config.countMax := by
      have := digitsValue_prefix (ds ++ [d]) es
      rw [List.append_assoc] at this
      simp at this; omega
    have h2 : digitsValue (ds ++ [d] ++ es) ≤ Config.countMax := by rw [List.append_assoc]; exact h
    have h3 : digitsValue ds ≤ Config.countMax := Nat.le_trans (digitsValue_prefix ds [d]) h1
    have hgo := hdrGoes_one (b := digitChar d) (p := .value k (BitVec.ofNat 32 (digitsValue ds)))
      (q := .value k (BitVec.ofNat 32 (digitsValue (ds ++ [d])))) (s := s) (ft := ft) (n := n) (by
        rw [digitsValue_snoc] at h1 ⊢
        have : (BitVec.ofNat 32 (digitsValue ds)).toNat = digitsValue ds := by
          simp only [BitVec.toNat_ofNat]
          rw [Config.countMax] at h3
          exact Nat.mod_eq_of_lt (by omega)
        rw [hdrToken]
        simp only [digit?_char, valueDigit, this, if_pos h1])
    have := hgo.append (ih (ds ++ [d]) (n := n + 1) h2)
    simp only [List.append_assoc, List.singleton_append, List.map_cons, List.length_cons] at this ⊢
    rw [Nat.add_comm es.length 1, ← Nat.add_assoc]
    exact this

/-- A value: its digits, from the place after ':'. -/
theorem hdrGoes_firstValue {s : State} {ft : FreqTable} {k : Key} {ds : List (Fin 10)} {n : Nat} (hne : ds ≠ [])
    (h : digitsValue ds ≤ Config.countMax) :
    HdrGoes (ds.map digitChar) (.valueFirst k) (hdrAt s ft n) (.value k (BitVec.ofNat 32 (digitsValue ds)))
      (hdrAt s ft (n + ds.length)) := by
  obtain ⟨d, es, rfl⟩ := List.exists_cons_of_ne_nil hne
  have hd : digitsValue [d] = d.val := by simp [digitsValue]
  have hlt := d.isLt
  have hgo := hdrGoes_one (b := digitChar d) (p := .valueFirst k) (q := .value k (BitVec.ofNat 32 (digitsValue [d]))) (s := s)
    (ft := ft) (n := n) (by
      rw [hdrToken]
      simp only [digit?_char, valueDigit]
      rw [if_pos (by rw [Config.countMax]; omega), hd]; simp)
  have := hgo.append (hdrGoes_value (s := s) (ft := ft) (k := k) [d] es (n := n + 1) h)
  simp only [List.singleton_append, List.map_cons, List.length_cons] at this ⊢
  rw [Nat.add_comm es.length 1, ← Nat.add_assoc]
  exact this

/-! ### Entries -/

theorem mappingOf_get (es : List HdrEntry) (k : Key) :
    (mappingOf es)[k] = (es.find? fun e => digitsValue e.key == k.val).map fun e => BitVec.ofNat 32 (digitsValue e.value) := by
  simp [mappingOf, Fin.getElem_fin]

theorem mappingOf_nil : mappingOf [] = Vector.replicate 257 none := table_ext fun k => by
  rw [mappingOf_get, emptyTable_getElem]; rfl

theorem mappingOf_none {es : List HdrEntry} {k : Key} :
    (mappingOf es)[k] = none ↔ k.val ∉ es.map fun e => digitsValue e.key := by
  rw [mappingOf_get, Option.map_eq_none_iff, List.find?_eq_none]
  simp

theorem mappingOf_snoc {es : List HdrEntry} {e : HdrEntry} {k : Key} (hk : digitsValue e.key = k.val)
    (hn : k.val ∉ es.map fun e => digitsValue e.key) :
    mappingOf (es ++ [e]) = (mappingOf es).set k (some (BitVec.ofNat 32 (digitsValue e.value))) := table_ext fun j => by
  rw [setTable_getElem, mappingOf_get, List.find?_append]
  by_cases hj : k = j
  · subst hj
    rw [if_pos rfl]
    have : es.find? (fun e => digitsValue e.key == k.val) = none := by
      have := mappingOf_none.mpr hn
      rwa [mappingOf_get, Option.map_eq_none_iff] at this
    rw [this]
    simp [hk]
  · rw [if_neg hj, mappingOf_get]
    have : (digitsValue e.key == j.val) = false := by
      rw [beq_eq_false_iff_ne, hk]; exact fun h => hj (Fin.ext h)
    simp [this]

theorem EntriesOk.left {es fs : List HdrEntry} (h : EntriesOk (es ++ fs)) : EntriesOk es :=
  ⟨fun e he => h.each e (List.mem_append_left _ he), by
    have := h.distinct
    rw [List.map_append] at this
    exact (List.nodup_append.mp this).1⟩

theorem EntriesOk.last {es : List HdrEntry} {e : HdrEntry} (h : EntriesOk (es ++ [e])) :
    e.Ok ∧ digitsValue e.key ∉ es.map fun e => digitsValue e.key := by
  refine ⟨h.each e (by simp), fun hm => ?_⟩
  have := h.distinct
  rw [List.map_append, List.nodup_append] at this
  exact this.2.2 _ hm _ (by simp) rfl

/-- An entry, up to its last digit. -/
theorem hdrGoes_entry {s : State} {ft : FreqTable} {p : HdrPos} (hp : p = .first ∨ p = .keyFirst) {e : HdrEntry} (he : e.Ok)
    {k : Key} (hk : digitsValue e.key = k.val) (hn : ft[k] = none) {n : Nat} :
    HdrGoes e.text p (hdrAt s ft n) (.value k (BitVec.ofNat 32 (digitsValue e.value))) (hdrAt s ft (n + e.text.length)) := by
  have hlt := k.isLt
  have h1 := hdrGoes_firstKey (s := s) (ft := ft) hp (n := n) he.key.1 (by omega : digitsValue e.key < 257)
  have hkk : (⟨digitsValue e.key, by omega⟩ : Key) = k := Fin.ext hk
  rw [hkk] at h1
  have h2 := hdrGoes_one (b := 0x3A#8) (p := .key k) (q := .valueFirst k) (s := s) (ft := ft) (n := n + e.key.length) (by
    rw [hdrToken]
    have : digit? (.byte 0x3A#8) = none := by decide
    simp only [this, hn]; rfl)
  have h3 := hdrGoes_firstValue (s := s) (ft := ft) (k := k) (n := n + e.key.length + 1) he.value.1 he.value.2
  have := (h1.append h2).append h3
  have hl : n + e.key.length + 1 + e.value.length = n + e.text.length := by simp [HdrEntry.text]; omega
  rw [hl] at this
  simpa [HdrEntry.text] using this

/-- The entries so far, each with its separator. -/
theorem hdrGoes_open {s : State} {es : List HdrEntry} (h : EntriesOk es) :
    HdrGoes (0x7B#8 :: entriesOpen es) .brace (hdrAt s (mappingOf []) 0) (if es = [] then .first else .keyFirst)
      (hdrAt s (mappingOf es) (entriesOpen es).length.succ) := by
  induction es using List.reverseRecOn with
  | nil => exact hdrGoes_one (by decide)
  | append_singleton es e ih =>
    have h1 := ih h.left
    obtain ⟨he, hn⟩ := h.last
    have hk256 := he.key.2
    have hp : (if es = [] then HdrPos.first else .keyFirst) = .first ∨ (if es = [] then HdrPos.first else .keyFirst) = .keyFirst := by
      split <;> simp
    have h2 := hdrGoes_entry (s := s) (ft := mappingOf es) hp he (k := ⟨digitsValue e.key, by omega⟩) rfl (mappingOf_none.mpr hn)
      (n := (entriesOpen es).length.succ)
    have h3 := hdrGoes_store (b := 0x2C#8) (p := .value ⟨digitsValue e.key, by omega⟩ (BitVec.ofNat 32 (digitsValue e.value)))
      (q := .space) (s := s) (ft := mappingOf es) (n := (entriesOpen es).length.succ + e.text.length) (k := ⟨digitsValue e.key, by omega⟩)
      (c := BitVec.ofNat 32 (digitsValue e.value)) rfl
    have h4 := hdrGoes_one (b := 0x20#8) (p := .space) (q := .keyFirst) (s := s) (ft := mappingOf (es ++ [e]))
      (n := (entriesOpen es).length.succ + e.text.length + 1) rfl
    rw [← mappingOf_snoc rfl hn] at h3
    have := ((h1.append h2).append h3).append h4
    have hl : (entriesOpen es).length.succ + e.text.length + 1 + 1 = (entriesOpen (es ++ [e])).length.succ := by
      simp [entriesOpen]; omega
    rw [hl] at this
    simpa [entriesOpen] using this

theorem intercalate_snoc (es : List HdrEntry) (e : HdrEntry) :
    List.intercalate [0x2C#8, 0x20#8] ((es ++ [e]).map HdrEntry.text) = entriesOpen es ++ e.text := by
  induction es with
  | nil => simp [entriesOpen, List.intercalate]
  | cons a es ih =>
    have : ∀ x : List Byte, ∀ l : List (List Byte), l ≠ [] →
        List.intercalate [0x2C#8, 0x20#8] (x :: l) = x ++ [0x2C#8, 0x20#8] ++ List.intercalate [0x2C#8, 0x20#8] l := by
      intro x l hl
      obtain ⟨y, l, rfl⟩ := List.exists_cons_of_ne_nil hl
      simp [List.intercalate, List.intersperse]
    rw [List.cons_append, List.map_cons, this _ _ (by simp), ih]
    simp [entriesOpen]

theorem hdrText_nil : hdrText [] = [0x7B#8, 0x7D#8] := rfl

theorem hdrText_snoc (es : List HdrEntry) (e : HdrEntry) :
    hdrText (es ++ [e]) = 0x7B#8 :: entriesOpen es ++ e.text ++ [0x7D#8] := by
  rw [hdrText, intercalate_snoc]; simp

/-! ### The end of a header, and its offences -/

/-- HDR_READ's start. -/
theorem execHdrRead_start (s : State) :
    execHdrRead s = .next (hdrLoop s.yin 0 .brace (hdrAt (invalidateTree s) (mappingOf []) 0)) := by
  rw [execHdrRead, mappingOf_nil]
  simp only [hdrAt, clearFt, BitVec.add_zero]

/-- The loop at an offending token. -/
theorem hdrLoop_fail {s : State} {ft : FreqTable} {n pos : Nat} {p : HdrPos} {t : YTok} {ts : List YTok}
    (h : hdrToken ft p t = .fail) :
    hdrLoop (t :: ts) pos p (hdrAt s ft n) = failHeader pos (leaveYin (countToken t (takeYin ts (hdrAt s ft n)))) := by
  have h' : hdrToken (hdrAt s ft n).ft p t = .fail := h
  rw [hdrLoop, h']

theorem failHeader_lt {p : Nat} (h : p < 2 ^ 32) (s : State) :
    failHeader p s = raise .malformedHeader (BitVec.ofNat 32 p) (clearFt s) := if_pos h

/-- The first place of an entry. -/
def entryPlace (es : List HdrEntry) : HdrPos := if es = [] then .first else .keyFirst

theorem entryPlace_cases (es : List HdrEntry) : entryPlace es = .first ∨ entryPlace es = .keyFirst := by
  unfold entryPlace; split <;> simp

/-- Every offence of rule R182 stands where the parser fails: the bytes before it are read, and the token is refused. -/
theorem Offence.goes {pre : List Byte} {t : YTok} (h : Offence pre t) (s : State) :
    ∃ (p : HdrPos) (ft : FreqTable), HdrGoes pre .brace (hdrAt s (mappingOf []) 0) p (hdrAt s ft pre.length) ∧
      hdrToken ft p t = .fail := by
  cases h with
  | noBrace t h => exact ⟨.brace, _, HdrGoes.nil _ _, if_neg h⟩
  | noFirstKey t h1 h2 =>
    refine ⟨.first, _, hdrGoes_open (s := s) (es := []) ⟨by simp, by simp⟩, ?_⟩
    rw [hdrToken, if_neg (show t ≠ .byte chClose from h2), digit?_none h1]
  | noKey es t h1 h2 h3 =>
    have := hdrGoes_open (s := s) h1
    rw [if_neg h2] at this
    refine ⟨.keyFirst, _, this, ?_⟩
    rw [hdrToken, digit?_none h3]
  | noColon es k t h1 h2 h3 h4 h5 =>
    have := (hdrGoes_open (s := s) h1).append (hdrGoes_firstKey (entryPlace_cases es) h2 (by omega : digitsValue k < 257))
    refine ⟨.key ⟨digitsValue k, by omega⟩, mappingOf es, this.cast (by simp) (by simp; omega), ?_⟩
    rw [hdrToken, digit?_none h4]
    simp only
    rw [if_neg (show t ≠ .byte chColon from h5)]
  | keyLimit es k d h1 h3 h4 =>
    have hne : k ≠ [] := by
      rintro rfl
      have := d.isLt
      simp [digitsValue] at h4; omega
    have := (hdrGoes_open (s := s) h1).append (hdrGoes_firstKey (entryPlace_cases es) hne (by omega : digitsValue k < 257))
    refine ⟨.key ⟨digitsValue k, by omega⟩, mappingOf es, this.cast (by simp) (by simp; omega), ?_⟩
    rw [hdrToken, digit?_char]
    simp only
    rw [digitsValue_snoc] at h4
    rw [keyDigit, dif_neg (by omega)]
  | keyTwice es k h1 h2 h3 =>
    have hlt : digitsValue k < 257 := by
      obtain ⟨e, he, hk⟩ := List.mem_map.mp h3
      have := (h1.each e he).key.2
      omega
    have := (hdrGoes_open (s := s) h1).append (hdrGoes_firstKey (entryPlace_cases es) h2 hlt)
    refine ⟨.key ⟨digitsValue k, hlt⟩, mappingOf es, this.cast (by simp) (by simp; omega), ?_⟩
    have hd : digit? (.byte 0x3A#8) = none := by decide
    have hs : (mappingOf es)[(⟨digitsValue k, hlt⟩ : Key)].isSome = true := by
      rw [Option.isSome_iff_ne_none, Ne, mappingOf_none]
      exact fun hn => hn h3
    rw [hdrToken, hd]
    simp only
    rw [if_pos (by rfl), if_pos hs]
  | noValue es k t h1 h2 h3 h4 h5 =>
    have hn : (mappingOf es)[(⟨digitsValue k, by omega⟩ : Key)] = none := mappingOf_none.mpr h4
    have hc := hdrGoes_one (b := 0x3A#8) (p := .key ⟨digitsValue k, by omega⟩) (q := .valueFirst ⟨digitsValue k, by omega⟩) (s := s)
      (ft := mappingOf es) (n := (entriesOpen es).length.succ + k.length) (by
        have hd : digit? (.byte 0x3A#8) = none := by decide
        rw [hdrToken]
        simp only [hd, hn]; rfl)
    have := ((hdrGoes_open (s := s) h1).append (hdrGoes_firstKey (entryPlace_cases es) h2 (by omega : digitsValue k < 257))).append hc
    refine ⟨.valueFirst ⟨digitsValue k, by omega⟩, mappingOf es, this.cast (by simp) (by simp; omega), ?_⟩
    rw [hdrToken, digit?_none h5]
  | valueLimit es k c d h1 h2 h3 h4 h5 h6 =>
    have hne : c ≠ [] := by
      rintro rfl
      have := d.isLt
      simp [digitsValue, Config.countMax] at h6; omega
    have hn : (mappingOf es)[(⟨digitsValue k, by omega⟩ : Key)] = none := mappingOf_none.mpr h4
    have hg := hdrGoes_entry (s := s) (ft := mappingOf es) (entryPlace_cases es) (e := ⟨k, c⟩) ⟨⟨h2, h3⟩, hne, h5⟩
      (k := ⟨digitsValue k, by omega⟩) rfl hn (n := (entriesOpen es).length.succ)
    have := (hdrGoes_open (s := s) h1).append hg
    refine ⟨.value ⟨digitsValue k, by omega⟩ (BitVec.ofNat 32 (digitsValue c)), mappingOf es, this.cast (by simp [HdrEntry.text])
      (by simp [HdrEntry.text]; omega), ?_⟩
    have hm : (BitVec.ofNat 32 (digitsValue c)).toNat = digitsValue c := by
      rw [Config.countMax] at h5
      exact Nat.mod_eq_of_lt (by omega)
    rw [digitsValue_snoc] at h6
    rw [hdrToken, digit?_char]
    simp only
    rw [valueDigit, hm, if_neg (by omega)]
  | noSeparator es e t h1 h2 h3 h4 =>
    obtain ⟨he, hn⟩ := h1.last
    have hk := he.key.2
    have hg := hdrGoes_entry (s := s) (ft := mappingOf es) (entryPlace_cases es) he
      (k := ⟨digitsValue e.key, by omega⟩) rfl (mappingOf_none.mpr hn) (n := (entriesOpen es).length.succ)
    have := (hdrGoes_open (s := s) h1.left).append hg
    refine ⟨_, mappingOf es, this.cast (by simp) (by simp; omega), ?_⟩
    rw [hdrToken, digit?_none h2]
    simp only
    rw [if_neg (show t ≠ .byte chClose from h3), if_neg (show t ≠ .byte chComma from h4)]
  | noSpace es e t h1 h2 =>
    obtain ⟨he, hn⟩ := h1.last
    have hk := he.key.2
    have hg := hdrGoes_entry (s := s) (ft := mappingOf es) (entryPlace_cases es) he
      (k := ⟨digitsValue e.key, by omega⟩) rfl (mappingOf_none.mpr hn) (n := (entriesOpen es).length.succ)
    have h3 := hdrGoes_store (b := 0x2C#8) (p := .value ⟨digitsValue e.key, by omega⟩ (BitVec.ofNat 32 (digitsValue e.value)))
      (q := .space) (s := s) (ft := mappingOf es) (n := (entriesOpen es).length.succ + e.text.length) (k := ⟨digitsValue e.key, by omega⟩)
      (c := BitVec.ofNat 32 (digitsValue e.value)) rfl
    have := ((hdrGoes_open (s := s) h1.left).append hg).append h3
    exact ⟨.space, _, this.cast (by simp) (by simp; omega), if_neg h2⟩

/-- A header of the grammar is read to its end. -/
theorem hdrLoop_header {es : List HdrEntry} (h : EntriesOk es) (s : State) (pos : Nat) (rest : List YTok) :
    hdrLoop ((hdrText es).map YTok.byte ++ rest) pos .brace (hdrAt s (mappingOf []) 0) =
      finish (leaveYin (takeYin rest (hdrAt s (mappingOf es) (hdrText es).length))) := by
  rcases List.eq_nil_or_concat es with rfl | ⟨fs, e, rfl⟩
  · have hg := hdrGoes_open (s := s) (es := []) h
    rw [hdrText_nil]
    have := hg pos (.byte 0x7D#8 :: rest)
    refine Eq.trans this ?_
    rw [hdrLoop]
    show finish (leaveYin (countByte (takeYin rest (hdrAt s (mappingOf []) 1)))) = _
    rw [show countByte (takeYin rest (hdrAt s (mappingOf []) 1)) = takeYin rest (countByte (hdrAt s (mappingOf []) 1)) from rfl,
      countByte_hdrAt]
    rfl
  · rw [List.concat_eq_append] at h ⊢
    obtain ⟨he, hn⟩ := h.last
    have hk := he.key.2
    have hg := hdrGoes_entry (s := s) (ft := mappingOf fs) (entryPlace_cases fs) he
      (k := ⟨digitsValue e.key, by omega⟩) rfl (mappingOf_none.mpr hn) (n := (entriesOpen fs).length.succ)
    have := (hdrGoes_open (s := s) h.left).append hg pos (.byte 0x7D#8 :: rest)
    rw [hdrText_snoc, List.map_append, List.append_assoc]
    refine Eq.trans this ?_
    rw [hdrLoop]
    show finish (leaveYin (setFt _ _ (countByte (takeYin rest (hdrAt s (mappingOf fs) _))))) = _
    have hcb : ∀ n, countByte (takeYin rest (hdrAt s (mappingOf fs) n)) = takeYin rest (countByte (hdrAt s (mappingOf fs) n)) := fun _ => rfl
    rw [hcb, countByte_hdrAt, mappingOf_snoc (k := ⟨digitsValue e.key, by omega⟩) rfl hn]
    have hl : (0x7B#8 :: entriesOpen fs ++ e.text ++ [0x7D#8]).length = (entriesOpen fs).length.succ + e.text.length + 1 := by
      simp; omega
    rw [hl]
    rfl

/-! ### HDR_WRITE's text -/

/-- `PutDec` writes the plain digits of its number. -/
theorem decDigits_plain {n v : Nat} (h : v < 10 ^ (n + 1)) :
    ∃ ds : List (Fin 10), decDigits (n + 1) v = ds.map (fun d => d.val) ∧ digitsValue ds = v ∧ plainDigits ds ∧
      (v ≠ 0 → ds.head? ≠ some 0) := by
  induction n generalizing v with
  | zero =>
    have hv : v < 10 := by simpa using h
    refine ⟨[⟨v, hv⟩], by simp [decDigits, hv], by simp [digitsValue], ⟨by simp, .inl rfl⟩, fun h0 e => ?_⟩
    simp [Fin.ext_iff] at e
    omega
  | succ n ih =>
    rw [decDigits]
    by_cases hv : v < 10
    · refine ⟨[⟨v, hv⟩], by simp [hv], by simp [digitsValue], ⟨by simp, .inl rfl⟩, fun h0 e => ?_⟩
      simp [Fin.ext_iff] at e
      omega
    · obtain ⟨ds, h1, h2, h3, h4⟩ := ih (v := v / 10) (by rw [Nat.pow_succ] at h; omega)
      have h5 := h4 (by omega)
      obtain ⟨d, es, rfl⟩ := List.exists_cons_of_ne_nil h3.1
      refine ⟨d :: es ++ [⟨v % 10, by omega⟩], ?_, ?_, ⟨by simp, .inr (by simpa using h5)⟩, fun _ => by simpa using h5⟩
      · rw [if_neg hv, h1]; simp
      · rw [digitsValue_snoc, h2]; simp only; omega

theorem decText_plain {v : Nat} (h : v < 2 ^ 32) :
    ∃ ds : List (Fin 10), decText v = ds.map digitChar ∧ digitsValue ds = v ∧ plainDigits ds := by
  obtain ⟨ds, h1, h2, h3, -⟩ := decDigits_plain (n := 9) (v := v) (by omega)
  refine ⟨ds, ?_, h2, h3⟩
  rw [decText, h1, List.map_map]
  rfl

/-- The header text is a header of the grammar, in HDR_WRITE's own form. -/
theorem headerText_writes (ft : FreqTable) : ∃ es, WritesMapping ft es ∧ headerText ft = hdrText es := by
  have key : ∀ ks : List Key, ∃ es : List HdrEntry, (es.map fun e => digitsValue e.key) = ks.map (fun k => k.val) ∧
      (es.map fun e => digitsValue e.value) = ks.map (fun k => (countOf ft k).toNat) ∧
      (∀ e ∈ es, plainDigits e.key ∧ plainDigits e.value) ∧ es.map HdrEntry.text = ks.map (entryText ft) := by
    intro ks
    induction ks with
    | nil => exact ⟨[], rfl, rfl, by simp, rfl⟩
    | cons k ks ih =>
      obtain ⟨es, h1, h2, h3, h4⟩ := ih
      obtain ⟨dk, a1, a2, a3⟩ := decText_plain (v := k.val) (by have := k.isLt; omega)
      obtain ⟨dv, b1, b2, b3⟩ := decText_plain (countOf ft k).isLt
      refine ⟨⟨dk, dv⟩ :: es, by simp [h1, a2], by simp [h2, b2], ?_, ?_⟩
      · intro e he
        rcases List.mem_cons.mp he with rfl | he
        · exact ⟨a3, b3⟩
        · exact h3 e he
      · rw [List.map_cons, List.map_cons, h4]
        simp [HdrEntry.text, entryText, a1, b1, chColon]
  obtain ⟨es, h1, h2, h3, h4⟩ := key (keys ft)
  refine ⟨es, ⟨h1, h2, h3⟩, ?_⟩
  rw [headerText, hdrText, h4]
  congr 1
  congr 1
  rcases keys ft with _ | ⟨k, ks⟩
  · rfl
  · have : ∀ (x : List Byte) (l : List (List Byte)), List.intercalate [0x2C#8, 0x20#8] (x :: l) =
        x ++ l.flatMap fun y => [0x2C#8, 0x20#8] ++ y := by
      intro x l
      induction l generalizing x with
      | nil => simp [List.intercalate]
      | cons y l ih =>
        have e : List.intercalate [0x2C#8, 0x20#8] (x :: y :: l) = x ++ [0x2C#8, 0x20#8] ++ List.intercalate [0x2C#8, 0x20#8] (y :: l) := by
          simp [List.intercalate, List.intersperse]
        rw [e, ih]; simp
    rw [List.map_cons, this, entriesText, moreEntries, List.flatMap_map]
    rfl

/-- With YOUT accepting, HDR_WRITE puts every byte and ends. -/
theorem putLoop_all {s : State} (h : s.youtReady = .all) (bs : List Byte) :
    putLoop bs s = finish { s with yout := s.yout ++ bs, byteCount := s.byteCount + BitVec.ofNat 64 bs.length } := by
  induction bs generalizing s with
  | nil => simp [putLoop]
  | cons b bs ih =>
    rw [putLoop, writeYout_all h]
    simp only
    rw [ih (s := countByte { s with yout := s.yout ++ [b] }) h]
    simp only [countByte_byteCount, countByte_yout, List.length_cons, List.append_assoc, List.singleton_append]
    rw [BitVec.add_assoc, ← BitVec.ofNat_add, Nat.add_comm 1]
    rfl

theorem plain_ok {ft : FreqTable} {es : List HdrEntry} (h : WritesMapping ft es) : EntriesOk es := by
  refine ⟨fun e he => ?_, ?_⟩
  · have h1 : digitsValue e.key ∈ (keys ft).map fun k => k.val := h.inOrder ▸ List.mem_map_of_mem he
    have h2 : digitsValue e.value ∈ (keys ft).map fun k => (countOf ft k).toNat := h.counts ▸ List.mem_map_of_mem he
    obtain ⟨k, -, hk⟩ := List.mem_map.mp h1
    obtain ⟨j, -, hj⟩ := List.mem_map.mp h2
    have := k.isLt
    have := (countOf ft j).isLt
    exact ⟨⟨(h.plain e he).1.1, by omega⟩, (h.plain e he).2.1, by rw [← hj, Config.countMax]; omega⟩
  · rw [h.inOrder]
    exact (keys_nodup ft).map Fin.val_injective

/-- Reading back what is written gives the mapping. -/
theorem mappingOf_writes {ft : FreqTable} {es : List HdrEntry} (h : WritesMapping ft es) : mappingOf es = ft := by
  have hok := plain_ok h
  refine table_ext fun k => ?_
  rcases hk : ft[k] with _ | c
  · rw [mappingOf_none, h.inOrder]
    intro hm
    obtain ⟨j, hj, hjk⟩ := List.mem_map.mp hm
    have : j = k := Fin.ext hjk
    rw [this, mem_keys, hk] at hj; cases hj
  · have hmem := mem_keys.mpr (show ft[k].isSome = true by rw [hk]; rfl)
    obtain ⟨i, hi, hik⟩ := List.getElem_of_mem hmem
    have hlen : es.length = (keys ft).length := by simpa using congrArg List.length h.inOrder
    have h1 : digitsValue es[i].key = k.val := by
      have := List.getElem_of_eq h.inOrder (i := i) (by simpa [hlen] using hi)
      simpa [hik] using this
    have h2 : digitsValue es[i].value = c.toNat := by
      have := List.getElem_of_eq h.counts (i := i) (by simpa [hlen] using hi)
      simp only [List.getElem_map, hik] at this
      rw [this, countOf, hk]; rfl
    rw [mappingOf_get]
    have hf : es.find? (fun e => digitsValue e.key == k.val) = some es[i] := by
      rcases hff : es.find? (fun e => digitsValue e.key == k.val) with _ | e
      · have := List.find?_eq_none.mp hff es[i] (List.getElem_mem _)
        simp [h1] at this
      · have he := List.mem_of_find?_eq_some hff
        have hek : digitsValue e.key = k.val := by simpa using List.find?_some hff
        obtain ⟨j, hj, rfl⟩ := List.getElem_of_mem he
        have := hok.distinct.getElem_inj_iff (i := i) (j := j) (hi := by simpa [hlen] using hi) (hj := by simpa using hj)
        simp only [List.getElem_map] at this
        have := this.mp (h1.trans hek.symm)
        subst this; exact hff
    rw [hf, Option.map_some, h2]; simp

/-! ### Every run of HDR_READ -/

/-- What HDR_READ has read where its parser stands at a place: the bytes, and the mapping so far. -/
inductive PlaceAfter : List Byte → HdrPos → FreqTable → Prop where
  | brace : PlaceAfter [] .brace (mappingOf [])
  | first : PlaceAfter [0x7B#8] .first (mappingOf [])
  | keyFirst (es : List HdrEntry) : EntriesOk es → es ≠ [] → PlaceAfter (0x7B#8 :: entriesOpen es) .keyFirst (mappingOf es)
  | key (es : List HdrEntry) (ds : List (Fin 10)) (k : Key) : EntriesOk es → ds ≠ [] → digitsValue ds = k.val →
      PlaceAfter (0x7B#8 :: entriesOpen es ++ ds.map digitChar) (.key k) (mappingOf es)
  | valueFirst (es : List HdrEntry) (ds : List (Fin 10)) (k : Key) : EntriesOk es → ds ≠ [] → digitsValue ds = k.val →
      k.val ∉ es.map (fun e => digitsValue e.key) →
      PlaceAfter (0x7B#8 :: entriesOpen es ++ ds.map digitChar ++ [0x3A#8]) (.valueFirst k) (mappingOf es)
  | value (es : List HdrEntry) (e : HdrEntry) (k : Key) (c : Count) : EntriesOk (es ++ [e]) → digitsValue e.key = k.val →
      digitsValue e.value = c.toNat → PlaceAfter (0x7B#8 :: entriesOpen es ++ e.text) (.value k c) (mappingOf es)
  | space (es : List HdrEntry) (e : HdrEntry) : EntriesOk (es ++ [e]) →
      PlaceAfter (0x7B#8 :: entriesOpen es ++ e.text ++ [0x2C#8]) .space (mappingOf (es ++ [e]))

/-- What one token does where the parser stands: it moves on, it ends an accepted header, or it is an offence of rule R182. -/
inductive TokenCase (pre : List Byte) (t : YTok) : FreqTable → HdrNext → Prop where
  | go (b : Byte) (q : HdrPos) (ft : FreqTable) : t = .byte b → PlaceAfter (pre ++ [b]) q ft → TokenCase pre t ft (.go q)
  | store (b : Byte) (k : Key) (c : Count) (q : HdrPos) (ft : FreqTable) : t = .byte b →
      PlaceAfter (pre ++ [b]) q (ft.set k (some c)) → TokenCase pre t ft (.store k c q)
  | storeEnd (b : Byte) (k : Key) (c : Count) (ft : FreqTable) (es : List HdrEntry) : t = .byte b → EntriesOk es →
      pre ++ [b] = hdrText es → TokenCase pre t ft (.storeEnd k c)
  | done (b : Byte) (ft : FreqTable) (es : List HdrEntry) : t = .byte b → EntriesOk es → pre ++ [b] = hdrText es → TokenCase pre t ft .done
  | fail (ft : FreqTable) : Offence pre t → TokenCase pre t ft .fail

theorem EntriesOk.snoc {es : List HdrEntry} {e : HdrEntry} (h : EntriesOk es) (he : e.Ok)
    (hn : digitsValue e.key ∉ es.map fun e => digitsValue e.key) : EntriesOk (es ++ [e]) := by
  refine ⟨fun x hx => ?_, ?_⟩
  · rcases List.mem_append.mp hx with hx | hx
    · exact h.each x hx
    · rw [List.mem_singleton.mp hx]; exact he
  · rw [List.map_append, List.nodup_append]
    exact ⟨h.distinct, by simp, fun a ha b hb => by
      simp only [List.map_cons, List.map_nil, List.mem_singleton] at hb
      rw [hb]; rintro rfl; exact hn ha⟩

theorem digitsValue_one (d : Fin 10) : digitsValue [d] = d.val := by simp [digitsValue]

theorem tokenCase_firstKey {es : List HdrEntry} (h : EntriesOk es) (d : Fin 10) {pre : List Byte} (hp : pre = 0x7B#8 :: entriesOpen es) :
    TokenCase pre (.byte (digitChar d)) (mappingOf es) (keyDigit 0 d.val) := by
  have hlt := d.isLt
  rw [keyDigit, dif_pos (by omega)]
  subst hp
  exact .go _ _ _ rfl (PlaceAfter.key es [d] _ h (by simp) (by rw [digitsValue_one]; simp))

theorem hdrToken_case {pre : List Byte} {p : HdrPos} {ft : FreqTable} (h : PlaceAfter pre p ft) (t : YTok) :
    TokenCase pre t ft (hdrToken ft p t) := by
  cases h with
  | brace =>
    rw [hdrToken]
    split
    · rename_i ht; exact .go _ _ _ ht .first
    · rename_i ht; exact .fail _ (.noBrace t ht)
  | first =>
    rw [hdrToken]
    split
    · rename_i ht; exact .done _ _ [] ht ⟨by simp, by simp⟩ rfl
    · rename_i ht
      rcases hd : digit? t with _ | n
      · exact .fail _ (.noFirstKey t (noDigit_of_none hd) ht)
      · obtain ⟨d, rfl, rfl⟩ := digit?_some hd
        exact tokenCase_firstKey (es := []) ⟨by simp, by simp⟩ d rfl
  | keyFirst es h hne =>
    rw [hdrToken]
    rcases hd : digit? t with _ | n
    · exact .fail _ (.noKey es t h hne (noDigit_of_none hd))
    · obtain ⟨d, rfl, rfl⟩ := digit?_some hd
      exact tokenCase_firstKey h d rfl
  | key es ds k h hne hk =>
    rw [hdrToken]
    have hlt := k.isLt
    rcases hd : digit? t with _ | n
    · simp only
      split
      · rename_i ht
        split
        · rename_i hs
          subst ht
          refine .fail _ (.keyTwice es ds h hne ?_)
          rw [hk]
          by_contra hn
          rw [mappingOf_none.mpr hn] at hs; cases hs
        · rename_i hs
          refine .go _ _ _ ht (.valueFirst es ds k h hne hk (mappingOf_none.mp ?_))
          simpa using hs
      · rename_i ht
        exact .fail _ (.noColon es ds t h hne (by omega) (noDigit_of_none hd) ht)
    · obtain ⟨d, rfl, rfl⟩ := digit?_some hd
      simp only
      rw [keyDigit]
      split
      · refine .go _ _ _ rfl ?_
        have := PlaceAfter.key es (ds ++ [d]) ⟨10 * k.val + d.val, by assumption⟩ h (by simp) (by rw [digitsValue_snoc, hk])
        simpa using this
      · rename_i hge
        exact .fail _ (.keyLimit es ds d h (by omega) (by rw [digitsValue_snoc, hk]; omega))
  | valueFirst es ds k h hne hk hn =>
    rw [hdrToken]
    have hlt := k.isLt
    rcases hd : digit? t with _ | n
    · exact .fail _ (.noValue es ds t h hne (by omega) (by rw [hk]; exact hn) (noDigit_of_none hd))
    · obtain ⟨d, rfl, rfl⟩ := digit?_some hd
      have hdl := d.isLt
      simp only
      rw [valueDigit, if_pos (by rw [Config.countMax]; omega)]
      refine .go _ _ _ rfl ?_
      have hok : EntriesOk (es ++ [⟨ds, [d]⟩]) := h.snoc ⟨⟨hne, by simp only; omega⟩, by simp, by
        simp only [digitsValue_one, Config.countMax]; omega⟩ (by simp only [hk]; exact hn)
      have := PlaceAfter.value es ⟨ds, [d]⟩ k (BitVec.ofNat 32 (10 * 0 + d.val)) hok hk (by
        rw [digitsValue_one, BitVec.toNat_ofNat]; omega)
      simpa [HdrEntry.text] using this
  | value es e k c h hk hc =>
    rw [hdrToken]
    obtain ⟨he, hn⟩ := h.last
    have hlt := k.isLt
    rcases hd : digit? t with _ | n
    · simp only
      split
      · rename_i ht
        exact .storeEnd _ _ _ _ (es ++ [e]) ht h (hdrText_snoc es e).symm
      · split
        · rename_i ht
          refine .store _ _ _ _ _ ht ?_
          have := PlaceAfter.space es e h
          rw [mappingOf_snoc hk (hk ▸ hn), hc] at this
          simpa [chComma] using this
        · rename_i h1 h2
          exact .fail _ (.noSeparator es e t h (noDigit_of_none hd) h1 h2)
    · obtain ⟨d, rfl, rfl⟩ := digit?_some hd
      simp only
      rw [valueDigit]
      split
      · rename_i hle
        refine .go _ _ _ rfl ?_
        have hv : digitsValue (e.value ++ [d]) = 10 * c.toNat + d.val := by rw [digitsValue_snoc, hc]
        have hok : EntriesOk (es ++ [⟨e.key, e.value ++ [d]⟩]) := h.left.snoc ⟨he.key, by simp, by rw [hv]; exact hle⟩ hn
        have := PlaceAfter.value es ⟨e.key, e.value ++ [d]⟩ k (BitVec.ofNat 32 (10 * c.toNat + d.val)) hok hk (by
          rw [hv, BitVec.toNat_ofNat, Nat.mod_eq_of_lt]
          rw [Config.countMax] at hle; omega)
        simpa [HdrEntry.text] using this
      · rename_i hgt
        refine .fail _ ?_
        have := Offence.valueLimit es e.key e.value d h.left he.key.1 he.key.2 hn he.value.2 (by rw [digitsValue_snoc, hc]; omega)
        simpa [HdrEntry.text] using this
  | space es e h =>
    rw [hdrToken]
    split
    · rename_i ht
      refine .go _ _ _ ht ?_
      have := PlaceAfter.keyFirst (es ++ [e]) h (by simp)
      simpa [entriesOpen, chSpace] using this
    · rename_i ht
      exact .fail _ (.noSpace es e t h ht)

/-- Every run of HDR_READ ends at an accepted header, ends at an offence, or waits for a token. -/
theorem hdrLoop_outcomes (ts : List YTok) {pre : List Byte} {pos : Nat} {p : HdrPos} {s : State} (h : PlaceAfter pre p s.ft) :
    (∃ es rest, EntriesOk es ∧ pre.map YTok.byte ++ ts = (hdrText es).map YTok.byte ++ rest ∧ (hdrLoop ts pos p s).yin = rest ∧
        (hdrLoop ts pos p s).seq = .idle ∧ (hdrLoop ts pos p s).err = s.err) ∨
    (∃ bad tok rest, Offence bad tok ∧ pre.map YTok.byte ++ ts = bad.map YTok.byte ++ tok :: rest ∧ (hdrLoop ts pos p s).yin = rest ∧
        (hdrLoop ts pos p s).seq = .idle ∧ (hdrLoop ts pos p s).err = true) ∨
    (∃ bytes : List Byte, pre.map YTok.byte ++ ts = bytes.map YTok.byte ∧ (hdrLoop ts pos p s).yin = [] ∧
        (hdrLoop ts pos p s).seq ≠ .idle ∧ (hdrLoop ts pos p s).busy = s.busy) := by
  induction ts generalizing pre pos p s with
  | nil => exact .inr (.inr ⟨pre, by simp, rfl, by simp [hdrLoop], rfl⟩)
  | cons t ts ih =>
    have hc := hdrToken_case h t
    rw [hdrLoop]
    cases hn : hdrToken s.ft p t with
    | go q =>
      rw [hn] at hc
      cases hc with
      | go b q ft ht hp =>
        subst ht
        have := ih (pos := pos + 1) (p := q) (pre := pre ++ [b]) (s := countToken (.byte b) (takeYin ts s)) hp
        simpa [show (countToken (.byte b) (takeYin ts s)).err = s.err from rfl, show (countToken (.byte b) (takeYin ts s)).busy = s.busy from rfl] using this
    | store k c q =>
      rw [hn] at hc
      cases hc with
      | store b k c q ft ht hp =>
        subst ht
        have := ih (pos := pos + 1) (p := q) (pre := pre ++ [b]) (s := setFt k c (countToken (.byte b) (takeYin ts s))) hp
        simpa [show (countToken (.byte b) (takeYin ts s)).err = s.err from rfl, show (countToken (.byte b) (takeYin ts s)).busy = s.busy from rfl] using this
    | storeEnd k c =>
      rw [hn] at hc
      cases hc with
      | storeEnd b k c ft es ht hok he =>
        subst ht
        refine .inl ⟨es, ts, hok, ?_, rfl, rfl, rfl⟩
        rw [← he]; simp
    | done =>
      rw [hn] at hc
      cases hc with
      | done b ft es ht hok he =>
        subst ht
        refine .inl ⟨es, ts, hok, ?_, rfl, rfl, rfl⟩
        rw [← he]; simp
    | fail =>
      rw [hn] at hc
      cases hc with
      | fail ft ho =>
        refine .inr (.inl ⟨pre, t, ts, ho, rfl, ?_⟩)
        dsimp only
        unfold failHeader
        split <;> cases t <;> exact ⟨rfl, rfl, rfl⟩

theorem plainDigits_length {ds : List (Fin 10)} (h : plainDigits ds) : ds.length = max 1 (Nat.digits 10 (digitsValue ds)).length := by
  have head : ∀ ds : List (Fin 10), ds ≠ [] → ds.head? ≠ some 0 → digitsValue ds ≠ 0 ∧ ds.length = (Nat.digits 10 (digitsValue ds)).length := by
    intro ds
    induction ds using List.reverseRecOn with
    | nil => intro h _; exact absurd rfl h
    | append_singleton es d ih =>
      intro _ hh
      rcases es with _ | ⟨a, es⟩
      · have : d ≠ 0 := by simpa using hh
        have hd : d.val ≠ 0 := fun e => this (Fin.ext e)
        have := d.isLt
        rw [List.nil_append, digitsValue_one]
        refine ⟨hd, ?_⟩
        rw [Nat.digits_of_lt 10 _ hd this]; rfl
      · obtain ⟨h1, h2⟩ := ih (by simp) (by simpa using hh)
        have := d.isLt
        rw [digitsValue_snoc]
        refine ⟨by omega, ?_⟩
        rw [Nat.digits_def' (by omega) (by omega), List.length_cons, List.length_append, List.length_singleton, h2]
        congr 3
        omega
  rcases h.2 with h1 | h1
  · obtain ⟨d, rfl⟩ := List.length_eq_one_iff.mp h1
    rw [digitsValue_one]
    by_cases hd : d.val = 0
    · rw [hd]; rfl
    · rw [Nat.digits_of_lt 10 _ hd d.isLt]; rfl
  · obtain ⟨h2, h3⟩ := head ds h.1 h1
    have : 0 < ds.length := List.length_pos_iff.mpr h.1
    omega

theorem hdrText_length {es : List HdrEntry} (h : es ≠ []) :
    (hdrText es).length = 2 + (es.map fun e => e.key.length + 1 + e.value.length).sum + 2 * (es.length - 1) := by
  rcases List.eq_nil_or_concat es with rfl | ⟨fs, e, rfl⟩
  · exact absurd rfl h
  · rw [List.concat_eq_append, hdrText_snoc]
    have : ∀ fs : List HdrEntry, (entriesOpen fs).length = (fs.map fun e => e.key.length + 1 + e.value.length).sum + 2 * fs.length := by
      intro fs
      induction fs with
      | nil => rfl
      | cons a fs ih => 
        have e : entriesOpen (a :: fs) = a.text ++ [0x2C#8, 0x20#8] ++ entriesOpen fs := rfl
        rw [e, List.length_append, ih]
        simp [HdrEntry.text]; omega
    simp [this, HdrEntry.text]; omega
end Sys2Proof.Machine
end

