-- ==== Sys2Proof/Laws/Payload.lean ====
section
/-! SUPPORT. The loops of FREQ_COUNT, ENCODE and DECODE over whole runs of tokens: counted bytes, written codes, walked paths. -/

namespace Sys2Proof.Machine

open Sys2Proof

/-- FREQ_COUNT's loop takes its tokens from its argument. -/
theorem freqLoop_takeYin (ts x : List YTok) (s : State) : freqLoop ts (takeYin x s) = freqLoop ts s := by
  cases ts with
  | nil => rfl
  | cons t ts => cases t <;> rfl

/-- FREQ_COUNT's loop over bytes whose counts stay in range: each is counted, and the loop goes on with the tokens after them. -/
theorem freqLoop_bytes (bs : List Byte) (ts : List YTok) (s : State)
    (h : ∀ v, (countOf s.ft (byteKey v)).toNat + bs.count v ≤ Config.countMax) :
    ∃ ft : FreqTable,
      freqLoop (bs.map YTok.byte ++ ts) s =
        freqLoop ts { s with ft := ft, byteCount := s.byteCount + BitVec.ofNat 64 bs.length } ∧
      ft[eofKey] = s.ft[eofKey] ∧
      ∀ v : Byte, ft[byteKey v] =
        if v ∈ bs then some (BitVec.ofNat 32 ((countOf s.ft (byteKey v)).toNat + bs.count v)) else s.ft[byteKey v] := by
  induction bs generalizing s with
  | nil => exact ⟨s.ft, by simp, rfl, fun v => by simp⟩
  | cons b bs ih =>
    have hb := h b
    rw [List.count_cons_self] at hb
    have hnf : countFull b s = false := by
      rw [countFull, beq_eq_false_iff_ne]
      intro e
      simp only [countOf, e, Option.getD_some, BitVec.toNat_ofNat, Config.countMax] at hb
      omega
    obtain ⟨ft1, hft1, h1⟩ : ∃ ft1 : FreqTable, ft1 = s.ft.set (byteKey b) (some (countOf s.ft (byteKey b) + 1#32)) ∧
        bumpCount b (countByte s) = { s with ft := ft1, byteCount := s.byteCount + 1#64 } := by
      refine ⟨_, rfl, ?_⟩
      unfold bumpCount
      split <;> rename_i hc <;> rw [countByte_ft] at hc <;> simp only [countOf, hc] <;> rfl
    have hget : ∀ k : Key, ft1[k] = if byteKey b = k then some (countOf s.ft (byteKey b) + 1#32) else s.ft[k] := fun k => by
      rw [hft1, setTable_getElem]
    have hc1 : ∀ v, (countOf ft1 (byteKey v)).toNat = (countOf s.ft (byteKey v)).toNat + if b = v then 1 else 0 := by
      intro v
      simp only [countOf, hget]
      by_cases hbv : b = v
      · subst hbv
        simp only [if_true, Option.getD_some, BitVec.toNat_add, BitVec.toNat_ofNat]
        rw [Config.countMax, countOf] at hb
        exact Nat.mod_eq_of_lt (by omega)
      · rw [if_neg fun e => hbv (byteKey_inj e), if_neg hbv]; rfl
    obtain ⟨ft, g1, g2, g3⟩ := ih { s with ft := ft1, byteCount := s.byteCount + 1#64 } fun v => by
      have := h v
      rw [List.count_cons] at this
      simp only [hc1]
      by_cases hbv : b = v
      · subst hbv; simp at this ⊢; omega
      · have hbv' : (b == v) = false := by simpa using hbv
        simp [hbv, hbv'] at this ⊢; omega
    refine ⟨ft, ?_, ?_, fun v => ?_⟩
    · rw [List.map_cons, List.cons_append, freqLoop]
      have hnf' : countFull b s = true → False := by rw [hnf]; exact fun e => by cases e
      rw [if_neg (fun e => hnf' e)]
      have : bumpCount b (countByte (takeYin (bs.map YTok.byte ++ ts) s)) = takeYin (bs.map YTok.byte ++ ts) (bumpCount b (countByte s)) := by
        unfold bumpCount
        simp only [countByte_ft, takeYin_ft]
        rcases hcc : s.ft[byteKey b] with _ | c <;> rfl
      rw [this, freqLoop_takeYin, h1, g1]
      simp only [List.length_cons]
      rw [BitVec.add_assoc, ← BitVec.ofNat_add, Nat.add_comm 1]
    · rw [g2]
      simp only [hget]
      rw [if_neg (byteKey_ne_eof b)]
    · rw [g3]
      simp only [hc1, hget]
      by_cases hbv : b = v
      · subst hbv
        simp only [if_true, List.mem_cons_self, List.count_cons_self]
        split
        · congr 2; omega
        · rename_i hnb
          rw [List.count_eq_zero.mpr hnb]
          congr 1
      · have hbv' : (b == v) = false := by simpa using hbv
        simp only [hbv, if_false, Nat.add_zero, List.mem_cons, List.count_cons, hbv', Ne.symm hbv, false_or,
          if_neg fun e => hbv (byteKey_inj e)]
        simp
/-- A counter that counts one and then `n`. -/
theorem counter_add_succ (c : Counter) (n : Nat) : c + 1#64 + BitVec.ofNat 64 n = c + BitVec.ofNat 64 (n + 1) := by
  rw [BitVec.add_assoc, ← BitVec.ofNat_add, Nat.add_comm 1]

/-- ENCODE's loop takes its tokens from its argument. -/
theorem encodeLoop_takeYin (ts x : List YTok) (s : State) : encodeLoop ts (takeYin x s) = encodeLoop ts s := by
  cases ts with
  | nil => rfl
  | cons t ts => cases t <;> rfl

/-- ENCODE's loop over bytes with codes, BOUT accepting: their codes are written, and the loop goes on with the tokens after them. -/
theorem encodeLoop_bytes {code : Byte → Path} (bs : List Byte) (ts : List YTok) {s : State} (hr : s.boutReady = .all)
    (h : ∀ v ∈ bs, s.ct[byteKey v] = some (code v)) :
    encodeLoop (bs.map YTok.byte ++ ts) s = encodeLoop ts { s with
      bout := s.bout ++ bs.flatMap code
      bitCount := s.bitCount + BitVec.ofNat 64 (bs.flatMap code).length
      byteCount := s.byteCount + BitVec.ofNat 64 bs.length } := by
  induction bs generalizing s with
  | nil => simp
  | cons b bs ih =>
    have hb : (countByte (takeYin (bs.map YTok.byte ++ ts) s)).ct[byteKey b] = some (code b) := h b List.mem_cons_self
    have hb' : s.ct[byteKey b] = some (code b) := hb
    rw [List.map_cons, List.cons_append, encodeLoop, hb']
    simp only
    rw [emitBits_all (s := countByte (takeYin (bs.map YTok.byte ++ ts) s)) hr]
    simp only
    have := ih (s := { countByte s with
      bout := s.bout ++ code b, bitCount := s.bitCount + BitVec.ofNat 64 (code b).length }) hr
      fun v hv => h v (List.mem_cons_of_mem _ hv)
    rw [← encodeLoop_takeYin _ (bs.map YTok.byte ++ ts)] at this
    refine this.trans ?_
    simp only [countByte_byteCount, List.flatMap_cons, List.length_cons, List.length_append, List.append_assoc,
      BitVec.add_assoc, ← BitVec.ofNat_add, Nat.add_comm 1 bs.length]
    rfl

/-- DECODE's loop takes its tokens from its argument. -/
theorem decodeLoop_takeBin (ts x : List BTok) (n : NodeIdx) (s : State) : decodeLoop ts n (takeBin x s) = decodeLoop ts n s := by
  cases ts with
  | nil => rfl
  | cons t ts => cases t <;> rfl

/-- DECODE's loop over a path to an internal node goes on there. -/
theorem decodeLoop_inner {p : Path} {ts : List BTok} {n m : NodeIdx} {s : State} (h : leads s n p = some m)
    (hm : isLeaf s m = false) :
    decodeLoop (p.map BTok.bit ++ ts) n s = decodeLoop ts m { s with bitCount := s.bitCount + BitVec.ofNat 64 p.length } := by
  induction p generalizing n s with
  | nil => simp only [leads, Option.some.injEq] at h; subst h; simp
  | cons b bs ih =>
    rw [leads] at h
    split at h
    · cases h
    · have hc : isLeaf s (child s n b) = false := by
        cases bs with
        | nil => simp only [leads, Option.some.injEq] at h; rw [h]; exact hm
        | cons c cs =>
          rw [leads] at h
          split at h
          · cases h
          · rename_i hh; simpa using hh
      rw [List.map_cons, List.cons_append, decodeLoop, if_neg (by simp [hc])]
      have := ih (s := countBit s) (n := child s n b) ((leads_congr (by rfl) _ _).trans h) hm
      rw [← decodeLoop_takeBin _ (bs.map BTok.bit ++ ts)] at this
      refine Eq.trans this ?_
      simp only [countBit_bitCount, List.length_cons, counter_add_succ]
      rfl

/-- DECODE's loop over a path to a leaf handles that leaf. -/
theorem decodeLoop_leaf {p : Path} {ts : List BTok} {n m : NodeIdx} {s : State} (h : leads s n p = some m)
    (hn : isLeaf s n = false) (hm : isLeaf s m = true) :
    decodeLoop (p.map BTok.bit ++ ts) n s =
      if isEofLeaf s m then finish (leaveBin (takeBin ts { s with bitCount := s.bitCount + BitVec.ofNat 64 p.length }))
      else if isMarkerLeaf s m then
        raise .invalidTree (nodeWord m) (leaveBin (takeBin ts { s with bitCount := s.bitCount + BitVec.ofNat 64 p.length }))
      else
        match emitLeaf m (takeBin ts { s with bitCount := s.bitCount + BitVec.ofNat 64 p.length }) with
        | none => waitAt (.decodeWrite m) (takeBin ts { s with bitCount := s.bitCount + BitVec.ofNat 64 p.length })
        | some t => decodeLoop ts t.root t := by
  obtain ⟨q, b, rfl⟩ : ∃ q b, p = q ++ [b] := by
    rcases List.eq_nil_or_concat p with rfl | ⟨q, b, rfl⟩
    · simp only [leads, Option.some.injEq] at h; rw [h, hm] at hn; cases hn
    · exact ⟨q, b, by simp⟩
  obtain ⟨c, hc, hcl, hcm⟩ : ∃ c, leads s n q = some c ∧ isLeaf s c = false ∧ child s c b = m := by
    clear hn
    induction q generalizing n with
    | nil =>
      simp only [List.nil_append, leads] at h
      split at h
      · cases h
      · rename_i hh
        simp only [Option.some.injEq] at h
        exact ⟨n, rfl, by simpa using hh, h⟩
    | cons a q ih =>
      rw [List.cons_append, leads] at h
      split at h
      · cases h
      · rename_i hh
        obtain ⟨c, h1, h2⟩ := ih h
        exact ⟨c, by rw [leads, if_neg hh, h1], h2⟩
  rw [List.map_append, List.append_assoc, decodeLoop_inner hc hcl, List.map_singleton, List.singleton_append, decodeLoop]
  have e : countBit (takeBin ts { s with bitCount := s.bitCount + BitVec.ofNat 64 q.length }) =
      takeBin ts { s with bitCount := s.bitCount + BitVec.ofNat 64 (q ++ [b]).length } := by
    simp only [countBit, takeBin, List.length_append, List.length_singleton, BitVec.ofNat_add, ← BitVec.add_assoc]
  have hcm' : child { s with bitCount := s.bitCount + BitVec.ofNat 64 q.length } c b = m := hcm
  rw [hcm', e, if_pos (by exact hm)]
  rfl

/-- DECODE's loop over the paths of bytes' leaves, YOUT accepting: the bytes are emitted, and the loop goes on at the root. -/
theorem decodeLoop_bytes {code : Byte → Path} (bs : List Byte) (ts : List BTok) {s : State} (hy : s.youtReady = .all)
    (hr : isLeaf s s.root = false)
    (h : ∀ v ∈ bs, ∃ n, leads s s.root (code v) = some n ∧ isLeaf s n = true ∧ (nodeAt s n).sym = keySymbol (byteKey v)) :
    decodeLoop ((bs.flatMap code).map BTok.bit ++ ts) s.root s = decodeLoop ts s.root { s with
      yout := s.yout ++ bs
      bitCount := s.bitCount + BitVec.ofNat 64 (bs.flatMap code).length
      byteCount := s.byteCount + BitVec.ofNat 64 bs.length } := by
  induction bs generalizing s with
  | nil => simp
  | cons b bs ih =>
    obtain ⟨n, h1, h2, h3⟩ := h b List.mem_cons_self
    have hs : (nodeAt s n).sym.toNat = b.toNat := by rw [h3, keySymbol_toNat]; rfl
    have hlt := b.isLt
    rw [List.flatMap_cons, List.map_append, List.append_assoc, decodeLoop_leaf h1 hr h2,
      if_neg (by simp [isEofLeaf, hs, Config.pseudoEof]; omega), if_neg (by simp [isMarkerLeaf, hs]; omega)]
    rw [emitLeaf_all (by exact hy)]
    simp only
    have hb : ∀ x : Path, leafByte (takeBin ((bs.flatMap code).map BTok.bit ++ ts) { s with bitCount := s.bitCount + BitVec.ofNat 64 x.length }) n = b := by
      intro x
      apply BitVec.eq_of_toNat_eq
      show ((nodeAt s n).sym.setWidth 8).toNat = _
      rw [BitVec.toNat_setWidth, hs, Nat.mod_eq_of_lt hlt]
    rw [hb]
    have := ih (s := { s with bitCount := s.bitCount + BitVec.ofNat 64 (code b).length, yout := s.yout ++ [b], byteCount := s.byteCount + 1#64 }) hy hr (by
      intro v hv
      obtain ⟨m, g1, g2, g3⟩ := h v (List.mem_cons_of_mem _ hv)
      exact ⟨m, (leads_congr (by rfl) _ _).trans g1, g2, g3⟩)
    rw [← decodeLoop_takeBin _ ((bs.flatMap code).map BTok.bit ++ ts)] at this
    refine Eq.trans this ?_
    simp only [List.length_cons, List.length_append, List.append_assoc, BitVec.add_assoc, ← BitVec.ofNat_add,
      List.singleton_append, Nat.add_comm 1 bs.length]
end Sys2Proof.Machine
end

