-- ==== Sys2Proof/Laws/TreeBuilder.lean ====
section
/-! SUPPORT. What BUILD_TREE does: the forest it builds, round by round, and the tree it ends with. -/

namespace Sys2Proof.Machine

open Sys2Proof

/-- The sum of the weights of a list of nodes, as a natural number: it does not wrap. -/
def weightSum (s : State) (ns : List NodeIdx) : Nat := (ns.map fun n => (nodeAt s n).weight.toNat).sum

/-- The weights of nodes that both states hold alike. -/
theorem weightSum_congr {s t : State} {ns : List NodeIdx} (h : ∀ n ∈ ns, nodeAt t n = nodeAt s n) :
    weightSum t ns = weightSum s ns := by
  rw [weightSum, weightSum, List.map_congr_left fun n hn => by rw [h n hn]]

theorem weightSum_cons (s : State) (n : NodeIdx) (ns : List NodeIdx) :
    weightSum s (n :: ns) = (nodeAt s n).weight.toNat + weightSum s ns := by
  rw [weightSum, List.map_cons, List.sum_cons, weightSum]

theorem weightSum_erase {s : State} {n : NodeIdx} {ns : List NodeIdx} (h : n ∈ ns) :
    weightSum s ns = (nodeAt s n).weight.toNat + weightSum s (ns.erase n) := by
  rw [← weightSum_cons, weightSum, weightSum]
  exact ((List.perm_cons_erase h).map _).sum_eq

/-- The state while BUILD_TREE creates leaves: `done` are the keys whose leaf stands, in order. -/
structure LeavesStand (ft : FreqTable) (done : List Key) (s : State) : Prop where
  count : s.nodeCnt.val = done.length
  nodup : s.pq.Nodup
  queued : ∀ n : NodeIdx, n ∈ s.pq ↔ n.val < done.length
  length : s.pq.length = done.length
  node : ∀ n : NodeIdx, ∀ k, done[n.val]? = some k → nodeAt s n = leafNode ft k
  total : weightSum s s.pq = (done.map fun k => (countOf ft k).toNat).sum

theorem leafNode_weight (ft : FreqTable) (k : Key) : (leafNode ft k).weight.toNat = (countOf ft k).toNat := by
  have := (countOf ft k).isLt
  simp only [leafNode, BitVec.toNat_setWidth]
  omega

theorem addLeaf_stand {ft : FreqTable} {done : List Key} {s : State} {k : Key} (hft : s.ft = ft)
    (h : LeavesStand ft done s) (hlt : done.length < 257) : LeavesStand ft (done ++ [k]) (addLeaf s k) := by
  have hc : s.nodeCnt.val < 513 := by rw [h.count]; omega
  have hpq : (addLeaf s k).pq = ⟨s.nodeCnt.val, hc⟩ :: s.pq := by simp only [addLeaf, pushNode_eq _ s hc]
  have hnew : nodeAt (addLeaf s k) ⟨s.nodeCnt.val, hc⟩ = leafNode ft k := by
    rw [addLeaf, pushNode_nodeAt _ s hc, if_pos rfl, hft]
  have hold : ∀ n : NodeIdx, n.val ≠ s.nodeCnt.val → nodeAt (addLeaf s k) n = nodeAt s n := by
    intro n hn; rw [addLeaf, pushNode_nodeAt _ s hc, if_neg hn]
  refine ⟨?_, ?_, ?_, ?_, ?_, ?_⟩
  · simp only [addLeaf, pushNode_eq _ s hc, List.length_append, List.length_singleton, h.count]
  · rw [hpq, List.nodup_cons]
    refine ⟨?_, h.nodup⟩
    rw [h.queued]
    simp [h.count]
  · intro n
    rw [hpq, List.mem_cons, h.queued, List.length_append, List.length_singleton, Fin.ext_iff]
    simp only [h.count]
    omega
  · rw [hpq, List.length_cons, h.length, List.length_append, List.length_singleton]
  · intro n j hj
    rw [addLeaf, pushNode_nodeAt _ s hc]
    split
    · rename_i hn
      rw [hn, h.count, List.getElem?_append_right (Nat.le_refl _)] at hj
      simp at hj
      rw [hft, hj]
    · rename_i hn
      refine h.node n j ?_
      rw [← hj, List.getElem?_append_left]
      have := (List.getElem?_eq_some_iff.mp hj).1
      simp only [List.length_append, List.length_singleton] at this
      rw [h.count] at hn
      omega
  · have hq : ∀ n ∈ s.pq, nodeAt (addLeaf s k) n = nodeAt s n := fun n hn =>
      hold n (by have := (h.queued n).mp hn; rw [h.count]; omega)
    rw [hpq, weightSum_cons, weightSum_congr hq, h.total, hnew, leafNode_weight, List.map_append, List.sum_append, List.map_singleton,
      List.sum_singleton]
    omega

theorem foldl_addLeaf_stand {ft : FreqTable} (ks : List Key) {done : List Key} {s : State} (hft : s.ft = ft)
    (h : LeavesStand ft done s) (hlen : done.length + ks.length ≤ 257) :
    LeavesStand ft (done ++ ks) (ks.foldl addLeaf s) ∧ (ks.foldl addLeaf s).ft = ft := by
  induction ks generalizing done s with
  | nil => simpa using ⟨h, hft⟩
  | cons k ks ih =>
    simp only [List.length_cons] at hlen
    have := ih (s := addLeaf s k) (done := done ++ [k]) hft (addLeaf_stand hft h (by omega)) (by simp; omega)
    simpa using this

/-- After the leaves: one leaf per key, in the keys' order, all of them in the queue (rule R121). -/
theorem addLeaves_stand (s : State) : LeavesStand s.ft (keys s.ft) (addLeaves (startBuild s)) := by
  have h0 : LeavesStand s.ft [] (startBuild s) := by
    constructor <;> simp [weightSum]
  have := (foldl_addLeaf_stand (keys s.ft) (s := startBuild s) (ft := s.ft) rfl h0 (by simpa using keys_length_le s.ft)).1
  simpa [addLeaves] using this

/-- The fields BUILD_TREE's rounds write. -/
theorem addLeaves_frame (s : State) :
    addLeaves s = { s with node := (addLeaves s).node, nodeCnt := (addLeaves s).nodeCnt, pq := (addLeaves s).pq } := by
  have h : ∀ (ks : List Key) (s : State), ks.foldl addLeaf s =
      { s with node := (ks.foldl addLeaf s).node, nodeCnt := (ks.foldl addLeaf s).nodeCnt, pq := (ks.foldl addLeaf s).pq } := by
    intro ks
    induction ks with
    | nil => intro s; rfl
    | cons k ks ih =>
      intro s
      rw [List.foldl_cons, ih]
      rfl
  exact h _ s

theorem addLeaf_stale {s : State} {k : Key} (h : s.nodeCnt.val < 513) :
    (addLeaf s k).nodeCnt.val = s.nodeCnt.val + 1 ∧
      ∀ n : NodeIdx, (addLeaf s k).nodeCnt.val ≤ n.val → nodeAt (addLeaf s k) n = nodeAt s n := by
  have hcnt : (addLeaf s k).nodeCnt.val = s.nodeCnt.val + 1 := by rw [addLeaf, pushNode_eq _ s h]
  exact ⟨hcnt, fun n hn => by rw [addLeaf, pushNode_nodeAt _ s h, if_neg (by omega)]⟩

/-- The leaves leave the entries above them as they were. -/
theorem addLeaves_stale (s : State) (n : NodeIdx) (h : (addLeaves (startBuild s)).nodeCnt.val ≤ n.val) :
    nodeAt (addLeaves (startBuild s)) n = nodeAt s n := by
  have go : ∀ (ks : List Key) (u : State), u.nodeCnt.val + ks.length ≤ 513 →
      u.nodeCnt.val ≤ (ks.foldl addLeaf u).nodeCnt.val ∧
        ((ks.foldl addLeaf u).nodeCnt.val ≤ n.val → nodeAt (ks.foldl addLeaf u) n = nodeAt u n) := by
    intro ks
    induction ks with
    | nil => intro u _; exact ⟨Nat.le_refl _, fun _ => rfl⟩
    | cons k ks ih =>
      intro u hu
      simp only [List.length_cons] at hu
      obtain ⟨h1, h2⟩ := addLeaf_stale (k := k) (s := u) (by omega)
      obtain ⟨g1, g2⟩ := ih (addLeaf u k) (by omega)
      rw [List.foldl_cons]
      exact ⟨by omega, fun hn => by rw [g2 hn, h2 n (by omega)]⟩
  have hk := keys_length_le s.ft
  exact (go (keys s.ft) (startBuild s) (by simp; omega)).2 h

theorem pqBefore_keyLess {s : State} {a b : NodeIdx} : pqBefore s a b = true ↔ KeyLess s a b := by
  simp only [pqBefore_iff, KeyLess, BitVec.lt_def, ← BitVec.toNat_inj]

/-- How an internal node was made is a matter of the nodes up to it. -/
theorem GreedyAt.congr {s t : State} {n : NodeIdx} (h : GreedyAt s n) (e : ∀ m : NodeIdx, m ≤ n → nodeAt t m = nodeAt s m) :
    GreedyAt t n := by
  have hL : ∀ m : NodeIdx, m ≤ n → isLeaf t m = isLeaf s m := fun m hm => by rw [isLeaf, isLeaf, e m hm]
  have hC : ∀ m : NodeIdx, m ≤ n → ∀ b, child t m b = child s m b := fun m hm b => by rw [child, child, e m hm]
  have hO : ∀ m, OpenAt t n m ↔ OpenAt s n m := fun m => by
    refine and_congr_right fun _ => forall_congr' fun p => imp_congr_right fun hp => ?_
    rw [hL p hp.le, hC p hp.le, hC p hp.le]
  have hK : ∀ a b : NodeIdx, a < n → b < n → (KeyLess t a b ↔ KeyLess s a b) := fun a b ha hb => by
    rw [KeyLess, KeyLess, e a ha.le, e b hb.le]
  refine ⟨?_, ?_, ?_, ?_, ?_⟩
  · rw [hC n le_rfl, hC n le_rfl]; exact h.distinct
  · rw [hC n le_rfl, hO]; exact h.zero
  · rw [hC n le_rfl, hO]; exact h.one
  · intro m hm
    rw [hO] at hm
    rw [hC n le_rfl, hK _ _ h.zero.1 hm.1]; exact h.first m hm
  · intro m hm
    rw [hO] at hm
    rw [hC n le_rfl, hC n le_rfl, hK _ _ h.one.1 hm.1]; exact h.second m hm

/-- A forest under construction: the nodes of the queue are the roots, the first `leaves` nodes are the leaves. -/
structure Forest (leaves total : Nat) (s : State) : Prop where
  size : s.nodeCnt.val + s.pq.length = 2 * leaves
  nodup : s.pq.Nodup
  queued : ∀ n ∈ s.pq, n.val < s.nodeCnt.val
  leaf : ∀ n : NodeIdx, n.val < s.nodeCnt.val → (isLeaf s n = true ↔ n.val < leaves)
  children : ∀ n : NodeIdx, n.val < s.nodeCnt.val → isLeaf s n = false →
    child s n false < n ∧ child s n true < n ∧ child s n false ≠ child s n true
  parent : ∀ n : NodeIdx, n.val < s.nodeCnt.val → n ∉ s.pq → ∃ p, Linked s p n ∧ ∀ q, Linked s q n → q = p
  orphan : ∀ n ∈ s.pq, ∀ p, ¬ Linked s p n
  weights : ∀ n : NodeIdx, n.val < s.nodeCnt.val → isLeaf s n = false →
    (nodeAt s n).weight.toNat = (nodeAt s (child s n false)).weight.toNat + (nodeAt s (child s n true)).weight.toNat
  marker : ∀ n : NodeIdx, n.val < s.nodeCnt.val → isLeaf s n = false → (nodeAt s n).sym = BitVec.ofNat 9 Config.notAChar
  total : weightSum s s.pq = total
  greedy : ∀ n : NodeIdx, n.val < s.nodeCnt.val → isLeaf s n = false → GreedyAt s n

theorem LeavesStand.forest {ft : FreqTable} {ks : List Key} {s : State} (h : LeavesStand ft ks s) :
    Forest ks.length (ks.map fun k => (countOf ft k).toNat).sum s := by
  have hleaf : ∀ n : NodeIdx, n.val < s.nodeCnt.val → isLeaf s n = true := by
    intro n hn
    rw [h.count] at hn
    rw [isLeaf, h.node n ks[n.val] (List.getElem?_eq_getElem hn)]
    rfl
  have nol : ∀ p c, ¬ Linked s p c := fun p c l => by
    have := hleaf p l.1
    rw [l.2.1] at this
    cases this
  refine ⟨by rw [h.count, h.length]; omega, h.nodup, ?_, ?_, ?_, ?_, fun n _ p => nol p n, ?_, ?_, h.total, ?_⟩
  · intro n hn; rw [h.count]; exact (h.queued n).mp hn
  · intro n hn; simp [hleaf n hn, ← h.count, hn]
  · intro n hn hl; rw [hleaf n hn] at hl; cases hl
  · intro n hn hq; exact absurd ((h.queued n).mpr (h.count ▸ hn)) hq
  · intro n hn hl; rw [hleaf n hn] at hl; cases hl
  · intro n hn hl; rw [hleaf n hn] at hl; cases hl
  · intro n hn hl; rw [hleaf n hn] at hl; cases hl

/-- One round of the loop, on a queue of at least two nodes (rule R120). -/
theorem mergeTwo_eq {s : State} (h : 1 < s.pq.length) :
    ∃ a b, a ∈ s.pq ∧ b ∈ s.pq.erase a ∧ (∀ x ∈ s.pq, x = a ∨ pqBefore s a x = true) ∧
      (∀ x ∈ s.pq.erase a, x = b ∨ pqBefore s b x = true) ∧
      mergeTwo s = pushNode (internalNode s a b) { s with pq := (s.pq.erase a).erase b } := by
  unfold mergeTwo
  split
  · rename_i h1
    rw [pqPopMin_none] at h1
    simp [h1] at h
  · rename_i a s1 h1
    obtain ⟨ha, hmin, rfl⟩ := pqPopMin_spec h1
    split
    · rename_i h2
      rw [pqPopMin_none] at h2
      have := List.length_erase_of_mem ha
      simp only at h2
      simp [h2] at this
      omega
    · rename_i b s2 h2
      obtain ⟨hb, hmin2, rfl⟩ := pqPopMin_spec h2
      exact ⟨a, b, ha, hb, hmin, hmin2, rfl⟩

theorem mergeTwo_forest {L T : Nat} {s : State} (hF : Forest L T s) (hL : L ≤ 257) (hT : T < 2 ^ 41) (h : 1 < s.pq.length) :
    Forest L T (mergeTwo s) ∧ (mergeTwo s).pq.length + 1 = s.pq.length ∧
      s.nodeCnt.val ≤ (mergeTwo s).nodeCnt.val ∧
      (∀ n : NodeIdx, (mergeTwo s).nodeCnt.val ≤ n.val → nodeAt (mergeTwo s) n = nodeAt s n) ∧
      ∀ n : NodeIdx, n.val < s.nodeCnt.val → nodeAt (mergeTwo s) n = nodeAt s n := by
  obtain ⟨a, b, ha, hb, hmin, hmin2, he⟩ := mergeTwo_eq h
  have hbq := List.mem_of_mem_erase hb
  have hab : a ≠ b := by
    rintro rfl
    exact hF.nodup.not_mem_erase hb
  have hsz := hF.size
  have hc : s.nodeCnt.val < 513 := by omega
  have hc' : ({ s with pq := (s.pq.erase a).erase b } : State).nodeCnt.val < 513 := hc
  have hac := hF.queued a ha
  have hbc := hF.queued b hbq
  set m : NodeIdx := ⟨s.nodeCnt.val, hc⟩ with hm
  set t := mergeTwo s with ht
  have hcnt : t.nodeCnt.val = s.nodeCnt.val + 1 := by rw [he, pushNode_eq _ _ hc']
  have hpq : t.pq = m :: (s.pq.erase a).erase b := by rw [he, pushNode_eq _ _ hc']
  have hnode : ∀ n, nodeAt t n = if n.val = s.nodeCnt.val then internalNode s a b else nodeAt s n := by
    intro n; rw [he, pushNode_nodeAt _ _ hc']; rfl
  have hold : ∀ n : NodeIdx, n.val < s.nodeCnt.val → nodeAt t n = nodeAt s n := by
    intro n hn; rw [hnode, if_neg (by omega)]
  have hnew : nodeAt t m = internalNode s a b := by rw [hnode, if_pos rfl]
  have hlold : ∀ n : NodeIdx, n.val < s.nodeCnt.val → isLeaf t n = isLeaf s n := by
    intro n hn; rw [isLeaf, hold n hn, isLeaf]
  have hcold : ∀ n : NodeIdx, ∀ x, n.val < s.nodeCnt.val → child t n x = child s n x := by
    intro n x hn; rw [child, hold n hn, child]
  have hlm : isLeaf t m = false := by rw [isLeaf, hnew]; rfl
  have hcmf : child t m false = a := by rw [child, hnew]; rfl
  have hcmt : child t m true = b := by rw [child, hnew]; rfl
  have hlen2 : ((s.pq.erase a).erase b).length + 2 = s.pq.length := by
    have h1 := List.length_erase_of_mem ha
    have h2 := List.length_erase_of_mem hb
    omega
  have hmem : ∀ n, n ∈ (s.pq.erase a).erase b ↔ n ≠ b ∧ n ≠ a ∧ n ∈ s.pq := by
    intro n
    rw [(hF.nodup.erase a).mem_erase_iff, hF.nodup.mem_erase_iff]
  have hlinked : ∀ p c, Linked t p c ↔ Linked s p c ∨ (p = m ∧ (c = a ∨ c = b)) := by
    intro p c
    constructor
    · rintro ⟨hp, hl, hch⟩
      by_cases hpm : p = m
      · subst hpm
        rw [hcmf, hcmt] at hch
        exact .inr ⟨rfl, hch.imp Eq.symm Eq.symm⟩
      · have : p.val < s.nodeCnt.val := by
          rw [hcnt] at hp
          have : p.val ≠ s.nodeCnt.val := fun hh => hpm (Fin.ext hh)
          omega
        rw [hlold p this] at hl
        rw [hcold p _ this, hcold p _ this] at hch
        exact .inl ⟨this, hl, hch⟩
    · rintro (⟨hp, hl, hch⟩ | ⟨rfl, hch⟩)
      · exact ⟨by omega, by rw [hlold p hp]; exact hl, by rw [hcold p _ hp, hcold p _ hp]; exact hch⟩
      · exact ⟨by rw [hcnt, hm]; simp, hlm, by rw [hcmf, hcmt]; exact hch.imp Eq.symm Eq.symm⟩
  have hLc : L ≤ s.nodeCnt.val := by
    by_contra hlt
    have : (⟨s.nodeCnt.val - 1 + 1, by omega⟩ : NodeIdx) ∉ s.pq := fun hh => by
      have := hF.queued _ hh
      simp at this
      omega
    have hsub : s.pq.length ≤ s.nodeCnt.val := by
      have hinj : (s.pq.map Fin.val).Nodup := hF.nodup.map Fin.val_injective
      have hss : (s.pq.map Fin.val) ⊆ List.range s.nodeCnt.val := by
        intro x hx
        obtain ⟨n, hn, rfl⟩ := List.mem_map.mp hx
        exact List.mem_range.mpr (hF.queued n hn)
      have := (hinj.subperm hss).length_le
      simpa using this
    omega
  have hsum := hF.total
  rw [weightSum_erase ha, weightSum_erase hb] at hsum
  have hopen : ∀ x, OpenAt t m x ↔ x ∈ s.pq := by
    intro x
    constructor
    · rintro ⟨hx, hp⟩
      by_contra hq
      have hxl : x.val < s.nodeCnt.val := hx
      obtain ⟨p, ⟨hpc, hpl, hpx⟩, -⟩ := hF.parent x hxl hq
      have := hp p hpc (by rw [hlold p hpc]; exact hpl)
      rw [hcold p _ hpc, hcold p _ hpc] at this
      exact hpx.elim this.1 this.2
    · intro hq
      refine ⟨hF.queued x hq, fun p hp hpl => ?_⟩
      have hpc : p.val < s.nodeCnt.val := hp
      rw [hlold p hpc] at hpl
      rw [hcold p _ hpc, hcold p _ hpc]
      exact ⟨fun e => hF.orphan x hq p ⟨hpc, hpl, .inl e⟩, fun e => hF.orphan x hq p ⟨hpc, hpl, .inr e⟩⟩
  have hkey : ∀ x y, x ∈ s.pq → y ∈ s.pq → (pqBefore s x y = true ↔ KeyLess t x y) := by
    intro x y hx hy
    rw [pqBefore_keyLess, KeyLess, KeyLess, hold x (hF.queued x hx), hold y (hF.queued y hy)]
  refine ⟨⟨?_, ?_, ?_, ?_, ?_, ?_, ?_, ?_, ?_, ?_, ?_⟩, ?_⟩
  · rw [hcnt, hpq, List.length_cons]; omega
  · rw [hpq, List.nodup_cons]
    refine ⟨fun hh => ?_, (hF.nodup.erase a).erase b⟩
    have := hF.queued m ((hmem m).mp hh).2.2
    simp [hm] at this
  · intro n hn
    rw [hpq, List.mem_cons] at hn
    rcases hn with rfl | hn
    · rw [hcnt, hm]; simp
    · have := hF.queued n ((hmem n).mp hn).2.2
      omega
  · intro n hn
    by_cases hnm : n = m
    · subst hnm
      simp only [hlm, Bool.false_eq_true, false_iff, Nat.not_lt]
      exact hLc
    · have : n.val < s.nodeCnt.val := by
        have : n.val ≠ s.nodeCnt.val := fun hh => hnm (Fin.ext hh)
        omega
      rw [hlold n this]; exact hF.leaf n this
  · intro n hn hl
    by_cases hnm : n = m
    · subst hnm
      rw [hcmf, hcmt]
      exact ⟨hac, hbc, hab⟩
    · have : n.val < s.nodeCnt.val := by
        have : n.val ≠ s.nodeCnt.val := fun hh => hnm (Fin.ext hh)
        omega
      rw [hcold n _ this, hcold n _ this]
      exact hF.children n this (by rw [← hlold n this]; exact hl)
  · intro n hn hq
    rw [hpq, List.mem_cons, not_or, hmem] at hq
    have hlt : n.val < s.nodeCnt.val := by
      have : n.val ≠ s.nodeCnt.val := fun hh => hq.1 (Fin.ext hh)
      omega
    by_cases hnq : n ∈ s.pq
    · have hab' : n = a ∨ n = b := by
        by_contra hh
        rw [not_or] at hh
        exact hq.2 ⟨hh.2, hh.1, hnq⟩
      refine ⟨m, (hlinked m n).mpr (.inr ⟨rfl, hab'⟩), fun q hq' => ?_⟩
      rcases (hlinked q n).mp hq' with hq' | hq'
      · exact absurd hq' (hF.orphan n hnq q)
      · exact hq'.1
    · obtain ⟨p, hp, huniq⟩ := hF.parent n hlt hnq
      refine ⟨p, (hlinked p n).mpr (.inl hp), fun q hq' => ?_⟩
      rcases (hlinked q n).mp hq' with hq' | ⟨-, hq' | hq'⟩
      · exact huniq q hq'
      · exact absurd (hq' ▸ ha) hnq
      · exact absurd (hq' ▸ hbq) hnq
  · intro n hn p hp
    rw [hpq, List.mem_cons] at hn
    rcases (hlinked p n).mp hp with hp | ⟨hp, hp'⟩
    · rcases hn with rfl | hn
      · have := hF.children p hp.1 hp.2.1
        have hpc := hp.1
        have h2 := hp.2.2
        simp only [Fin.lt_def] at this
        rcases h2 with h2 | h2
        · rw [h2] at this; simp only [hm] at this; omega
        · rw [h2] at this; simp only [hm] at this; omega
      · exact hF.orphan n ((hmem n).mp hn).2.2 p hp
    · rcases hn with rfl | hn
      · rcases hp' with h2 | h2
        · rw [← h2] at hac; simp [hm] at hac
        · rw [← h2] at hbc; simp [hm] at hbc
      · have := (hmem n).mp hn
        rcases hp' with h2 | h2
        · exact this.2.1 h2
        · exact this.1 h2
  · intro n hn hl
    by_cases hnm : n = m
    · subst hnm
      rw [hcmf, hcmt, hnew, hold a hac, hold b hbc]
      simp only [internalNode, BitVec.toNat_add]
      omega
    · have : n.val < s.nodeCnt.val := by
        have : n.val ≠ s.nodeCnt.val := fun hh => hnm (Fin.ext hh)
        omega
      have hl' : isLeaf s n = false := by rw [← hlold n this]; exact hl
      have hch := hF.children n this hl'
      simp only [Fin.lt_def] at hch
      rw [hcold n _ this, hcold n _ this, hold n this, hold _ (by omega), hold _ (by omega)]
      exact hF.weights n this hl'
  · intro n hn hl
    by_cases hnm : n = m
    · subst hnm; rw [hnew]; rfl
    · have : n.val < s.nodeCnt.val := by
        have : n.val ≠ s.nodeCnt.val := fun hh => hnm (Fin.ext hh)
        omega
      rw [hold n this]
      exact hF.marker n this (by rw [← hlold n this]; exact hl)
  · rw [hpq, weightSum_cons, hnew, weightSum_congr fun n hn => hold n (hF.queued n ((hmem n).mp hn).2.2)]
    simp only [internalNode, BitVec.toNat_add]
    omega
  · intro n hn hl
    by_cases hnm : n = m
    · subst hnm
      refine ⟨?_, ?_, ?_, ?_, ?_⟩
      · rw [hcmf, hcmt]; exact hab
      · rw [hcmf, hopen]; exact ha
      · rw [hcmt, hopen]; exact hbq
      · intro x hx
        rw [hopen] at hx
        rw [hcmf, ← hkey a x ha hx]; exact hmin x hx
      · intro x hx
        rw [hopen] at hx
        rw [hcmf, hcmt, ← hkey b x hbq hx]
        by_cases hxa : x = a
        · exact .inl hxa
        · exact .inr (hmin2 x (hF.nodup.mem_erase_iff.mpr ⟨hxa, hx⟩))
    · have hlt : n.val < s.nodeCnt.val := by
        have : n.val ≠ s.nodeCnt.val := fun hh => hnm (Fin.ext hh)
        omega
      refine (hF.greedy n hlt (by rw [← hlold n hlt]; exact hl)).congr fun x hx => hold x ?_
      have : x.val ≤ n.val := hx
      omega
  · exact ⟨by rw [hpq, List.length_cons]; omega, by omega, fun n hn => by rw [hnode, if_neg (by omega)], hold⟩

theorem mergeTwo_frame (s : State) :
    mergeTwo s = { s with node := (mergeTwo s).node, nodeCnt := (mergeTwo s).nodeCnt, pq := (mergeTwo s).pq } := by
  unfold mergeTwo
  split
  · rfl
  · rename_i a s1 h1
    obtain ⟨-, -, rfl⟩ := pqPopMin_spec h1
    split
    · rfl
    · rename_i b s2 h2
      obtain ⟨-, -, rfl⟩ := pqPopMin_spec h2
      rfl

theorem mergeLoop_frame (n : Nat) (s : State) :
    mergeLoop n s = { s with node := (mergeLoop n s).node, nodeCnt := (mergeLoop n s).nodeCnt, pq := (mergeLoop n s).pq } := by
  induction n generalizing s with
  | zero => rfl
  | succ n ih =>
    rw [mergeLoop]
    split
    · rw [ih, mergeTwo_frame]
    · rfl

/-- The loop in one lemma (rules R120, R124): it keeps the forest, ends with one node in the queue, and changes no node that
stood before it. -/
theorem mergeLoop_forest {L T n : Nat} {s : State} (hF : Forest L T s) (hL : L ≤ 257) (hT : T < 2 ^ 41) (hn : s.pq.length ≤ n + 1)
    (h1 : 1 ≤ s.pq.length) :
    Forest L T (mergeLoop n s) ∧ (mergeLoop n s).pq.length = 1 ∧ s.nodeCnt.val ≤ (mergeLoop n s).nodeCnt.val ∧
      (∀ m : NodeIdx, (mergeLoop n s).nodeCnt.val ≤ m.val → nodeAt (mergeLoop n s) m = nodeAt s m) ∧
      ∀ m : NodeIdx, m.val < s.nodeCnt.val → nodeAt (mergeLoop n s) m = nodeAt s m := by
  induction n generalizing s with
  | zero => exact ⟨hF, by rw [mergeLoop]; omega, Nat.le_refl _, fun _ _ => rfl, fun _ _ => rfl⟩
  | succ n ih =>
    rw [mergeLoop]
    split
    · rename_i hlt
      obtain ⟨hF', hlen, hle, hnew, hold⟩ := mergeTwo_forest hF hL hT hlt
      obtain ⟨g1, g2, g3, g5, g4⟩ := ih hF' (by omega) (by omega)
      exact ⟨g1, g2, by omega, fun m hm => by rw [g5 m hm, hnew m (by omega)], fun m hm => by rw [g4 m (by omega), hold m hm]⟩
    · exact ⟨hF, by omega, Nat.le_refl _, fun _ _ => rfl, fun _ _ => rfl⟩

/-- A forest of one tree is that tree: the last node left in the queue is the last node created (rule R124). -/
theorem Forest.root_last {L T : Nat} {v : State} {r : NodeIdx} (hF : Forest L T v) (hr : v.pq = [r]) :
    r.val + 1 = v.nodeCnt.val := by
  have hrc := hF.queued r (by simp [hr])
  by_contra hh
  obtain ⟨p, hp, -⟩ := hF.parent ⟨v.nodeCnt.val - 1, by omega⟩ (by simp; omega) (by
    rw [hr, List.mem_singleton, Fin.ext_iff]; simp; omega)
  have := hF.children p hp.1 hp.2.1
  have h2 := hp.2.2
  have h3 := hp.1
  simp only [Fin.lt_def] at this
  rcases h2 with h2 | h2 <;> rw [h2] at this <;> simp at this <;> omega

/-- A forest of one tree over the keys of FT is a tree of FT (rule R47). -/
theorem Forest.treeShape {T : Nat} {v t : State} {r : NodeIdx} (hF : Forest (keys t.ft).length T v) (hr : v.pq = [r])
    (hnode : t.node = v.node) (hcnt : t.nodeCnt = v.nodeCnt) (hroot : t.root = r)
    (hsym : ∀ n : NodeIdx, ∀ k, (keys t.ft)[n.val]? = some k → (nodeAt v n).sym = keySymbol k) : TreeShape t := by
  have hN : ∀ n, nodeAt t n = nodeAt v n := fun n => by rw [nodeAt, nodeAt, hnode]
  have hL : ∀ n, isLeaf t n = isLeaf v n := fun n => by rw [isLeaf, isLeaf, hN]
  have hC : ∀ n x, child t n x = child v n x := fun n x => by rw [child, child, hN]
  have hK : ∀ p c, Linked t p c ↔ Linked v p c := fun p c => by simp only [Linked, hL, hC, hcnt]
  have hlast := hF.root_last hr
  refine ⟨⟨?_, ?_, ?_⟩, ?_, ?_, ?_, ?_, ?_, ?_⟩
  · rw [hcnt]; omega
  · omega
  · rw [hcnt, hroot]; exact hlast
  · simp only [hL, hC, hcnt]; exact hF.children
  · simp only [hK, hcnt, hroot]
    intro n hn hnr
    exact hF.parent n hn (by rw [hr, List.mem_singleton]; exact hnr)
  · have := hF.size
    rw [hr, List.length_singleton] at this
    have h1 := hF.queued r (by simp [hr])
    rw [hcnt]; omega
  · simp only [hL, hcnt]; exact hF.leaf
  · intro n k _ hk; rw [hN]; exact hsym n k hk
  · simp only [hL, hC, hN, hcnt]
    intro n hn hl
    have h := hF.weights n hn hl
    have := (nodeAt v n).weight.isLt
    exact BitVec.eq_of_toNat_eq (by rw [BitVec.toNat_add]; omega)

/-- The sum of all counts of a mapping. -/
def countSum (ft : FreqTable) : Nat := ((keys ft).map fun k => (countOf ft k).toNat).sum

/-- The sum of all counts fits a weight (rule R127). -/
theorem countSum_lt (ft : FreqTable) : countSum ft < 2 ^ 41 := by
  have h : countSum ft ≤ (keys ft).length * (2 ^ 32 - 1) := by
    have := List.sum_le_card_nsmul ((keys ft).map fun k => (countOf ft k).toNat) (2 ^ 32 - 1) (by
      intro x hx
      obtain ⟨k, -, rfl⟩ := List.mem_map.mp hx
      have := (countOf ft k).isLt
      omega)
    simpa [countSum] using this
  have := keys_length_le ft
  have h2 : (keys ft).length * (2 ^ 32 - 1) ≤ 257 * (2 ^ 32 - 1) := Nat.mul_le_mul_right _ this
  omega

/-- BUILD_TREE on a nonempty mapping: the forest it ends its loop with, and its answer. -/
theorem execBuildTree_eq (s : State) (hne : keys s.ft ≠ []) :
    ∃ v r, Forest (keys s.ft).length (countSum s.ft) v ∧ v.pq = [r] ∧ v.nodeCnt.val + 1 = 2 * (keys s.ft).length ∧
      (∀ n : NodeIdx, ∀ k, (keys s.ft)[n.val]? = some k → nodeAt v n = leafNode s.ft k) ∧
      (∀ n : NodeIdx, v.nodeCnt.val ≤ n.val → nodeAt v n = nodeAt s n) ∧
      v = { startBuild s with node := v.node, nodeCnt := v.nodeCnt, pq := [r] } ∧
      execBuildTree s = .next (finish (setRoot r { v with pq := [] })) := by
  have hst := addLeaves_stand s
  have hlen := keys_length_le s.ft
  have hpos : 1 ≤ (keys s.ft).length := List.length_pos_iff.mpr hne
  have hfr := addLeaves_frame (startBuild s)
  have hstale := addLeaves_stale s
  unfold execBuildTree
  generalize addLeaves (startBuild s) = u at *
  obtain ⟨hF, h1, hge, hnew, hold⟩ := mergeLoop_forest (n := Config.pqCap) hst.forest hlen (countSum_lt s.ft)
    (by rw [hst.length]; simp [Config.pqCap]; omega) (by rw [hst.length]; exact hpos)
  have hfr2 := mergeLoop_frame Config.pqCap u
  generalize mergeLoop Config.pqCap u = v at *
  have hsz := hF.size
  obtain ⟨r, hr⟩ : ∃ r, v.pq = [r] := by
    match hq : v.pq, h1 with
    | [r], _ => exact ⟨r, rfl⟩
  have hpop : pqPopMin v = some (r, { v with pq := [] }) := by
    simp [pqPopMin, hr, pqLeast]
  refine ⟨v, r, hF, hr, by rw [h1] at hsz; omega, ?_, ?_, ?_, by rw [hpop]⟩
  · intro n k hk
    rw [hold n (by rw [hst.count]; exact (List.getElem?_eq_some_iff.mp hk).1), hst.node n k hk]
  · intro n hn
    rw [hnew n hn, hstale n (by omega)]
  · rw [← hr, hfr2, hfr]

/-- BUILD_TREE on an empty mapping. -/
theorem execBuildTree_empty (s : State) (h : keys s.ft = []) :
    execBuildTree s = .next (raise .invalidInput 0#32 (startBuild s)) := by
  have h1 : addLeaves (startBuild s) = startBuild s := by
    have : keys (startBuild s).ft = [] := h
    rw [addLeaves, this]; rfl
  have h2 : ∀ n, mergeLoop n (startBuild s) = startBuild s := by
    intro n; cases n <;> simp [mergeLoop, startBuild]
  have h3 : pqPopMin (startBuild s) = none := pqPopMin_none.mpr rfl
  rw [execBuildTree, h1, h2, h3]

/-- Two states whose queues and whose arenas below NODE_CNT are equal. -/
structure SameForest (s u : State) : Prop where
  count : u.nodeCnt = s.nodeCnt
  pq : u.pq = s.pq
  node : ∀ n : NodeIdx, n.val < s.nodeCnt.val → nodeAt u n = nodeAt s n
  bound : ∀ n ∈ s.pq, n.val < s.nodeCnt.val

theorem SameForest.pushNode {s u : State} (h : SameForest s u) (nd : Node) (hc : s.nodeCnt.val < 513) :
    SameForest (Machine.pushNode nd s) (Machine.pushNode nd u) := by
  have hcu : u.nodeCnt.val < 513 := by rw [h.count]; exact hc
  refine ⟨?_, ?_, fun n hn => ?_, fun n hn => ?_⟩
  · rw [pushNode_eq _ _ hc, pushNode_eq _ _ hcu]; simp [h.count]
  · rw [pushNode_eq _ _ hc, pushNode_eq _ _ hcu]; simp [h.count, h.pq]
  · rw [pushNode_nodeAt _ _ hc, pushNode_nodeAt _ _ hcu, h.count]
    split
    · rfl
    · rename_i hne
      rw [pushNode_eq _ _ hc] at hn
      simp only at hn
      exact h.node n (by omega)
  · rw [pushNode_eq _ _ hc] at hn ⊢
    simp only [List.mem_cons] at hn ⊢
    rcases hn with rfl | hn
    · simp
    · have := h.bound n hn; omega

theorem pqLeast_congr {s u : State} {m : NodeIdx} {ns : List NodeIdx} (h : ∀ n ∈ m :: ns, nodeAt u n = nodeAt s n) :
    pqLeast u m ns = pqLeast s m ns := by
  induction ns generalizing m with
  | nil => rfl
  | cons n ns ih =>
    have hm := h m List.mem_cons_self
    have hn := h n (List.mem_cons_of_mem _ List.mem_cons_self)
    rw [pqLeast, pqLeast, pqBefore, pqBefore, hm, hn]
    refine ih fun x hx => ?_
    rcases List.mem_cons.mp hx with rfl | hx
    · split <;> assumption
    · exact h x (List.mem_cons_of_mem _ (List.mem_cons_of_mem _ hx))

theorem SameForest.pop {s u : State} (h : SameForest s u) :
    (pqPopMin s = none ∧ pqPopMin u = none) ∨
    ∃ a s' u', a ∈ s.pq ∧ pqPopMin s = some (a, s') ∧ pqPopMin u = some (a, u') ∧ SameForest s' u' ∧
      s'.nodeCnt = s.nodeCnt := by
  unfold pqPopMin
  rw [h.pq]
  rcases hq : s.pq with _ | ⟨n, ns⟩
  · exact .inl ⟨rfl, rfl⟩
  · have e : pqLeast u n ns = pqLeast s n ns := pqLeast_congr fun x hx => h.node x (h.bound x (by rw [hq]; exact hx))
    refine .inr ⟨pqLeast s n ns, _, { u with pq := (n :: ns).erase (pqLeast s n ns) }, pqLeast_mem s n ns, rfl, by simp only [e], ⟨h.count, rfl, h.node, fun x hx => ?_⟩, rfl⟩
    exact h.bound x (by rw [hq]; exact List.mem_of_mem_erase hx)

theorem SameForest.mergeTwo {s u : State} (h : SameForest s u) (hc : s.nodeCnt.val < 513) :
    SameForest (Machine.mergeTwo s) (Machine.mergeTwo u) := by
  unfold Machine.mergeTwo
  rcases h.pop with ⟨h1, h2⟩ | ⟨a, s1, u1, ha, h1, h2, h3, hn⟩
  · rw [h1, h2]; exact h
  · rw [h1, h2]
    simp only
    have hs1 := (pqPopMin_spec h1).2.2
    rcases h3.pop with ⟨g1, g2⟩ | ⟨b, s2, u2, hb, g1, g2, g3, gn⟩
    · rw [g1, g2]; exact h3
    · rw [g1, g2]
      have hs2 := (pqPopMin_spec g1).2.2
      have hbc := h3.bound b hb
      have hac := h.bound a ha
      have e : internalNode u2 a b = internalNode s2 a b := by
        rw [internalNode, internalNode, g3.node a (by rw [gn, hn]; exact hac), g3.node b (by rw [gn]; exact hbc)]
      simp only [e]
      exact g3.pushNode _ (by rw [gn, hn]; exact hc)

theorem SameForest.mergeLoop {L T n : Nat} {s u : State} (h : SameForest s u) (hF : Forest L T s) (hL : L ≤ 257) (hT : T < 2 ^ 41) :
    SameForest (Machine.mergeLoop n s) (Machine.mergeLoop n u) := by
  induction n generalizing s u with
  | zero => exact h
  | succ n ih =>
    rw [Machine.mergeLoop, Machine.mergeLoop, h.pq]
    split
    · rename_i hlt
      have := hF.size
      exact ih (h.mergeTwo (by omega)) (mergeTwo_forest hF hL hT hlt).1
    · exact h

theorem SameForest.addLeaves {s u : State} (h : s.ft = u.ft) :
    SameForest (Machine.addLeaves (startBuild s)) (Machine.addLeaves (startBuild u)) := by
  have go : ∀ (ks : List Key) (a b : State), a.ft = b.ft → SameForest a b → a.nodeCnt.val + ks.length ≤ 513 →
      SameForest (ks.foldl addLeaf a) (ks.foldl addLeaf b) := by
    intro ks
    induction ks with
    | nil => intro a b _ h _; exact h
    | cons k ks ih =>
      intro a b hf h hle
      simp only [List.length_cons] at hle
      have hc : a.nodeCnt.val < 513 := by omega
      refine ih _ _ hf ?_ (by have := (addLeaf_stale (k := k) hc).1; omega)
      rw [addLeaf, addLeaf, ← hf]
      exact h.pushNode _ hc
  have hk : keys (startBuild u).ft = keys (startBuild s).ft := by
    show keys u.ft = keys s.ft; rw [h]
  rw [Machine.addLeaves, Machine.addLeaves, hk]
  refine go _ _ _ h ⟨rfl, rfl, fun n hn => ?_, fun n hn => ?_⟩ ?_
  · simp [startBuild, dropTree] at hn
  · simp [startBuild] at hn
  · have := keys_length_le s.ft
    show 0 + (keys s.ft).length ≤ 513
    omega

/-- BUILD_TREE builds the same tree from equal mappings. -/
theorem execBuildTree_congr {s u : State} (h : s.ft = u.ft) :
    ∃ t v, execBuildTree s = .next t ∧ execBuildTree u = .next v ∧ v.treeValid = t.treeValid ∧ v.nodeCnt = t.nodeCnt ∧
      v.root = t.root ∧ ∀ n : NodeIdx, n.val < t.nodeCnt.val → nodeAt v n = nodeAt t n := by
  have hst := addLeaves_stand s
  have hF := (SameForest.addLeaves h).mergeLoop (n := Config.pqCap) hst.forest (keys_length_le s.ft) (countSum_lt s.ft)
  by_cases hne : keys s.ft = []
  · have hne' : keys u.ft = [] := by rw [← h]; exact hne
    exact ⟨_, _, execBuildTree_empty s hne, execBuildTree_empty u hne', rfl, rfl, rfl, fun n hn => by simp [startBuild, dropTree] at hn⟩
  · unfold execBuildTree
    rcases hF.pop with ⟨h1, h2⟩ | ⟨a, s1, u1, ha, h1, h2, h3, hn⟩
    · rw [h1, h2]
      exact ⟨_, _, rfl, rfl, by rw [raise_treeValid, raise_treeValid, addLeaves_frame, addLeaves_frame (startBuild s)]; rfl,
        (SameForest.addLeaves h).count, by rw [raise_root, raise_root, addLeaves_frame, addLeaves_frame (startBuild s)]; rfl,
        (SameForest.addLeaves h).node⟩
    · rw [h1, h2]
      exact ⟨_, _, rfl, rfl, rfl, h3.count, rfl, h3.node⟩
end Sys2Proof.Machine
end

