-- ==== Sys2Proof/Laws/Commands.lean ====
section
/-! SUPPORT. What each command does, whatever the state: its outcomes, what no command writes, how it ends or waits. -/

namespace Sys2Proof.Machine

open Sys2Proof

/-- What no command writes: OVR, CTRL, the index registers and the host's side but for the ports. -/
def Untouched (s t : State) : Prop :=
  t.ovr = s.ovr ∧ t.irqEn = s.irqEn ∧ t.ftIdx = s.ftIdx ∧ t.ctIdx = s.ctIdx ∧ t.nodeIdx = s.nodeIdx ∧
    t.rst = s.rst ∧ t.responses = s.responses ∧ t.host = s.host ∧ t.hold = s.hold ∧
    t.yinBack = s.yinBack ∧ t.binBack = s.binBack

theorem Untouched.trans {s t u : State} (h : Untouched s t) (g : Untouched t u) : Untouched s u := by
  unfold Untouched at *
  simp_all

theorem freqLoop_untouched (ts : List YTok) (s : State) : Untouched s (freqLoop ts s) := by
  rw [freqLoop_frame]; exact ⟨rfl, rfl, rfl, rfl, rfl, rfl, rfl, rfl, rfl, rfl, rfl⟩

theorem putLoop_untouched (cs : List Byte) (s : State) : Untouched s (putLoop cs s) := by
  rw [putLoop_frame]; exact ⟨rfl, rfl, rfl, rfl, rfl, rfl, rfl, rfl, rfl, rfl, rfl⟩

theorem hdrLoop_untouched (ts : List YTok) (pos : Nat) (place : HdrPos) (s : State) : Untouched s (hdrLoop ts pos place s) := by
  rw [hdrLoop_frame]; exact ⟨rfl, rfl, rfl, rfl, rfl, rfl, rfl, rfl, rfl, rfl, rfl⟩

theorem encodeLoop_untouched (ts : List YTok) (s : State) : Untouched s (encodeLoop ts s) := by
  rw [encodeLoop_frame]; exact ⟨rfl, rfl, rfl, rfl, rfl, rfl, rfl, rfl, rfl, rfl, rfl⟩

theorem decodeLoop_untouched (ts : List BTok) (cur : NodeIdx) (s : State) : Untouched s (decodeLoop ts cur s) := by
  rw [decodeLoop_frame]; exact ⟨rfl, rfl, rfl, rfl, rfl, rfl, rfl, rfl, rfl, rfl, rfl⟩

/-- GEN_CODES' walk writes CT and its stack, whatever the arena holds. -/
theorem walkTree_frame {fuel : Nat} {n : NodeIdx} {p : Path} {s t : State} (h : walkTree fuel n p s = some t) :
    t = { s with ct := t.ct, walk := t.walk } := by
  induction fuel generalizing n p s with
  | zero => cases h
  | succ fuel ih =>
    rw [walkTree] at h
    split at h
    · split at h
      · split at h
        · cases h; rfl
        · exact ih (s := popWalk _ (setCode _ _ s)) h
      · cases h
    · split at h
      · exact ih (s := pushWalk _ _ s) h
      · cases h

/-- BUILD_TREE, whatever the state: it succeeds or raises InvalidInput, and writes the tree, CT, CT_READY, PQ and the report. -/
theorem execBuildTree_cases (s : State) :
    (execBuildTree s = .next (raise .invalidInput 0#32 (startBuild s)) ∧ keys s.ft = []) ∨
    ∃ t : State, execBuildTree s = .next t ∧ keys s.ft ≠ [] ∧
      t = { s with
        node := t.node, nodeCnt := t.nodeCnt, root := t.root, treeValid := true
        ctReady := false, ct := Vector.replicate 257 none, pq := []
        busy := false, done := true, seq := .idle } := by
  by_cases h : keys s.ft = []
  · exact .inl ⟨execBuildTree_empty s h, h⟩
  · obtain ⟨v, r, -, -, -, -, -, hv, he⟩ := execBuildTree_eq s h
    exact .inr ⟨_, he, h, by rw [hv]; rfl⟩

/-- GEN_CODES, whatever the state. -/
theorem execGenCodes_cases {s t : State} (h : execGenCodes s = .next t) :
    (s.treeValid = false ∧ t = raise .invalidTree Config.noTreeInfo s) ∨
    (s.treeValid = true ∧ t = { s with
      ct := t.ct, walk := t.walk, ctReady := true, busy := false, done := true, seq := .idle }) := by
  unfold execGenCodes at h
  split at h
  · rename_i hv
    split at h
    · rename_i u hu
      cases h
      have := walkTree_frame hu
      exact .inr ⟨hv, by rw [this]; rfl⟩
    · cases h
  · rename_i hv
    cases h
    exact .inl ⟨by simpa using hv, rfl⟩

/-- DECODE, whatever the state. -/
theorem execDecode_cases (s : State) :
    (∃ n, execDecode s = .next (raise .invalidTree n (leaveBin s))) ∨ execDecode s = .next (finish (leaveBin s)) ∨
      (s.treeValid = true ∧ isLeaf s s.root = false ∧ execDecode s = .next (decodeLoop s.bin s.root s)) := by
  unfold execDecode
  split
  · rename_i hv
    split
    · split
      · exact .inr (.inl rfl)
      · exact .inl ⟨_, rfl⟩
    · rename_i hl
      exact .inr (.inr ⟨hv, by simpa using hl, rfl⟩)
  · exact .inl ⟨_, rfl⟩

/-- No command writes what `Untouched` names. -/
theorem exec_untouched {i : Instr} {s t : State} (h : exec i s = .next t) : Untouched s t := by
  have self : ∀ u : State, Untouched u u := fun u => ⟨rfl, rfl, rfl, rfl, rfl, rfl, rfl, rfl, rfl, rfl, rfl⟩
  cases i with
  | nop => cases h; exact self s
  | clear => cases h; exact self s
  | freqCount => cases h; exact freqLoop_untouched s.yin (clearFt (invalidateTree s))
  | hdrWrite => cases h; exact putLoop_untouched (headerText s.ft) s
  | hdrRead => cases h; exact hdrLoop_untouched s.yin 0 .brace (clearFt (invalidateTree s))
  | buildTree =>
    rcases execBuildTree_cases s with ⟨h1, -⟩ | ⟨u, h1, -, hu⟩
    · cases h.symm.trans h1; exact self s
    · cases h.symm.trans h1; rw [hu]; exact self s
  | genCodes =>
    rcases execGenCodes_cases h with ⟨-, rfl⟩ | ⟨-, ht⟩
    · exact self s
    · rw [ht]; exact self s
  | encode => cases h; exact encodeLoop_untouched s.yin s
  | decode =>
    rcases execDecode_cases s with ⟨n, h1⟩ | h1 | ⟨-, -, h1⟩ <;> cases h.symm.trans h1
    · exact self s
    · exact self s
    · exact decodeLoop_untouched s.bin s.root s

/-- A command ends, or waits at a port transfer. -/
theorem exec_ends {i : Instr} {s t : State} (h : exec i s = .next t) : Ended s t ∨ Waiting (· ≠ .idle) s t := by
  have w : ∀ {P : Seq → Prop} {s t : State}, (∀ q, P q → q ≠ .idle) → Waiting P s t → Waiting (· ≠ .idle) s t :=
    fun hP h => ⟨h.report, hP _ h.place⟩
  cases i with
  | nop => cases h; exact .inl (ended_finish s)
  | clear => cases h; exact .inl ((ended_finish _).of_report ⟨rfl, rfl, rfl⟩)
  | freqCount =>
    cases h
    rcases freqLoop_ends s.yin (clearFt (invalidateTree s)) with g | g
    · exact .inl (g.of_report ⟨rfl, rfl, rfl⟩)
    · exact .inr ((w (by rintro _ rfl; simp) g).of_report ⟨rfl, rfl, rfl, rfl, rfl⟩)
  | hdrWrite =>
    cases h
    exact (putLoop_ends (headerText s.ft) s).imp id (w (by rintro _ ⟨_, _, -, -, rfl⟩; simp))
  | hdrRead =>
    cases h
    rcases hdrLoop_ends s.yin 0 .brace (clearFt (invalidateTree s)) with g | g
    · exact .inl (g.of_report ⟨rfl, rfl, rfl⟩)
    · exact .inr ((w (by rintro _ ⟨_, _, rfl⟩; simp) g).of_report ⟨rfl, rfl, rfl, rfl, rfl⟩)
  | buildTree =>
    rcases execBuildTree_cases s with ⟨h1, -⟩ | ⟨u, h1, -, hu⟩
    · cases h.symm.trans h1; exact .inl ((ended_raise (by decide) _ _).of_report ⟨rfl, rfl, rfl⟩)
    · cases h.symm.trans h1; rw [hu]; exact .inl ⟨⟨rfl, rfl, rfl⟩, .inl ⟨rfl, rfl, rfl⟩⟩
  | genCodes =>
    rcases execGenCodes_cases h with ⟨-, rfl⟩ | ⟨-, ht⟩
    · exact .inl (ended_raise (by decide) _ _)
    · rw [ht]; exact .inl ⟨⟨rfl, rfl, rfl⟩, .inl ⟨rfl, rfl, rfl⟩⟩
  | encode =>
    cases h
    exact (encodeLoop_ends s.yin s).imp id (w (by rintro _ (rfl | ⟨_, _, -, rfl⟩) <;> simp))
  | decode =>
    rcases execDecode_cases s with ⟨n, h1⟩ | h1 | ⟨-, -, h1⟩ <;> cases h.symm.trans h1
    · exact .inl ⟨⟨rfl, rfl, rfl⟩, .inr ⟨.invalidTree, by decide, rfl, rfl⟩⟩
    · exact .inl ⟨⟨rfl, rfl, rfl⟩, .inl ⟨rfl, rfl, rfl⟩⟩
    · exact (decodeLoop_ends s.bin s.root s).imp id (w (by rintro _ (⟨_, rfl⟩ | ⟨_, rfl⟩) <;> simp))
end Sys2Proof.Machine
end

