-- ==== Sys2Proof/Laws/Depth.lean ====
section
/-! SUPPORT. Why a rarer symbol has no shorter code (rule R128): the nodes of a greedy tree leave the queue in the order of their
keys, and the parents of two nodes stand in the order of the nodes. -/

namespace Sys2Proof.Machine

open Sys2Proof

/-- What BUILD_TREE knows of its tree: exact weights, and how each internal node was made (rule R120). -/
structure GreedyTree (s : State) : Prop where
  shape : TreeShape s
  weights : ∀ n : NodeIdx, n.val < s.nodeCnt.val → isLeaf s n = false →
    (nodeAt s n).weight.toNat = (nodeAt s (child s n false)).weight.toNat + (nodeAt s (child s n true)).weight.toNat
  greedy : ∀ n : NodeIdx, n.val < s.nodeCnt.val → isLeaf s n = false → GreedyAt s n

theorem KeyLess.asymm {s : State} {a b : NodeIdx} (h : KeyLess s a b) (g : KeyLess s b a) : False := by
  simp only [KeyLess, Fin.lt_def] at h g
  omega

theorem KeyLess.trans {s : State} {a b c : NodeIdx} (h : KeyLess s a b) (g : KeyLess s b c) : KeyLess s a c := by
  simp only [KeyLess, Fin.lt_def] at h g ⊢
  omega

/-- A child stands before its parent in the queue's order. -/
theorem GreedyTree.child_keyLess {s : State} (h : GreedyTree s) {p c : NodeIdx} (hl : Linked s p c) : KeyLess s c p := by
  have hc := h.shape.children p hl.1 hl.2.1
  have hw := h.weights p hl.1 hl.2.1
  simp only [KeyLess, Fin.lt_def] at hc ⊢
  rcases hl.2.2 with rfl | rfl <;> omega

/-- Of two internal nodes, each child of the one made first stands before each child of the other and before the other itself. -/
theorem GreedyTree.order {s : State} (h : GreedyTree s) {p q : NodeIdx} (hq : q.val < s.nodeCnt.val) (hql : isLeaf s q = false)
    (hpq : p < q) (hpl : isLeaf s p = false) {x y : NodeIdx} (hx : Linked s p x) (hy : Linked s q y) : KeyLess s x y := by
  by_cases hyp : y < p
  · have ho : OpenAt s p y := by
      refine ⟨hyp, fun r hr hrl => ?_⟩
      have hrc : r.val < s.nodeCnt.val := by simp only [Fin.lt_def] at hr hpq; omega
      by_contra hh
      have : Linked s r y := ⟨hrc, hrl, by by_contra g; exact hh ⟨fun e => g (.inl e), fun e => g (.inr e)⟩⟩
      have := (h.shape.linked_unique this hy).1
      subst this
      exact absurd hr (by simp only [Fin.lt_def] at hpq ⊢; omega)
    have hne : ∀ b, y ≠ child s p b := fun b e => by
      have : Linked s p y := ⟨hx.1, hpl, by cases b; exact .inl e.symm; exact .inr e.symm⟩
      have := (h.shape.linked_unique this hy).1
      subst this
      exact absurd hpq (lt_irrefl _)
    have hg := h.greedy p hx.1 hpl
    have h1 := (hg.first y ho).resolve_left (hne false)
    have h2 := ((hg.second y ho).resolve_left (hne false)).resolve_left (hne true)
    rcases hx.2.2 with rfl | rfl
    · exact h1
    · exact h2
  · have hyq := h.child_keyLess hy
    have hyc : y.val < s.nodeCnt.val := by
      have := h.shape.children q hq hql
      simp only [Fin.lt_def] at this
      rcases hy.2.2 with rfl | rfl <;> omega
    have hyl : isLeaf s y = false := by
      by_contra hh
      rw [Bool.not_eq_false, h.shape.leaves y hyc] at hh
      have := (h.shape.leaves p hx.1).not.mp (by simp [hpl])
      simp only [Fin.lt_def] at hyp
      omega
    by_cases hyp2 : y = p
    · subst hyp2; exact h.child_keyLess hx
    · have hpy : p < y := by
        simp only [Fin.lt_def, Fin.ext_iff] at hyp hyp2 ⊢
        omega
      have hz : Linked s y (child s y false) := ⟨hyc, hyl, .inl rfl⟩
      have : y < q := by
        have := h.shape.children q hq hql
        rcases hy.2.2 with rfl | rfl
        · exact this.1
        · exact this.2.1
      exact (h.order hyc hyl hpy hpl hx hz).trans (h.child_keyLess hz)
termination_by q.val

/-- A path that leads somewhere ends at the root or comes through the parent. -/
theorem leads_parent {s : State} {n m : NodeIdx} {p : Path} (b : Bool) (h : leads s n (p ++ [b]) = some m) :
    ∃ q, leads s n p = some q ∧ isLeaf s q = false ∧ child s q b = m := by
  rw [leads_append] at h
  obtain ⟨q, hq, h⟩ := Option.bind_eq_some_iff.mp h
  refine ⟨q, hq, ?_⟩
  rw [leads] at h
  split at h
  · cases h
  · rename_i hl
    exact ⟨by simpa using hl, by simpa [leads] using h⟩

theorem TreeShape.leads_lt {s : State} (h : TreeShape s) {p : Path} {n m : NodeIdx} (hn : n.val < s.nodeCnt.val)
    (hp : leads s n p = some m) : m.val < s.nodeCnt.val := by
  induction p generalizing n with
  | nil => simp only [leads, Option.some.injEq] at hp; exact hp ▸ hn
  | cons b p ih =>
    rw [leads] at hp
    split at hp
    · cases hp
    · rename_i hl
      have hc := h.children n hn (by simpa using hl)
      simp only [Fin.lt_def] at hc
      exact ih (by cases b <;> omega) hp

/-- A node that leaves the queue first is no nearer to the root. -/
theorem GreedyTree.depth {s : State} (h : GreedyTree s) (p : Path) {q : Path} {x y : NodeIdx} (hp : leads s s.root p = some x)
    (hq : leads s s.root q = some y) (hxy : x = y ∨ KeyLess s x y) : q.length ≤ p.length := by
  have hr : s.root.val < s.nodeCnt.val := by have := h.shape.count; omega
  induction q using List.reverseRecOn generalizing p x y with
  | nil => simp
  | append_singleton q b ih =>
    obtain ⟨qy, hqy, hly, hcy⟩ := leads_parent b hq
    have hLy : Linked s qy y := ⟨h.shape.leads_lt hr hqy, hly, by cases b; exact .inl hcy; exact .inr hcy⟩
    rcases List.eq_nil_or_concat p with rfl | ⟨p, a, rfl⟩
    · simp only [leads, Option.some.injEq] at hp
      subst hp
      exfalso
      rcases hxy with rfl | hxy
      · exact (h.shape.linked_unique hLy hLy).2 rfl
      · have hk := hxy.trans (h.child_keyLess hLy)
        have hq0 := ih [] rfl hqy (.inr hk)
        obtain rfl := List.length_eq_zero_iff.mp (Nat.le_zero.mp hq0)
        simp only [leads, Option.some.injEq] at hqy
        subst hqy
        exact hk.asymm hk
    · rw [List.concat_eq_append] at hp ⊢
      obtain ⟨px, hpx, hlx, hcx⟩ := leads_parent a hp
      have hLx : Linked s px x := ⟨h.shape.leads_lt hr hpx, hlx, by cases a; exact .inl hcx; exact .inr hcx⟩
      have : q.length ≤ p.length := by
        refine ih p hpx hqy ?_
        by_contra hh
        rw [not_or] at hh
        rcases lt_trichotomy px qy with g | g | g
        · refine hh.2 ?_
          have h1 := h.order hLy.1 hly g hlx ⟨hLx.1, hlx, .inl rfl⟩ ⟨hLy.1, hly, .inl rfl⟩
          have h2 := h.order hLy.1 hly g hlx ⟨hLx.1, hlx, .inr rfl⟩ ⟨hLy.1, hly, .inr rfl⟩
          have w1 := h.weights px hLx.1 hlx
          have w2 := h.weights qy hLy.1 hly
          simp only [KeyLess, Fin.lt_def] at h1 h2 g ⊢
          omega
        · exact hh.1 g
        · have := h.order hLx.1 hlx g hly hLy hLx
          rcases hxy with rfl | hxy
          · exact this.asymm this
          · exact this.asymm hxy
      simpa using this

/-- The tree BUILD_TREE leaves (rules R120, R124). -/
theorem execBuildTree_greedy {s t : State} (hne : keys s.ft ≠ []) (h : execBuildTree s = .next t) : GreedyTree t ∧ t.ft = s.ft ∧
    ∀ n : NodeIdx, ∀ k : Key, (keys s.ft)[n.val]? = some k → nodeAt t n = leafNode s.ft k := by
  obtain ⟨v, r, hF, hr, -, hleaf, -, hv, he⟩ := execBuildTree_eq s hne
  have hft : v.ft = s.ft := by rw [hv]; rfl
  rw [he] at h
  cases h
  refine ⟨⟨?_, hF.weights, fun n hn hl => (hF.greedy n hn hl).congr fun _ _ => rfl⟩, hft, hleaf⟩
  refine Forest.treeShape (v := v) (r := r) (T := countSum s.ft) ?_ hr rfl rfl rfl ?_
  · show Forest (keys v.ft).length _ v
    rw [hft]; exact hF
  · intro n k hk
    have : (keys s.ft)[n.val]? = some k := by rw [← hft]; exact hk
    rw [hleaf n k this]; rfl

end Sys2Proof.Machine
end

