-- ==== Sys2Proof/Laws/Invariants.lean ====
section
/-! SUPPORT. The parts of a step and the invariants of a sound state: what a command's own part of a step, and each of the host's
moves, keep of them. -/

namespace Sys2Proof.Machine

open Sys2Proof

/-! ### The invariants, field by field -/

theorem State.TreeOk.congr {s t : State} (h : s.TreeOk) (hn : t.node = s.node) (hc : t.nodeCnt = s.nodeCnt) (hr : t.root = s.root)
    (hf : t.ft = s.ft) (hv : t.treeValid = s.treeValid) : t.TreeOk :=
  ⟨fun e => (h.valid (hv ▸ e)).congr hn hc hr hf, fun e => by rw [hc, hr]; exact h.invalid (hv ▸ e)⟩

/-- The tree invariant without a tree. -/
theorem treeOk_of_invalid {s : State} (hv : s.treeValid = false) (hc : s.nodeCnt = 0) (hr : s.root = 0) : s.TreeOk :=
  ⟨fun e => (by rw [hv] at e; cases e), fun _ => ⟨hc, hr⟩⟩

theorem State.CodeOk.congr {s t : State} (h : s.CodeOk) (hn : t.node = s.node) (hc : t.nodeCnt = s.nodeCnt) (hr : t.root = s.root)
    (hf : t.ft = s.ft) (hv : t.treeValid = s.treeValid) (hct : t.ct = s.ct) (hcr : t.ctReady = s.ctReady) : t.CodeOk :=
  ⟨fun e => hv ▸ h.tree (hcr ▸ e), fun e k => by rw [hct, hf]; exact h.valid (hcr ▸ e) k,
    fun e k c he => by
      rw [hct] at he
      exact ⟨(h.path (hcr ▸ e) k c he).1, (h.path (hcr ▸ e) k c he).2.congr hn hc hr⟩,
    fun e k => by rw [hct]; exact h.empty (hcr ▸ e) k⟩

/-- The code table invariant without a code table. -/
theorem codeOk_of_empty {s : State} (hr : s.ctReady = false) (hc : ∀ k : Key, s.ct[k] = none) : s.CodeOk :=
  ⟨fun e => (by rw [hr] at e; cases e), fun e => (by rw [hr] at e; cases e), fun e => (by rw [hr] at e; cases e), fun _ => hc⟩

theorem SeqOk.congr {s t : State} {q : Seq} (h : SeqOk s q) (hn : t.node = s.node) (hc : t.nodeCnt = s.nodeCnt) (hr : t.root = s.root)
    (hf : t.ft = s.ft) (hv : t.treeValid = s.treeValid) (hcr : t.ctReady = s.ctReady) : SeqOk t q := by
  have hN : ∀ n, nodeAt t n = nodeAt s n := fun n => by rw [nodeAt, nodeAt, hn]
  have hL : ∀ n, isLeaf t n = isLeaf s n := fun n => by rw [isLeaf, isLeaf, hN]
  cases q with
  | hdrRead p pl =>
    obtain ⟨h1, h2, h3⟩ := h
    refine ⟨by rw [hv]; exact h1, by rw [hcr]; exact h2, ?_⟩
    cases pl <;> simpa only [PlaceOk, hf] using h3
  | _ => first | exact h | simpa only [SeqOk, hv, hcr, hf, hL, hN, hc, hr] using h

/-! ### Control -/

theorem State.ControlOk.rst_false {s : State} (h : s.ControlOk) (hb : s.busy = true) : s.rst = false := by
  rcases hr : s.rst with _ | _
  · rfl
  · have := congrArg State.busy (h.rst hr)
    rw [hb] at this; cases this

/-- Where a command ends or waits, the report is in order. -/
theorem reportOk_of_ended {s t : State} (h : s.ReportOk) (hb : s.busy = true) (he : Ended s t) : t.ReportOk := by
  have hs := h.running hb
  refine ⟨fun e => ?_, fun e => ?_, ?_⟩
  · rw [he.idle.1] at e; cases e
  · rcases he.report with ⟨h1, h2, h3⟩ | ⟨k, -, h1, -⟩
    · rw [h2, h3]; exact h.clean hs.2
    · rw [h1] at e; cases e
  · rcases he.report with ⟨h1, h2, h3⟩ | ⟨k, hk, h1, h2⟩
    · rw [h2]; exact h.code
    · rw [h2]; cases k <;> first | exact absurd rfl hk | decide

theorem reportOk_of_waiting {s t : State} {P : Seq → Prop} (h : s.ReportOk) (hb : s.busy = true) (hw : Waiting P s t) : t.ReportOk := by
  obtain ⟨h1, h2, h3, h4, h5⟩ := hw.report
  refine ⟨fun _ => ?_, fun e => ?_, ?_⟩
  · rw [h2, h3]; exact h.running hb
  · rw [h4, h5]; exact h.clean (h3 ▸ e)
  · rw [h4]; exact h.code

/-- A running command's part of a step keeps the control invariant. -/
theorem controlOk_of_run {s t : State} (h : s.ControlOk) (hb : s.busy = true)
    (he : Ended s t ∨ Waiting (· ≠ .idle) s t) (hq : t.pq = []) (hw : t.walk = []) (hr : t.rst = s.rst) : t.ControlOk := by
  refine ⟨?_, ⟨hq, hw⟩, ?_, fun e => ?_⟩
  · rcases he with he | he
    · simp [State.BusyOk, he.idle]
    · have := he.place
      simp only [State.BusyOk, he.report.1, hb, true_iff]
      exact this
  · rcases he with he | he
    · exact reportOk_of_ended h.report hb he
    · exact reportOk_of_waiting h.report hb he
  · rw [hr, h.rst_false hb] at e; cases e

theorem walkTree_walk {fuel : Nat} {n : NodeIdx} {p : Path} {s t : State} (h : walkTree fuel n p s = some t) : t.walk = [] := by
  induction fuel generalizing n p s with
  | zero => cases h
  | succ fuel ih =>
    rw [walkTree] at h
    split at h
    · split at h
      · split at h
        · rename_i hw
          cases h; exact hw
        · exact ih h
      · cases h
    · split at h
      · exact ih h
      · cases h

theorem exec_scratch {i : Instr} {s t : State} (h : exec i s = .next t) (hs : s.ScratchOk) : t.ScratchOk := by
  cases i with
  | nop => cases h; exact hs
  | clear => cases h; exact hs
  | freqCount => cases h; unfold State.ScratchOk; rw [freqLoop_frame]; exact hs
  | hdrWrite => cases h; unfold State.ScratchOk; rw [putLoop_frame]; exact hs
  | hdrRead => cases h; unfold State.ScratchOk; rw [hdrLoop_frame]; exact hs
  | buildTree =>
    rcases execBuildTree_cases s with ⟨h1, -⟩ | ⟨u, h1, -, hu⟩
    · cases h.symm.trans h1; exact ⟨rfl, hs.2⟩
    · cases h.symm.trans h1; rw [hu]; exact ⟨rfl, hs.2⟩
  | genCodes =>
    have h0 := h
    rcases execGenCodes_cases h with ⟨-, rfl⟩ | ⟨hv, ht⟩
    · exact hs
    · refine ⟨by rw [ht]; exact hs.1, ?_⟩
      change execGenCodes s = _ at h0
      rw [execGenCodes, if_pos hv] at h0
      split at h0
      · rename_i u hu
        cases h0
        exact (show (finish (setCtReady u)).walk = u.walk from rfl).trans (walkTree_walk hu)
      · cases h0
  | encode => cases h; unfold State.ScratchOk; rw [encodeLoop_frame]; exact hs
  | decode =>
    rcases execDecode_cases s with ⟨n, h1⟩ | h1 | ⟨-, -, h1⟩ <;> cases h.symm.trans h1
    · exact hs
    · exact hs
    · unfold State.ScratchOk; rw [decodeLoop_frame]; exact hs

/-- What a waiting command's own part of a step can do: it ends or waits, and writes neither PQ, the walk stack nor RST. -/
theorem resume_ends (s : State) (hb : s.seq ≠ .idle) (hp : pendingWord s = none) :
    (Ended s (resume s) ∨ (Waiting (· ≠ .idle) s (resume s))) ∧ (resume s).pq = s.pq ∧ (resume s).walk = s.walk ∧
      (resume s).rst = s.rst := by
  have w : ∀ {P : Seq → Prop} {s t : State}, (∀ q, P q → q ≠ .idle) → Waiting P s t → Waiting (· ≠ .idle) s t :=
    fun hP h => ⟨h.report, hP _ h.place⟩
  unfold resume
  cases hq : s.seq with
  | idle => exact absurd hq hb
  | accepted x => rw [pendingWord, hq] at hp; cases hp
  | freqCount =>
    refine ⟨(freqLoop_ends s.yin s).imp id (w (by rintro _ rfl; simp)), ?_⟩
    simp only; rw [freqLoop_frame]; exact ⟨rfl, rfl, rfl⟩
  | hdrWrite rest =>
    refine ⟨(putLoop_ends rest s).imp id (w (by rintro _ ⟨_, _, -, -, rfl⟩; simp)), ?_⟩
    simp only; rw [putLoop_frame]; exact ⟨rfl, rfl, rfl⟩
  | hdrRead pos place =>
    refine ⟨(hdrLoop_ends s.yin pos place s).imp id (w (by rintro _ ⟨_, _, rfl⟩; simp)), ?_⟩
    simp only; rw [hdrLoop_frame]; exact ⟨rfl, rfl, rfl⟩
  | encodeRead =>
    refine ⟨(encodeLoop_ends s.yin s).imp id (w (by rintro _ (rfl | ⟨_, _, -, rfl⟩) <;> simp)), ?_⟩
    simp only; rw [encodeLoop_frame]; exact ⟨rfl, rfl, rfl⟩
  | encodeEmit rest last =>
    simp only [resumeEmit]
    rcases e : emitBits rest s with ⟨left, t⟩
    have hf := emitBits_frame e
    cases left with
    | nil =>
      simp only
      split
      · rw [hf]; exact ⟨.inl ⟨⟨rfl, rfl, rfl⟩, .inl ⟨rfl, rfl, rfl⟩⟩, rfl, rfl, rfl⟩
      · refine ⟨?_, ?_⟩
        · rcases encodeLoop_ends t.yin t with g | g
          · exact .inl (g.of_report (by rw [hf]; exact ⟨rfl, rfl, rfl⟩))
          · exact .inr ((w (by rintro _ (rfl | ⟨_, _, -, rfl⟩) <;> simp) g).of_report (by rw [hf]; exact ⟨rfl, rfl, rfl, rfl, rfl⟩))
        · rw [encodeLoop_frame]
          rw [hf]; exact ⟨rfl, rfl, rfl⟩
    | cons b bs =>
      simp only
      rw [hf]; exact ⟨.inr ⟨⟨rfl, rfl, rfl, rfl, rfl⟩, by simp⟩, rfl, rfl, rfl⟩
  | decodeRead cur =>
    refine ⟨(decodeLoop_ends s.bin cur s).imp id (w (by rintro _ (⟨_, rfl⟩ | ⟨_, rfl⟩) <;> simp)), ?_⟩
    simp only; rw [decodeLoop_frame]; exact ⟨rfl, rfl, rfl⟩
  | decodeWrite cur =>
    simp only [resumeLeaf]
    split
    · exact ⟨.inr ⟨⟨rfl, rfl, rfl, rfl, rfl⟩, hb⟩, rfl, rfl, rfl⟩
    · rename_i t ht
      have hf := emitLeaf_some ht
      refine ⟨?_, ?_⟩
      · rcases decodeLoop_ends t.bin t.root t with g | g
        · exact .inl (g.of_report (by rw [hf]; exact ⟨rfl, rfl, rfl⟩))
        · exact .inr ((w (by rintro _ (⟨_, rfl⟩ | ⟨_, rfl⟩) <;> simp) g).of_report (by rw [hf]; exact ⟨rfl, rfl, rfl, rfl, rfl⟩))
      · rw [decodeLoop_frame]
        rw [hf]; exact ⟨rfl, rfl, rfl⟩

/-- A change of the host's side alone keeps the control invariant. -/
theorem State.ControlOk.of_host {s t : State} (h : s.ControlOk)
    (e : t = { s with yin := t.yin, bin := t.bin, yinLeft := t.yinLeft, binLeft := t.binLeft
                      yinBack := t.yinBack, binBack := t.binBack
                      yout := t.yout, bout := t.bout, youtReady := t.youtReady, boutReady := t.boutReady
                      responses := t.responses, host := t.host, hold := t.hold, freeCtr := t.freeCtr }) : t.ControlOk := by
  refine ⟨?_, ?_, ?_, fun hr => ?_⟩
  · rw [e]; exact h.busy
  · rw [e]; exact h.scratch
  · rw [e]; exact ⟨h.report.running, h.report.clean, h.report.code⟩
  · have hr' : s.rst = true := by rw [e] at hr; exact hr
    have := h.rst hr'
    rw [e]
    conv_rhs => rw [← this]
    rfl

/-- A write that keeps BUSY, the sequencer, PQ, the stack and a report in order, outside reset. -/
theorem State.ControlOk.of_write {s t : State} (h : s.ControlOk) (hb : t.busy = s.busy) (hq : t.seq = s.seq) (hp : t.pq = s.pq)
    (hw : t.walk = s.walk) (hr : t.rst = false) (hrep : t.ReportOk) : t.ControlOk :=
  ⟨by simp only [State.BusyOk, hb, hq]; exact h.busy, ⟨hp.trans h.scratch.1, hw.trans h.scratch.2⟩, hrep,
    fun e => by rw [hr] at e; cases e⟩

theorem resetCodec_control (s : State) (b : Bool) : ({ resetCodec s with rst := b } : State).ControlOk := by
  refine ⟨by simp [State.BusyOk, resetCodec, State.reset], ⟨rfl, rfl⟩, ⟨?_, ?_, ?_⟩, fun e => ?_⟩ <;>
    simp [resetCodec, State.reset]

theorem busRead_host (off : BitVec 7) (width : Width) (s : State) :
    busRead off width s = { s with
      yin := (busRead off width s).yin, bin := (busRead off width s).bin
      yinLeft := (busRead off width s).yinLeft, binLeft := (busRead off width s).binLeft
      yinBack := (busRead off width s).yinBack, binBack := (busRead off width s).binBack, yout := (busRead off width s).yout
      bout := (busRead off width s).bout, youtReady := (busRead off width s).youtReady, boutReady := (busRead off width s).boutReady
      responses := (busRead off width s).responses, host := (busRead off width s).host, hold := (busRead off width s).hold
      freeCtr := (busRead off width s).freeCtr } := by
  unfold busRead readReg
  split
  · rfl
  · split
    · split <;> rfl
    · rfl

/-- A host's bus write keeps the control invariant. -/
theorem busWrite_control {s : State} (h : s.ControlOk) (off : BitVec 7) (width : Width) (v : Word) :
    (busWrite off width v s).ControlOk := by
  unfold busWrite
  rcases hr : s.rst with _ | _
  · simp only [Bool.false_eq_true, if_false]
    cases accessed off width with
    | none => exact h.of_host rfl
    | some r =>
      have hrep := h.report
      cases r <;> try exact h
      · -- CMD
        show (writeCmd v s).ControlOk
        unfold writeCmd
        split
        · exact h.of_write rfl rfl rfl rfl hr ⟨hrep.running, hrep.clean, hrep.code⟩
        · refine ⟨by simp [State.BusyOk], h.scratch, ⟨fun _ => ⟨rfl, rfl⟩, fun _ => ⟨rfl, rfl⟩, by simp⟩, fun e => ?_⟩
          have : s.rst = true := e
          rw [hr] at this; cases this
      · -- STATUS
        refine h.of_write rfl rfl rfl rfl hr ⟨fun e => ?_, fun e => ?_, ?_⟩
        · have := hrep.running e
          simp [writeReg, writeStatus, this]
        · show (if v.getLsbD 2 then 0#4 else s.errCode) = 0#4 ∧ (if v.getLsbD 2 then 0#32 else s.errInfo) = 0#32
          have e' : (s.err && !v.getLsbD 2) = false := e
          rcases hv : v.getLsbD 2 with _ | _
          · have := hrep.clean (by rw [hv] at e'; simpa using e')
            simpa using this
          · simp
        · show (if v.getLsbD 2 then 0#4 else s.errCode).toNat ≤ 8 ∧ (if v.getLsbD 2 then 0#4 else s.errCode) ≠ 6#4
          split
          · decide
          · exact hrep.code
      all_goals exact h.of_write rfl rfl rfl rfl hr ⟨hrep.running, hrep.clean, hrep.code⟩
  · simp only [if_true]; exact h

theorem hostMove_control {s : State} (h : s.ControlOk) (m : HostMove) : (hostMove m s).ControlOk := by
  have hread : ∀ off width, (busRead off width s).ControlOk := fun off width => h.of_host (busRead_host off width s)
  cases m with
  | write off width v => exact busWrite_control h off width v
  | read off width => exact hread off width
  | offerYin t => exact h.of_host rfl
  | offerBin t => exact h.of_host rfl
  | acceptYout a => exact h.of_host rfl
  | acceptBout a => exact h.of_host rfl
  | drainYin =>
    show (drainYin s).ControlOk
    unfold drainYin
    split
    · exact h
    · exact h.of_host rfl
  | drainBin =>
    show (drainBin s).ControlOk
    unfold drainBin
    split
    · exact h
    · exact h.of_host rfl
  | assertRst => exact (resetCodec_control s true).of_host rfl
  | releaseRst =>
    show (releaseRst s).ControlOk
    unfold releaseRst
    split
    · exact resetCodec_control s false
    · exact h
  | wait =>
    show (waitPoll s).ControlOk
    unfold waitPoll
    split
    · exact (hread _ _).of_host rfl
    · exact hread _ _
  | endIfErr k =>
    show (endIfErr k s).ControlOk
    unfold endIfErr
    split
    · exact (hread _ _).of_host rfl
    · exact hread _ _
  | hold n => exact h.of_host rfl

/-- An idle sequencer does nothing. -/
theorem resume_idle {s : State} (h : s.seq = .idle) : resume s = s := by
  unfold resume; rw [h]

theorem pendingWord_some {s : State} {w : Word} (h : pendingWord s = some w) : s.seq = .accepted w := by
  unfold pendingWord at h
  split at h <;> cases h
  assumption

/-- The codec's own part of a step keeps the control invariant. -/
theorem progress_control {s t : State} (h : s.ControlOk) (e : progress s = .next t) : t.ControlOk := by
  unfold progress at e
  split at e
  · cases e; exact h
  · rcases hp : pendingWord s with _ | w
    · rw [hp] at e
      simp only [Host.Outcome.next.injEq] at e
      subst e
      by_cases hi : s.seq = .idle
      · rw [resume_idle hi]; exact h
      · obtain ⟨h1, h2, h3, h4⟩ := resume_ends s hi hp
        exact controlOk_of_run h (h.busy.mpr hi) h1 (h2.trans h.scratch.1) (h3.trans h.scratch.2) h4
    · rw [hp] at e
      have hw := pendingWord_some hp
      have hb : s.busy = true := h.busy.mpr (by rw [hw]; simp)
      simp only [runWord] at e
      split at e
      · rename_i i _
        have hs := exec_scratch e h.scratch
        exact controlOk_of_run h hb (exec_ends e) hs.1 hs.2 (exec_untouched e).2.2.2.2.2.1
      · cases e
        exact controlOk_of_run h hb (.inl (ended_raise (by decide) _ _)) h.scratch.1 h.scratch.2 rfl

/-! ### Tree, code table and place -/

/-- The three invariants over the tables and the running command. -/
structure TablesOk (s : State) : Prop where
  tree : s.TreeOk
  code : s.CodeOk
  run : s.RunOk

theorem TablesOk.congr {s t : State} (h : TablesOk s) (hn : t.node = s.node) (hc : t.nodeCnt = s.nodeCnt) (hr : t.root = s.root)
    (hf : t.ft = s.ft) (hv : t.treeValid = s.treeValid) (hct : t.ct = s.ct) (hcr : t.ctReady = s.ctReady)
    (hq : t.seq = s.seq) : TablesOk t :=
  ⟨h.tree.congr hn hc hr hf hv, h.code.congr hn hc hr hf hv hct hcr, by
    have := SeqOk.congr h.run hn hc hr hf hv hcr
    unfold State.RunOk; rw [hq]; exact this⟩

/-- The tables of an idle codec are in order whatever the report. -/
theorem TablesOk.ended {s t : State} (h : s.TreeOk ∧ s.CodeOk) (hn : t.node = s.node) (hc : t.nodeCnt = s.nodeCnt) (hr : t.root = s.root)
    (hf : t.ft = s.ft) (hv : t.treeValid = s.treeValid) (hct : t.ct = s.ct) (hcr : t.ctReady = s.ctReady)
    (hq : SeqOk t t.seq) : TablesOk t :=
  ⟨h.1.congr hn hc hr hf hv, h.2.congr hn hc hr hf hv hct hcr, hq⟩

theorem runOk_idle {s : State} (h : s.seq = .idle) : s.RunOk := by unfold State.RunOk; rw [h]; trivial

/-- Without a tree and a code table, whatever FT. -/
theorem TablesOk.empty {t : State} (hv : t.treeValid = false) (hc : t.nodeCnt = 0) (hr : t.root = 0) (hcr : t.ctReady = false)
    (hct : t.ct = Vector.replicate 257 none) (hq : SeqOk t t.seq) : TablesOk t :=
  ⟨treeOk_of_invalid hv hc hr, codeOk_of_empty hcr fun k => by rw [hct]; exact emptyTable_getElem k, hq⟩

theorem freqLoop_tables {s : State} (hv : s.treeValid = false) (hc : s.nodeCnt = 0) (hr : s.root = 0) (hcr : s.ctReady = false)
    (hct : s.ct = Vector.replicate 257 none) (hf : s.ft[eofKey] = none) (ts : List YTok) : TablesOk (freqLoop ts s) := by
  have e := freqLoop_frame ts s
  have e1 : (freqLoop ts s).treeValid = false := by rw [e]; exact hv
  have e2 : (freqLoop ts s).ctReady = false := by rw [e]; exact hcr
  refine .empty e1 (by rw [e]; exact hc) (by rw [e]; exact hr) e2 (by rw [e]; exact hct) ?_
  rcases freqLoop_ends ts s with g | g
  · rw [g.idle.2.2]; trivial
  · have hq := g.place
    rw [hq]
    exact ⟨e1, e2, (freqLoop_eof ts s (by rw [hq]; simp)).trans hf⟩

theorem hdrLoop_tables {s : State} (hv : s.treeValid = false) (hc : s.nodeCnt = 0) (hr : s.root = 0) (hcr : s.ctReady = false)
    (hct : s.ct = Vector.replicate 257 none) {place : HdrPos} (hp : PlaceOk s place) (ts : List YTok) (pos : Nat) :
    TablesOk (hdrLoop ts pos place s) := by
  have e := hdrLoop_frame ts pos place s
  have e1 : (hdrLoop ts pos place s).treeValid = false := by rw [e]; exact hv
  have e2 : (hdrLoop ts pos place s).ctReady = false := by rw [e]; exact hcr
  refine .empty e1 (by rw [e]; exact hc) (by rw [e]; exact hr) e2 (by rw [e]; exact hct) ?_
  rcases hdrLoop_ends ts pos place s with g | g
  · rw [g.idle.2.2]; trivial
  · obtain ⟨p, pl, hq⟩ := g.place
    rw [hq]
    exact ⟨e1, e2, hdrLoop_place hp hq⟩

theorem putLoop_tables {s : State} (h : s.TreeOk ∧ s.CodeOk) {cs : List Byte} (hcs : ∃ sent, headerText s.ft = sent ++ cs) :
    TablesOk (putLoop cs s) := by
  have e := putLoop_frame cs s
  have hft : (putLoop cs s).ft = s.ft := by rw [e]
  refine .ended h (by rw [e]) (by rw [e]) (by rw [e]) hft (by rw [e]) (by rw [e]) (by rw [e]) ?_
  rcases putLoop_ends cs s with g | g
  · rw [g.idle.2.2]; trivial
  · obtain ⟨sent, rest, h1, h2, hq⟩ := g.place
    obtain ⟨before, hb⟩ := hcs
    rw [hq]
    exact ⟨h1, before ++ sent, by rw [hft, hb, h2, List.append_assoc]⟩

theorem encodeLoop_tables {s : State} (h : s.TreeOk ∧ s.CodeOk) (ts : List YTok) : TablesOk (encodeLoop ts s) := by
  have e := encodeLoop_frame ts s
  refine .ended h (by rw [e]) (by rw [e]) (by rw [e]) (by rw [e]) (by rw [e]) (by rw [e]) (by rw [e]) ?_
  rcases encodeLoop_ends ts s with g | g
  · rw [g.idle.2.2]; trivial
  · rcases g.place with hq | ⟨rest, last, h1, hq⟩ <;> rw [hq]
    · trivial
    · exact h1

theorem TreeShape.child_lt {s : State} (h : TreeShape s) :
    ∀ n : NodeIdx, n.val < s.nodeCnt.val → isLeaf s n = false → ∀ b, (child s n b).val < s.nodeCnt.val := by
  intro n hn hl b
  have := h.children n hn hl
  simp only [Fin.lt_def] at this
  cases b <;> omega

theorem decodeLoop_tables {s : State} (h : s.TreeOk ∧ s.CodeOk) (hv : s.treeValid = true) (hrl : isLeaf s s.root = false)
    {cur : NodeIdx} (hc : cur.val < s.nodeCnt.val) (hcl : isLeaf s cur = false) (ts : List BTok) :
    TablesOk (decodeLoop ts cur s) := by
  have hT := h.1.valid hv
  have hcnt := hT.count
  have hpl := decodeLoop_place (ts := ts) hT.child_lt (by omega) hrl hc hcl
  have e := decodeLoop_frame ts cur s
  have e1 : (decodeLoop ts cur s).treeValid = true := by rw [e]; exact hv
  have e2 : (decodeLoop ts cur s).node = s.node := by rw [e]
  have e3 : (decodeLoop ts cur s).root = s.root := by rw [e]
  have e4 : (decodeLoop ts cur s).nodeCnt = s.nodeCnt := by rw [e]
  refine .ended h e2 e4 e3 (by rw [e]) (by rw [e]) (by rw [e]) (by rw [e]) ?_
  have hN : ∀ n, nodeAt (decodeLoop ts cur s) n = nodeAt s n := fun n => by rw [nodeAt, nodeAt, e2]
  have hL : ∀ n, isLeaf (decodeLoop ts cur s) n = isLeaf s n := fun n => by rw [isLeaf, isLeaf, hN]
  rcases decodeLoop_ends ts cur s with g | g
  · rw [g.idle.2.2]; trivial
  · rcases g.place with ⟨c, hq⟩ | ⟨c, hq⟩ <;> rw [hq] <;> simp only [SeqOk, hL, hN, e3, e4]
    · exact ⟨e1, hrl, hpl.1 c hq⟩
    · exact ⟨e1, hrl, hpl.2 c hq⟩

/-- A command leaves the tables, and its own place, in order. -/
theorem exec_tables {i : Instr} {s t : State} (h : s.TreeOk ∧ s.CodeOk) (e : exec i s = .next t) : TablesOk t := by
  cases i with
  | nop => cases e; exact .ended h rfl rfl rfl rfl rfl rfl rfl trivial
  | clear => cases e; exact .empty rfl rfl rfl rfl rfl trivial
  | freqCount => cases e; exact freqLoop_tables rfl rfl rfl rfl rfl (emptyTable_getElem _) _
  | hdrWrite => cases e; exact putLoop_tables h ⟨[], rfl⟩
  | hdrRead => cases e; exact hdrLoop_tables (place := .brace) rfl rfl rfl rfl rfl trivial _ _
  | buildTree =>
    by_cases hk : keys s.ft = []
    · cases e.symm.trans (execBuildTree_empty s hk)
      exact .empty rfl rfl rfl rfl rfl trivial
    · obtain ⟨v, r, hF, hr, hcnt, hleaf, hstale, hv, he⟩ := execBuildTree_eq s hk
      cases e.symm.trans he
      have hft : v.ft = s.ft := by rw [hv]; rfl
      refine ⟨⟨fun _ => ?_, fun e => (by cases e)⟩, codeOk_of_empty ?_ fun k => ?_, trivial⟩
      · refine Forest.treeShape (v := v) (r := r) (T := countSum s.ft) ?_ hr rfl rfl rfl ?_
        · show Forest (keys v.ft).length _ v
          rw [hft]; exact hF
        · intro n k hk
          have : (keys s.ft)[n.val]? = some k := by rw [← hft]; exact hk
          rw [hleaf n k this]; rfl
      · show v.ctReady = false
        rw [hv]; rfl
      · show v.ct[k] = none
        rw [hv]; exact emptyTable_getElem k
  | genCodes =>
    rcases hv : s.treeValid with _ | _
    · have : execGenCodes s = .next (raise .invalidTree Config.noTreeInfo s) := by
        rw [execGenCodes, if_neg (by rw [hv]; simp)]
      cases e.symm.trans this
      exact .ended h rfl rfl rfl rfl rfl rfl rfl trivial
    · obtain ⟨ct, h1, h2, h3⟩ := execGenCodes_eq hv (h.1.valid hv)
      cases e.symm.trans h1
      refine ⟨h.1.congr rfl rfl rfl rfl rfl, ⟨fun _ => hv, fun _ => h2, fun _ k c hc => ?_, fun e => (by cases e)⟩, trivial⟩
      exact ⟨(h3 k c hc).1, (h3 k c hc).2.congr rfl rfl rfl⟩
  | encode => cases e; exact encodeLoop_tables h _
  | decode =>
    rcases execDecode_cases s with ⟨n, h1⟩ | h1 | ⟨hv, hl, h1⟩ <;> cases e.symm.trans h1
    · exact .ended h rfl rfl rfl rfl rfl rfl rfl trivial
    · exact .ended h rfl rfl rfl rfl rfl rfl rfl trivial
    · have := (h.1.valid hv).count
      exact decodeLoop_tables h hv hl (by omega) hl _

/-- A running command that goes on leaves the tables, and its own place, in order. -/
theorem resume_tables {s : State} (h : TablesOk s) : TablesOk (resume s) := by
  have hr := h.run
  have ht : s.TreeOk ∧ s.CodeOk := ⟨h.tree, h.code⟩
  unfold State.RunOk at hr
  unfold resume
  cases hq : s.seq with
  | idle => exact h
  | accepted w => exact h
  | freqCount =>
    rw [hq] at hr
    obtain ⟨h1, h2, h3⟩ := hr
    exact freqLoop_tables h1 (h.tree.invalid h1).1 (h.tree.invalid h1).2 h2
      (table_ext fun k => by rw [emptyTable_getElem]; exact h.code.empty h2 k) h3 _
  | hdrWrite rest =>
    rw [hq] at hr
    exact putLoop_tables ht hr.2
  | hdrRead pos place =>
    rw [hq] at hr
    obtain ⟨h1, h2, h3⟩ := hr
    exact hdrLoop_tables h1 (h.tree.invalid h1).1 (h.tree.invalid h1).2 h2
      (table_ext fun k => by rw [emptyTable_getElem]; exact h.code.empty h2 k) h3 _ _
  | encodeRead => exact encodeLoop_tables ht _
  | encodeEmit rest last =>
    simp only [resumeEmit]
    rcases e : emitBits rest s with ⟨left, t⟩
    have hf := emitBits_frame e
    have ht' : t.TreeOk ∧ t.CodeOk := by
      rw [hf]; exact ⟨h.tree.congr rfl rfl rfl rfl rfl, h.code.congr rfl rfl rfl rfl rfl rfl rfl⟩
    cases left with
    | nil =>
      simp only
      split
      · exact .ended ht' rfl rfl rfl rfl rfl rfl rfl trivial
      · exact encodeLoop_tables ht' _
    | cons b bs => exact .ended ht' rfl rfl rfl rfl rfl rfl rfl (List.cons_ne_nil b bs)
  | decodeRead cur =>
    rw [hq] at hr
    obtain ⟨h1, h2, h3, h4⟩ := hr
    exact decodeLoop_tables ht h1 h2 h3 h4 _
  | decodeWrite cur =>
    rw [hq] at hr
    obtain ⟨h1, h2, h3, h4, h5⟩ := hr
    simp only [resumeLeaf]
    split
    · exact h
    · rename_i t e
      have hf := emitLeaf_some e
      have ht' : t.TreeOk ∧ t.CodeOk := by
        rw [hf]; exact ⟨h.tree.congr rfl rfl rfl rfl rfl, h.code.congr rfl rfl rfl rfl rfl rfl rfl⟩
      have hc := (h.tree.valid h1).count
      have a1 : t.treeValid = true := by rw [hf]; exact h1
      have a2 : isLeaf t t.root = false := by rw [hf]; exact h2
      have a3 : t.root.val < t.nodeCnt.val := by rw [hf]; show s.root.val < s.nodeCnt.val; omega
      exact decodeLoop_tables ht' a1 a2 a3 a2 _

theorem progress_tables {s t : State} (h : TablesOk s) (e : progress s = .next t) : TablesOk t := by
  unfold progress at e
  split at e
  · cases e; exact h
  · split at e
    · unfold runWord at e
      split at e
      · exact exec_tables ⟨h.tree, h.code⟩ e
      · cases e; exact .ended ⟨h.tree, h.code⟩ rfl rfl rfl rfl rfl rfl rfl trivial
    · cases e; exact resume_tables h

theorem hostMove_tables {s : State} (h : TablesOk s) (m : HostMove) : TablesOk (hostMove m s) := by
  have hread : ∀ off width, TablesOk (busRead off width s) := fun off width => by
    rw [busRead_host off width s]; exact h.congr rfl rfl rfl rfl rfl rfl rfl rfl
  have hreset : ∀ b, TablesOk ({ resetCodec s with rst := b } : State) := fun b => .empty rfl rfl rfl rfl rfl trivial
  cases m with
  | write off width v =>
    show TablesOk (busWrite off width v s)
    unfold busWrite
    split
    · exact h
    · split
      · rename_i r _
        cases r <;> try first | exact h | exact h.congr rfl rfl rfl rfl rfl rfl rfl rfl
        · show TablesOk (writeCmd v s)
          unfold writeCmd
          split
          · exact h.congr rfl rfl rfl rfl rfl rfl rfl rfl
          · exact .ended ⟨h.tree, h.code⟩ rfl rfl rfl rfl rfl rfl rfl trivial
      · exact h.congr rfl rfl rfl rfl rfl rfl rfl rfl
  | read off width => exact hread off width
  | drainYin =>
    show TablesOk (drainYin s)
    unfold drainYin
    split
    · exact h
    · exact h.congr rfl rfl rfl rfl rfl rfl rfl rfl
  | drainBin =>
    show TablesOk (drainBin s)
    unfold drainBin
    split
    · exact h
    · exact h.congr rfl rfl rfl rfl rfl rfl rfl rfl
  | assertRst => exact (hreset true).congr rfl rfl rfl rfl rfl rfl rfl rfl
  | releaseRst =>
    show TablesOk (releaseRst s)
    unfold releaseRst
    split
    · exact hreset false
    · exact h
  | wait =>
    show TablesOk (waitPoll s)
    unfold waitPoll
    split
    · exact (hread _ _).congr rfl rfl rfl rfl rfl rfl rfl rfl
    · exact hread _ _
  | endIfErr k =>
    show TablesOk (endIfErr k s)
    unfold endIfErr
    split
    · exact (hread _ _).congr rfl rfl rfl rfl rfl rfl rfl rfl
    · exact hread _ _
  | _ => exact h.congr rfl rfl rfl rfl rfl rfl rfl rfl

/-- A command runs to its end or to a wait wherever a valid tree is a tree. -/
theorem exec_goes {i : Instr} {s : State} (h : s.TreeOk) : ∃ t, exec i s = .next t := by
  cases i with
  | nop => exact ⟨_, rfl⟩
  | clear => exact ⟨_, rfl⟩
  | freqCount => exact ⟨_, rfl⟩
  | hdrWrite => exact ⟨_, rfl⟩
  | hdrRead => exact ⟨_, rfl⟩
  | buildTree =>
    rcases execBuildTree_cases s with ⟨h1, -⟩ | ⟨u, h1, -, -⟩
    · exact ⟨_, h1⟩
    · exact ⟨_, h1⟩
  | genCodes =>
    rcases hv : s.treeValid with _ | _
    · exact ⟨raise .invalidTree Config.noTreeInfo s, by show execGenCodes s = _; rw [execGenCodes, if_neg (by rw [hv]; simp)]⟩
    · obtain ⟨ct, h1, -⟩ := execGenCodes_eq hv (h.valid hv)
      exact ⟨_, h1⟩
  | encode => exact ⟨_, rfl⟩
  | decode =>
    rcases execDecode_cases s with ⟨n, h1⟩ | h1 | ⟨-, -, h1⟩ <;> exact ⟨_, h1⟩

theorem progress_goes {s : State} (h : s.TreeOk) : ∃ t, progress s = .next t := by
  unfold progress
  split
  · exact ⟨_, rfl⟩
  · split
    · unfold runWord
      split
      · exact exec_goes h
      · exact ⟨_, rfl⟩
    · exact ⟨_, rfl⟩

/-! ### The input ports -/

theorem State.PortsOk.congr {s t : State} (h : s.PortsOk) (hq : t.seq = s.seq) (hy : t.yin = s.yin) (hb : t.bin = s.bin)
    (hyl : t.yinLeft = s.yinLeft) (hbl : t.binLeft = s.binLeft) : t.PortsOk :=
  ⟨by rw [hq, hy, hyl]; exact h.yin, by rw [hq, hb, hbl]; exact h.bin⟩

/-- FREQ_COUNT waits at YIN, or ends with the leftovers of YIN among its tokens. -/
theorem freqLoop_leftovers (ts : List YTok) (s : State) :
    readsYin (freqLoop ts s).seq = false → (freqLoop ts s).yinLeft ≤ (freqLoop ts s).yin.length := by
  induction ts generalizing s with
  | nil => exact fun h => by cases h
  | cons t ts ih =>
    cases t with
    | endTok => exact fun _ => Nat.zero_le _
    | byte v =>
      rw [freqLoop]
      split
      · exact fun _ => Nat.le_refl _
      · exact ih _

/-- HDR_READ waits at YIN, or ends with the leftovers of YIN among its tokens. -/
theorem hdrLoop_leftovers (ts : List YTok) (pos : Nat) (place : HdrPos) (s : State) :
    readsYin (hdrLoop ts pos place s).seq = false → (hdrLoop ts pos place s).yinLeft ≤ (hdrLoop ts pos place s).yin.length := by
  induction ts generalizing pos place s with
  | nil => exact fun h => by cases h
  | cons t ts ih =>
    rw [hdrLoop]
    split
    · exact ih _ _ _
    · exact ih _ _ _
    · exact fun _ => Nat.le_refl _
    · exact fun _ => Nat.le_refl _
    · unfold failHeader
      split <;> exact fun _ => Nat.le_refl _

/-- ENCODE waits, or ends with the leftovers of YIN among its tokens. -/
theorem encodeLoop_leftovers (ts : List YTok) (s : State) :
    readsYin (encodeLoop ts s).seq = false → (encodeLoop ts s).yinLeft ≤ (encodeLoop ts s).yin.length := by
  induction ts generalizing s with
  | nil => exact fun h => by cases h
  | cons t ts ih =>
    cases t with
    | endTok =>
      rw [encodeLoop]
      split
      · exact fun _ => Nat.le_refl _
      · split
        · rename_i e
          rw [emitBits_frame e]
          exact fun _ => Nat.zero_le _
        · rename_i e
          rw [emitBits_frame e]
          exact fun _ => Nat.zero_le _
    | byte v =>
      rw [encodeLoop]
      split
      · exact fun _ => Nat.le_refl _
      · split
        · exact ih _
        · exact fun h => by cases h

/-- DECODE waits, or ends with the leftovers of BIN among its tokens. -/
theorem decodeLoop_leftovers (ts : List BTok) (cur : NodeIdx) (s : State) :
    readsBin (decodeLoop ts cur s).seq = false → (decodeLoop ts cur s).binLeft ≤ (decodeLoop ts cur s).bin.length := by
  induction ts generalizing cur s with
  | nil => exact fun h => by cases h
  | cons t ts ih =>
    cases t with
    | endTok => exact fun _ => Nat.le_refl _
    | bit b =>
      rw [decodeLoop]
      split
      · split
        · exact fun _ => Nat.le_refl _
        · split
          · exact fun _ => Nat.le_refl _
          · split
            · exact fun h => by cases h
            · exact ih _ _
      · exact ih _ _

/-- A command ends, or waits, with the leftovers of the ports it is not reading among their tokens. -/
theorem exec_ports {i : Instr} {s t : State} (hy : s.yinLeft ≤ s.yin.length) (hb : s.binLeft ≤ s.bin.length)
    (e : exec i s = .next t) : t.PortsOk := by
  cases i with
  | nop => cases e; exact ⟨fun _ => hy, fun _ => hb⟩
  | clear => cases e; exact ⟨fun _ => hy, fun _ => hb⟩
  | freqCount => cases e; exact ⟨freqLoop_leftovers _ _, fun _ => by rw [freqLoop_frame]; exact hb⟩
  | hdrWrite => cases e; exact ⟨fun _ => by rw [putLoop_frame]; exact hy, fun _ => by rw [putLoop_frame]; exact hb⟩
  | hdrRead => cases e; exact ⟨hdrLoop_leftovers _ _ _ _, fun _ => by rw [hdrLoop_frame]; exact hb⟩
  | buildTree =>
    rcases execBuildTree_cases s with ⟨h1, -⟩ | ⟨u, h1, -, hu⟩ <;> cases e.symm.trans h1
    · exact ⟨fun _ => hy, fun _ => hb⟩
    · rw [hu]; exact ⟨fun _ => hy, fun _ => hb⟩
  | genCodes =>
    rcases execGenCodes_cases e with ⟨-, rfl⟩ | ⟨-, ht⟩
    · exact ⟨fun _ => hy, fun _ => hb⟩
    · rw [ht]; exact ⟨fun _ => hy, fun _ => hb⟩
  | encode => cases e; exact ⟨encodeLoop_leftovers _ _, fun _ => by rw [encodeLoop_frame]; exact hb⟩
  | decode =>
    rcases execDecode_cases s with ⟨n, h1⟩ | h1 | ⟨-, -, h1⟩ <;> cases e.symm.trans h1
    · exact ⟨fun _ => hy, fun _ => Nat.le_refl _⟩
    · exact ⟨fun _ => hy, fun _ => Nat.le_refl _⟩
    · exact ⟨fun _ => by rw [decodeLoop_frame]; exact hy, decodeLoop_leftovers _ _ _⟩

/-- A running command that goes on keeps it so. -/
theorem resume_ports {s : State} (h : s.PortsOk) : (resume s).PortsOk := by
  obtain ⟨hy, hb⟩ := h
  unfold resume
  cases hq : s.seq <;> rw [hq] at hy hb <;> simp only
  case idle => exact ⟨fun _ => hy rfl, fun _ => hb rfl⟩
  case accepted => exact ⟨fun _ => hy rfl, fun _ => hb rfl⟩
  case freqCount => exact ⟨freqLoop_leftovers _ _, fun _ => by rw [freqLoop_frame]; exact hb rfl⟩
  case hdrWrite rest =>
    exact ⟨fun _ => by rw [putLoop_frame]; exact hy rfl, fun _ => by rw [putLoop_frame]; exact hb rfl⟩
  case hdrRead pos place => exact ⟨hdrLoop_leftovers _ _ _ _, fun _ => by rw [hdrLoop_frame]; exact hb rfl⟩
  case encodeRead => exact ⟨encodeLoop_leftovers _ _, fun _ => by rw [encodeLoop_frame]; exact hb rfl⟩
  case encodeEmit rest last =>
    simp only [resumeEmit]
    rcases e : emitBits rest s with ⟨left, t⟩
    have hf := emitBits_frame e
    cases left with
    | nil =>
      simp only
      split
      · rename_i hl
        rw [hf]; exact ⟨fun _ => hy (by rw [hl]; rfl), fun _ => hb rfl⟩
      · exact ⟨encodeLoop_leftovers _ _, fun _ => by rw [encodeLoop_frame, hf]; exact hb rfl⟩
    | cons b bs => rw [hf]; exact ⟨hy, fun _ => hb rfl⟩
  case decodeRead cur => exact ⟨fun _ => by rw [decodeLoop_frame]; exact hy rfl, decodeLoop_leftovers _ _ _⟩
  case decodeWrite cur =>
    simp only [resumeLeaf]
    split
    · rw [← hq] at hy hb; exact ⟨hy, hb⟩
    · rename_i t e
      exact ⟨fun _ => by rw [decodeLoop_frame, emitLeaf_some e]; exact hy rfl, decodeLoop_leftovers _ _ _⟩

/-- The codec's own part of a step keeps it so. -/
theorem progress_ports {s t : State} (h : s.PortsOk) (e : progress s = .next t) : t.PortsOk := by
  unfold progress at e
  split at e
  · cases e; exact h
  · split at e
    · rename_i w hw
      have hq := pendingWord_some hw
      have hy : s.yinLeft ≤ s.yin.length := h.yin (by rw [hq]; rfl)
      have hb : s.binLeft ≤ s.bin.length := h.bin (by rw [hq]; rfl)
      unfold runWord at e
      split at e
      · exact exec_ports hy hb e
      · cases e; exact ⟨fun _ => hy, fun _ => hb⟩
    · cases e; exact resume_ports h

/-- Draining YIN takes leftovers: what the host has offered since stays offered (rules R242, R247). -/
theorem drainYin_offered {s : State} (h : s.yinLeft ≤ s.yin.length) (fresh : List YTok) :
    ∃ kept, (drainYin { s with yin := s.yin ++ fresh }).yin = kept ++ fresh := by
  unfold drainYin
  split
  · exact ⟨s.yin, rfl⟩
  · exact ⟨s.yin.drop s.yinLeft, List.drop_append_of_le_length h⟩

/-- Draining BIN takes leftovers: what the host has offered since stays offered (rules R242, R247). -/
theorem drainBin_offered {s : State} (h : s.binLeft ≤ s.bin.length) (fresh : List BTok) :
    ∃ kept, (drainBin { s with bin := s.bin ++ fresh }).bin = kept ++ fresh := by
  unfold drainBin
  split
  · exact ⟨s.bin, rfl⟩
  · exact ⟨s.bin.drop s.binLeft, List.drop_append_of_le_length h⟩

theorem State.PortsOk.leftYin_le {s : State} (h : s.PortsOk) : leftYin s ≤ s.yin.length := by
  unfold leftYin
  split
  · exact Nat.zero_le _
  · rename_i hq
    exact h.yin (by simpa using hq)

theorem State.PortsOk.leftBin_le {s : State} (h : s.PortsOk) : leftBin s ≤ s.bin.length := by
  unfold leftBin
  split
  · exact Nat.zero_le _
  · rename_i hq
    exact h.bin (by simpa using hq)

/-- Asserting RST takes leftovers: what the host has offered since stays offered, whatever ran (rules R242, R247). -/
theorem assertRst_offered {s : State} (h : s.PortsOk) (y : List YTok) (b : List BTok) :
    (assertRst { s with yin := s.yin ++ y, bin := s.bin ++ b }).yin = s.yin.drop (leftYin s) ++ y ∧
    (assertRst { s with yin := s.yin ++ y, bin := s.bin ++ b }).bin = s.bin.drop (leftBin s) ++ b :=
  ⟨List.drop_append_of_le_length h.leftYin_le, List.drop_append_of_le_length h.leftBin_le⟩

/-- Each of the host's moves keeps the leftovers of a port no command is reading among its tokens. -/
theorem hostMove_ports {s : State} (hc : s.ControlOk) (h : s.PortsOk) (m : HostMove) : (hostMove m s).PortsOk := by
  have hread : ∀ off width, (busRead off width s).PortsOk := fun off width => by
    unfold busRead readReg
    repeat' split
    all_goals exact h.congr rfl rfl rfl rfl rfl
  cases m with
  | write off width v =>
    show (busWrite off width v s).PortsOk
    unfold busWrite
    split
    · exact h
    · split
      · rename_i r _
        cases r <;> try first | exact h | exact h.congr rfl rfl rfl rfl rfl
        · show (writeCmd v s).PortsOk
          unfold writeCmd
          split
          · exact h.congr rfl rfl rfl rfl rfl
          · rename_i hb
            have hq : s.seq = .idle := by
              by_contra hq
              exact hb (hc.busy.mpr hq)
            exact ⟨fun _ => h.yin (by rw [hq]; rfl), fun _ => h.bin (by rw [hq]; rfl)⟩
      · exact h.congr rfl rfl rfl rfl rfl
  | read off width => exact hread off width
  | offerYin t =>
    refine ⟨fun hq => (h.yin hq).trans ?_, h.bin⟩
    show _ ≤ (s.yin ++ [t]).length
    simp
  | offerBin t =>
    refine ⟨h.yin, fun hq => (h.bin hq).trans ?_⟩
    show _ ≤ (s.bin ++ [t]).length
    simp
  | drainYin =>
    show (drainYin s).PortsOk
    unfold drainYin
    split
    · exact h
    · exact ⟨fun _ => Nat.zero_le _, h.bin⟩
  | drainBin =>
    show (drainBin s).PortsOk
    unfold drainBin
    split
    · exact h
    · exact ⟨h.yin, fun _ => Nat.zero_le _⟩
  | assertRst => exact ⟨fun _ => Nat.zero_le _, fun _ => Nat.zero_le _⟩
  | releaseRst =>
    show (releaseRst s).PortsOk
    unfold releaseRst
    split
    · rename_i hr
      have hq : s.seq = .idle := by rw [← hc.rst hr]; rfl
      exact ⟨fun _ => h.yin (by rw [hq]; rfl), fun _ => h.bin (by rw [hq]; rfl)⟩
    · exact h
  | wait =>
    show (waitPoll s).PortsOk
    unfold waitPoll
    split
    · exact (hread _ _).congr rfl rfl rfl rfl rfl
    · exact hread _ _
  | endIfErr k =>
    show (endIfErr k s).PortsOk
    unfold endIfErr
    split
    · exact (hread _ _).congr rfl rfl rfl rfl rfl
    · exact hread _ _
  | _ => exact h.congr rfl rfl rfl rfl rfl

end Sys2Proof.Machine
end

