-- ==== Sys2Proof/Laws/PerInstr.lean ====
section
/-! SUPPORT. A statement made of every command as syntax, one lemma per constructor: its encoding (rules R80 to R84). -/

namespace Sys2Proof.Laws.Encoding

open Sys2Proof

/-- A command is well formed, its word has RSVD = 0 and a defined OP, and the word decodes to it. -/
def Statement (i : Instr) : Prop :=
  i.wellFormed = true ∧ (cmdFields (encode i)).wellFormed = true ∧ decode (encode i) = .command i

theorem nop : Statement .nop := by unfold Statement; decide

theorem clear : Statement .clear := by unfold Statement; decide

theorem freqCount : Statement .freqCount := by unfold Statement; decide

theorem hdrWrite : Statement .hdrWrite := by unfold Statement; decide

theorem hdrRead : Statement .hdrRead := by unfold Statement; decide

theorem buildTree : Statement .buildTree := by unfold Statement; decide

theorem genCodes : Statement .genCodes := by unfold Statement; decide

theorem encode : Statement .encode := by unfold Statement; decide

theorem decode : Statement .decode := by unfold Statement; decide

end Sys2Proof.Laws.Encoding
end

