-- ==== Sys2Proof/Laws/Resume.lean ====
section
/-! SUPPORT. A command that waits at a port and goes on later, with more tokens or more acceptance, is the command that had them from
the start (rules R15, R64 to R67); and the error code each loop can leave. -/

namespace Sys2Proof.Machine

open Sys2Proof

theorem bumpCount_over (v : Byte) (s : State) (y : List YTok) (b : List BTok) (q : Seq) :
    bumpCount v { s with yin := y, bin := b, seq := q } = { bumpCount v s with yin := y, bin := b, seq := q } := by
  unfold bumpCount; dsimp only; split <;> rfl

/-- FREQ_COUNT's loop reads neither YIN nor BIN of the state, nor the sequencer: its tokens are its argument. -/
theorem freqLoop_over (ts : List YTok) (s : State) (y : List YTok) (b : List BTok) (q : Seq) :
    freqLoop ts { s with yin := y, bin := b, seq := q } = { freqLoop ts s with bin := b } := by
  induction ts generalizing s y with
  | nil => rfl
  | cons t ts ih =>
    cases t with
    | endTok => rfl
    | byte v =>
      have e : countFull v { s with yin := y, bin := b, seq := q } = countFull v s := rfl
      rw [freqLoop, freqLoop, e]
      split
      · rfl
      · have := bumpCount_over v (countByte (takeYin ts s)) ts b q
        rw [← ih _ ts, ← this]; rfl

/-- A waiting FREQ_COUNT goes on with later tokens as if it had had them. -/
theorem freqLoop_later_tokens (ts more : List YTok) (bits : List BTok) (s : State) (h : (freqLoop ts s).seq ≠ .idle) :
    resume { freqLoop ts s with yin := (freqLoop ts s).yin ++ more, bin := (freqLoop ts s).bin ++ bits } =
      freqLoop (ts ++ more) { s with bin := s.bin ++ bits } := by
  induction ts generalizing s with
  | nil =>
    show freqLoop more { s with yin := more, bin := s.bin ++ bits, seq := .freqCount } = freqLoop more { s with bin := s.bin ++ bits }
    rw [freqLoop_over]
    exact (freqLoop_over more s s.yin _ s.seq).symm
  | cons t ts ih =>
    cases t with
    | endTok => exact absurd rfl h
    | byte v =>
      have e : countFull v { s with bin := s.bin ++ bits } = countFull v s := rfl
      rw [List.cons_append, freqLoop, freqLoop, e]
      rw [freqLoop] at h
      split at h
      · exact absurd rfl h
      · rename_i hf
        rw [if_neg hf, if_neg hf, ih _ h]
        have e1 : (bumpCount v (countByte (takeYin ts s))).bin = s.bin := by rw [bumpCount_eq]; rfl
        rw [e1]
        have a := freqLoop_over (ts ++ more) (bumpCount v (countByte (takeYin ts s))) (bumpCount v (countByte (takeYin ts s))).yin (s.bin ++ bits) (bumpCount v (countByte (takeYin ts s))).seq
        have b := freqLoop_over (ts ++ more) (bumpCount v (countByte (takeYin ts s))) (ts ++ more) (s.bin ++ bits) s.seq
        rw [← bumpCount_over] at b
        exact a.trans b.symm

/-- FREQ_COUNT's loop does not look at what the host accepts. -/
theorem freqLoop_acc (ts : List YTok) (s : State) (a b : Acceptance) :
    freqLoop ts { s with youtReady := a, boutReady := b } = { freqLoop ts s with youtReady := a, boutReady := b } := by
  induction ts generalizing s with
  | nil => rfl
  | cons t ts ih =>
    cases t with
    | endTok => rfl
    | byte v =>
      have e : countFull v { s with youtReady := a, boutReady := b } = countFull v s := rfl
      rw [freqLoop, freqLoop, e]
      split
      · rfl
      · rw [← ih]; congr 1
        unfold bumpCount; dsimp only [countByte, takeYin]; split <;> rfl

/-! ### HDR_READ -/
theorem countToken_over (t : YTok) (s : State) (y : List YTok) (b : List BTok) (q : Seq) :
    countToken t { s with yin := y, bin := b, seq := q } = { countToken t s with yin := y, bin := b, seq := q } := by
  cases t <;> rfl

theorem failHeader_over (p : Nat) (s : State) (b : List BTok) (q : Seq) :
    failHeader p { s with bin := b, seq := q } = { failHeader p s with bin := b } := by
  unfold failHeader; split <;> rfl

/-- HDR_READ's loop reads neither YIN nor BIN of the state, nor the sequencer. -/
theorem hdrLoop_over (ts : List YTok) (pos : Nat) (pl : HdrPos) (s : State) (y : List YTok) (b : List BTok) (q : Seq) :
    hdrLoop ts pos pl { s with yin := y, bin := b, seq := q } = { hdrLoop ts pos pl s with bin := b } := by
  induction ts generalizing s y pos pl with
  | nil => rfl
  | cons t ts ih =>
    have e : hdrToken ({ s with yin := y, bin := b, seq := q } : State).ft pl t = hdrToken s.ft pl t := rfl
    have c : countToken t (takeYin ts { s with yin := y, bin := b, seq := q }) =
      { countToken t (takeYin ts s) with yin := ts, bin := b, seq := q } := countToken_over t (takeYin ts s) ts b q
    rw [hdrLoop, hdrLoop, e, c]
    split
    · rw [← ih _ _ _ ts]
    · rw [← ih _ _ _ ts]; rfl
    · cases t <;> rfl
    · cases t <;> rfl
    · rw [← failHeader_over _ _ b q]; cases t <;> rfl

/-- A waiting HDR_READ goes on with later tokens as if it had had them. -/
theorem hdrLoop_later_tokens (ts more : List YTok) (bits : List BTok) (pos : Nat) (pl : HdrPos) (s : State) (h : (hdrLoop ts pos pl s).seq ≠ .idle) :
    resume { hdrLoop ts pos pl s with yin := (hdrLoop ts pos pl s).yin ++ more, bin := (hdrLoop ts pos pl s).bin ++ bits } =
      hdrLoop (ts ++ more) pos pl { s with bin := s.bin ++ bits } := by
  induction ts generalizing s pos pl with
  | nil =>
    show hdrLoop more pos pl { s with yin := more, bin := s.bin ++ bits, seq := .hdrRead pos pl } = hdrLoop more pos pl { s with bin := s.bin ++ bits }
    rw [hdrLoop_over]
    exact (hdrLoop_over more pos pl s s.yin _ s.seq).symm
  | cons t ts ih =>
    have e : hdrToken ({ s with bin := s.bin ++ bits } : State).ft pl t = hdrToken s.ft pl t := rfl
    rw [List.cons_append, hdrLoop, hdrLoop, e]
    rw [hdrLoop] at h
    have key : ∀ (u : State) p q, hdrLoop (ts++more) p q ({ u with yin := ts, bin := s.bin ++ bits }) = hdrLoop (ts++more) p q ({ u with yin := ts ++ more, bin := s.bin ++ bits }) :=
      fun u p q => (hdrLoop_over (ts++more) p q u ts (s.bin++bits) u.seq).trans (hdrLoop_over (ts++more) p q u (ts++more) (s.bin++bits) u.seq).symm
    split at h
    · rename_i p hp
      simp only [hp]
      rw [ih _ _ _ h]
      cases t <;> exact key _ _ _
    · rename_i k c p hp
      simp only [hp]
      rw [ih _ _ _ h]
      cases t <;> exact key (setFt k c _) _ _
    · cases t <;> exact absurd rfl h
    · cases t <;> exact absurd rfl h
    · exact absurd (by rw [failHeader_eq]; rfl) h

/-- HDR_READ's loop does not look at what the host accepts. -/
theorem hdrLoop_acc (ts : List YTok) (pos : Nat) (pl : HdrPos) (s : State) (a b : Acceptance) :
    hdrLoop ts pos pl { s with youtReady := a, boutReady := b } = { hdrLoop ts pos pl s with youtReady := a, boutReady := b } := by
  induction ts generalizing s pos pl with
  | nil => rfl
  | cons t ts ih =>
    have e : hdrToken ({ s with youtReady := a, boutReady := b } : State).ft pl t = hdrToken s.ft pl t := rfl
    rw [hdrLoop, hdrLoop, e]
    split
    · rw [← ih]; cases t <;> rfl
    · rw [← ih]; cases t <;> rfl
    · cases t <;> rfl
    · cases t <;> rfl
    · unfold failHeader; cases t <;> (split <;> rfl)

/-! ### HDR_WRITE -/
theorem writeYout_over (v : Byte) (s : State) (y : List YTok) (b : List BTok) :
    writeYout v { s with yin := y, bin := b } = (writeYout v s).map fun t => { t with yin := y, bin := b } := by
  unfold writeYout; dsimp only; cases s.youtReady.take <;> rfl

theorem putLoop_over (cs : List Byte) (s : State) (y : List YTok) (b : List BTok) :
    putLoop cs { s with yin := y, bin := b } = { putLoop cs s with yin := y, bin := b } := by
  induction cs generalizing s with
  | nil => rfl
  | cons c cs ih =>
    rw [putLoop, putLoop, writeYout_over]
    cases writeYout c s with
    | none => rfl
    | some u => exact ih (countByte u)

theorem writeYout_seq (v : Byte) (s : State) (q : Seq) :
    writeYout v { s with seq := q } = (writeYout v s).map fun t => { t with seq := q } := by
  unfold writeYout; dsimp only; cases s.youtReady.take <;> rfl

theorem putLoop_seq (cs : List Byte) (s : State) (q : Seq) : putLoop cs { s with seq := q } = putLoop cs s := by
  induction cs generalizing s with
  | nil => rfl
  | cons c cs ih =>
    rw [putLoop, putLoop, writeYout_seq]
    cases writeYout c s with
    | none => rfl
    | some u => exact ih (countByte u)

/-- A waiting HDR_WRITE stands where the host withholds acceptance. -/
theorem putLoop_waits (cs : List Byte) (s : State) (h : (putLoop cs s).seq ≠ .idle) :
    ∃ c cs', (putLoop cs s).seq = .hdrWrite (c :: cs') ∧ (putLoop cs s).youtReady = .upTo 0 := by
  induction cs generalizing s with
  | nil => exact absurd rfl h
  | cons c cs ih =>
    rw [putLoop] at h ⊢
    split at h
    · rename_i e
      refine ⟨c, cs, rfl, ?_⟩
      show s.youtReady = _
      unfold writeYout at e
      rcases hr : s.youtReady with _ | n
      · rw [hr] at e; cases e
      · rw [hr] at e; cases n with
        | zero => rfl
        | succ n => cases e
    · rename_i t e
      exact ih _ h

/-- A waiting HDR_WRITE goes on with later acceptance as if it had had it. -/
theorem putLoop_later_acceptance (cs : List Byte) (s : State) (h : (putLoop cs s).seq ≠ .idle) :
    resume { putLoop cs s with youtReady := .all, boutReady := .all } = putLoop cs { s with youtReady := .all, boutReady := .all } := by
  induction cs generalizing s with
  | nil => exact absurd rfl h
  | cons c cs ih =>
    rw [putLoop] at h
    split at h
    · rename_i e
      rw [putLoop, e]
      exact putLoop_seq (c :: cs) { s with youtReady := .all, boutReady := .all } (.hdrWrite (c :: cs))
    · rename_i t e
      have e' := writeYout_some e
      rw [putLoop, e]
      simp only
      rw [ih _ h, putLoop, writeYout_all rfl, e']
      rfl

/-! ### ENCODE -/
theorem emitBits_over (bs : Path) (s : State) (y : List YTok) (b : List BTok) (q : Seq) :
    emitBits bs { s with yin := y, bin := b, seq := q } = ((emitBits bs s).1, { (emitBits bs s).2 with yin := y, bin := b, seq := q }) := by
  induction bs generalizing s with
  | nil => rfl
  | cons c bs ih =>
    have w : writeBout c { s with yin := y, bin := b, seq := q } = (writeBout c s).map fun t => { t with yin := y, bin := b, seq := q } := by
      unfold writeBout; dsimp only; cases s.boutReady.take <;> rfl
    rw [emitBits, emitBits, w]
    cases writeBout c s with
    | none => rfl
    | some u => exact ih (countBit u)

/-- ENCODE's loop reads neither YIN nor BIN of the state, nor the sequencer. -/
theorem encodeLoop_over (ts : List YTok) (s : State) (y : List YTok) (b : List BTok) (q : Seq) :
    encodeLoop ts { s with yin := y, bin := b, seq := q } = { encodeLoop ts s with bin := b } := by
  induction ts generalizing s y with
  | nil => rfl
  | cons t ts ih =>
    cases t with
    | endTok =>
      rw [encodeLoop, encodeLoop]
      have e : ({ s with yin := y, bin := b, seq := q } : State).ct[eofKey] = s.ct[eofKey] := rfl
      rw [e]
      split
      · rfl
      · rename_i c _
        have := emitBits_over c (spendYin (takeYin ts s)) ts b q
        have e2 : emitBits c (spendYin (takeYin ts { s with yin := y, bin := b, seq := q })) = _ := this
        rw [e2]
        rcases h : emitBits c (spendYin (takeYin ts s)) with ⟨rest, u⟩
        have hf := emitBits_frame h
        cases rest <;> (simp only; rw [hf]; rfl)
    | byte v =>
      rw [encodeLoop, encodeLoop]
      have e : ({ s with yin := y, bin := b, seq := q } : State).ct[byteKey v] = s.ct[byteKey v] := rfl
      rw [e]
      split
      · rfl
      · rename_i c _
        have := emitBits_over c (countByte (takeYin ts s)) ts b q
        have e2 : emitBits c (countByte (takeYin ts { s with yin := y, bin := b, seq := q })) = _ := this
        rw [e2]
        rcases h : emitBits c (countByte (takeYin ts s)) with ⟨rest, u⟩
        have hf := emitBits_frame h
        cases rest with
        | nil => exact ih u ts
        | cons r rs => simp only; rw [hf]; rfl

/-- Bits are left over only where the host withholds acceptance. -/
theorem emitBits_blocked {bs rest : Path} {s t : State} (e : emitBits bs s = (rest, t)) (hr : rest ≠ []) : t.boutReady = .upTo 0 := by
  induction bs generalizing s with
  | nil => cases e; exact absurd rfl hr
  | cons c bs ih =>
    rw [emitBits] at e
    split at e
    · rename_i hw
      obtain ⟨-, h2⟩ := Prod.mk.inj e
      rw [← h2]
      unfold writeBout at hw
      rcases hq : s.boutReady with _ | n
      · rw [hq] at hw; cases hw
      · rw [hq] at hw; cases n with
        | zero => rfl
        | succ n => cases hw
    · exact ih e

theorem emitBits_stuck {bs : Path} {s : State} (h : s.boutReady = .upTo 0) : emitBits bs s = (bs, s) := by
  cases bs with
  | nil => rfl
  | cons b bs => simp [emitBits, writeBout, h, Acceptance.take]

/-- A waiting ENCODE goes on with later tokens as if it had had them. -/
theorem encodeLoop_later_tokens (ts more : List YTok) (bits : List BTok) (s : State) (h : (encodeLoop ts s).seq ≠ .idle) :
    resume { encodeLoop ts s with yin := (encodeLoop ts s).yin ++ more, bin := (encodeLoop ts s).bin ++ bits } =
      encodeLoop (ts ++ more) { s with bin := s.bin ++ bits } := by
  induction ts generalizing s with
  | nil =>
    show encodeLoop more { s with yin := more, bin := s.bin ++ bits, seq := .encodeRead } = encodeLoop more { s with bin := s.bin ++ bits }
    rw [encodeLoop_over]
    exact (encodeLoop_over more s s.yin _ s.seq).symm
  | cons t ts ih =>
    cases t with
    | endTok =>
      rw [encodeLoop] at h
      rw [List.cons_append, encodeLoop, encodeLoop]
      have e : ({ s with bin := s.bin ++ bits } : State).ct[eofKey] = s.ct[eofKey] := rfl
      rw [e]
      split at h
      · exact absurd rfl h
      · rename_i c hc
        rw [hc]
        simp only
        have e2 : emitBits c (spendYin (takeYin (ts ++ more) { s with bin := s.bin ++ bits })) = _ := emitBits_over c (spendYin (takeYin ts s)) (ts ++ more) (s.bin ++ bits) s.seq
        rw [e2]
        rcases hh : emitBits c (spendYin (takeYin ts s)) with ⟨rest, u⟩
        rw [hh] at h
        have hf := emitBits_frame hh
        cases rest with
        | nil => exact absurd rfl h
        | cons r rs =>
          have hb := emitBits_blocked hh (by simp)
          simp only
          show resumeEmit (r :: rs) true _ = _
          rw [resumeEmit, emitBits_stuck (by exact hb)]
          rw [hf]; rfl
    | byte v =>
      rw [encodeLoop] at h
      rw [List.cons_append, encodeLoop, encodeLoop]
      have e : ({ s with bin := s.bin ++ bits } : State).ct[byteKey v] = s.ct[byteKey v] := rfl
      rw [e]
      split at h
      · exact absurd rfl h
      · rename_i c hc
        rw [hc]
        simp only
        have e2 : emitBits c (countByte (takeYin (ts ++ more) { s with bin := s.bin ++ bits })) = _ := emitBits_over c (countByte (takeYin ts s)) (ts ++ more) (s.bin ++ bits) s.seq
        rw [e2]
        rcases hh : emitBits c (countByte (takeYin ts s)) with ⟨rest, u⟩
        rw [hh] at h
        have hf := emitBits_frame hh
        cases rest with
        | nil =>
          simp only at h ⊢
          rw [ih u h]
          have e1 : u.bin = s.bin := by rw [hf]; rfl
          have e2 : u.seq = s.seq := by rw [hf]; rfl
          rw [e1]
          have a := encodeLoop_over (ts ++ more) u u.yin (s.bin ++ bits) u.seq
          have b := encodeLoop_over (ts ++ more) u (ts ++ more) (s.bin ++ bits) s.seq
          exact a.trans b.symm
        | cons r rs =>
          have hb := emitBits_blocked hh (by simp)
          simp only
          show resumeEmit (r :: rs) false _ = _
          rw [resumeEmit, emitBits_stuck (by exact hb)]
          rw [hf]; rfl

/-- The state with the host accepting everything. -/
def allAcc (s : State) : State := { s with youtReady := .all, boutReady := .all }

theorem emitBits_acc {bs rest : Path} {s t : State} (e : emitBits bs s = (rest, t)) :
    emitBits rest (allAcc t) = emitBits bs (allAcc s) := by
  obtain ⟨sent, h1, h2, h3⟩ := emitBits_bout e
  have hf := emitBits_frame e
  rw [emitBits_all (by rfl), emitBits_all (by rfl), h1]
  simp only [allAcc, h2, h3, Prod.mk.injEq, true_and, List.append_assoc, List.length_append, BitVec.ofNat_add, BitVec.add_assoc]
  rw [hf]

/-- A waiting ENCODE goes on with later acceptance as if it had had it. -/
theorem encodeLoop_later_acceptance (ts : List YTok) (s : State) (h : (encodeLoop ts s).seq ≠ .idle) :
    resume (allAcc (encodeLoop ts s)) = encodeLoop ts (allAcc s) := by
  induction ts generalizing s with
  | nil => rfl
  | cons t ts ih =>
    cases t with
    | endTok =>
      rw [encodeLoop] at h
      rw [encodeLoop, encodeLoop]
      have e : (allAcc s).ct[eofKey] = s.ct[eofKey] := rfl
      rw [e]
      split at h
      · exact absurd rfl h
      · rename_i c hc
        rw [hc]
        simp only
        rcases hh : emitBits c (spendYin (takeYin ts s)) with ⟨rest, u⟩
        rw [hh] at h
        have ha := emitBits_acc hh
        cases rest with
        | nil => exact absurd rfl h
        | cons r rs =>
          simp only
          have hb : emitBits c (spendYin (takeYin ts (allAcc s))) = _ := ha.symm.trans (emitBits_all (by rfl) _)
          rw [hb]
          show resumeEmit (r :: rs) true _ = _
          rw [resumeEmit, emitBits_all (by rfl)]
          rfl
    | byte v =>
      rw [encodeLoop] at h
      rw [encodeLoop, encodeLoop]
      have e : (allAcc s).ct[byteKey v] = s.ct[byteKey v] := rfl
      rw [e]
      split at h
      · exact absurd rfl h
      · rename_i c hc
        rw [hc]
        simp only
        rcases hh : emitBits c (countByte (takeYin ts s)) with ⟨rest, u⟩
        rw [hh] at h
        have ha := emitBits_acc hh
        cases rest with
        | nil =>
          simp only at h ⊢
          have hb : emitBits c (countByte (takeYin ts (allAcc s))) = ([], allAcc u) := ha.symm
          rw [hb]
          exact ih u h
        | cons r rs =>
          simp only
          have hb : emitBits c (countByte (takeYin ts (allAcc s))) = _ := ha.symm.trans (emitBits_all (by rfl) _)
          rw [hb]
          show resumeEmit (r :: rs) false _ = _
          rw [resumeEmit, emitBits_all (by rfl)]
          have hy : u.yin = ts := by rw [emitBits_frame hh]; rfl
          simp only [Bool.false_eq_true, if_false]
          have a := fun q => encodeLoop_over ts { allAcc u with bout := (allAcc u).bout ++ (r :: rs), bitCount := (allAcc u).bitCount + BitVec.ofNat 64 (r :: rs).length } u.yin u.bin q
          exact Eq.trans (congrArg (fun y => encodeLoop y _) hy) ((a (.encodeEmit (r :: rs) false)).trans (a u.seq).symm)

theorem take_pos {a b : Acceptance} (h : a.take = some b) : ∃ n, (a = .all ∧ b = .all) ∨ (a = .upTo (n + 1) ∧ b = .upTo n) := by
  unfold Acceptance.take at h
  split at h
  · cases h; exact ⟨0, .inl ⟨rfl, rfl⟩⟩
  · cases h
  · cases h; exact ⟨_, .inr ⟨rfl, rfl⟩⟩

theorem emitBits_upTo (bs : Path) (s : State) (n : Nat) (h : s.boutReady = .upTo n) :
    (bs.length ≤ n ∧ emitBits bs s = ([], { s with bout := s.bout ++ bs, bitCount := s.bitCount + BitVec.ofNat 64 bs.length, boutReady := .upTo (n - bs.length) })) ∨
    (n < bs.length ∧ ∃ t, emitBits bs s = (bs.drop n, t) ∧ t.bout = s.bout ++ bs.take n ∧ t.boutReady = .upTo 0) := by
  induction bs generalizing s n with
  | nil => left; refine ⟨Nat.zero_le _, ?_⟩; simp only [emitBits, List.append_nil, List.length_nil, BitVec.ofNat_eq_ofNat, BitVec.add_zero, Nat.sub_zero, ← h]
  | cons b bs ih =>
    cases n with
    | zero =>
      right
      refine ⟨by simp, s, ?_, by simp, h⟩
      rw [emitBits_stuck h]; rfl
    | succ n =>
      have hw : writeBout b s = some { s with boutReady := .upTo n, bout := s.bout ++ [b] } := by
        simp [writeBout, h, Acceptance.take]
      rw [emitBits, hw]
      simp only
      rcases ih (countBit { s with boutReady := .upTo n, bout := s.bout ++ [b] }) n rfl with ⟨h1, h2⟩ | ⟨h1, t, h2, h3, h4⟩
      · left
        refine ⟨by simpa using h1, ?_⟩
        rw [h2]
        simp only [countBit, List.length_cons, List.append_assoc, List.singleton_append, Nat.add_sub_add_right, BitVec.ofNat_add, BitVec.add_assoc, BitVec.add_comm (BitVec.ofNat 64 bs.length)]
      · right
        refine ⟨by simpa using h1, t, by simpa using h2, ?_, h4⟩
        rw [h3]; simp

/-- ENCODE under limited acceptance sends the first bits of what it sends otherwise. -/
theorem encodeLoop_limited (ts : List YTok) (s : State) (n : Nat) (a : Acceptance) :
    ∃ bits, (encodeLoop ts (allAcc s)).bout = s.bout ++ bits ∧
      (encodeLoop ts { s with youtReady := a, boutReady := .upTo n }).bout = s.bout ++ bits.take n := by
  induction ts generalizing s n with
  | nil => exact ⟨[], by simp [encodeLoop, allAcc]⟩
  | cons t ts ih =>
    cases t with
    | endTok =>
      rw [encodeLoop, encodeLoop]
      have e : (allAcc s).ct[eofKey] = s.ct[eofKey] := rfl
      have e' : ({ s with youtReady := a, boutReady := .upTo n } : State).ct[eofKey] = s.ct[eofKey] := rfl
      rw [e, e']
      split
      · exact ⟨[], by simp [allAcc]⟩
      · rename_i c _
        refine ⟨c, ?_, ?_⟩
        · rw [emitBits_all (by rfl)]; rfl
        · rcases emitBits_upTo c (spendYin (takeYin ts { s with youtReady := a, boutReady := .upTo n })) n rfl with ⟨h1, h2⟩ | ⟨h1, t, h2, h3, h4⟩
          · rw [h2]; show s.bout ++ c = _; rw [List.take_of_length_le h1]
          · rw [h2]
            rcases hd : c.drop n with _ | ⟨r, rs⟩
            · have := List.drop_eq_nil_iff.mp hd; omega
            · exact h3
    | byte v =>
      rw [encodeLoop, encodeLoop]
      have e : (allAcc s).ct[byteKey v] = s.ct[byteKey v] := rfl
      have e' : ({ s with youtReady := a, boutReady := .upTo n } : State).ct[byteKey v] = s.ct[byteKey v] := rfl
      rw [e, e']
      split
      · exact ⟨[], by simp [allAcc]⟩
      · rename_i c _
        rw [emitBits_all (by rfl)]
        simp only
        rcases emitBits_upTo c (countByte (takeYin ts { s with youtReady := a, boutReady := .upTo n })) n rfl with ⟨h1, h2⟩ | ⟨h1, t, h2, h3, h4⟩
        · rw [h2]
          obtain ⟨bits, g1, g2⟩ := ih { s with yin := ts, byteCount := s.byteCount + 1#64, bout := s.bout ++ c, bitCount := s.bitCount + BitVec.ofNat 64 c.length } (n - c.length)
          refine ⟨c ++ bits, ?_, ?_⟩
          · rw [← List.append_assoc]; exact g1
          · rw [List.take_append, List.take_of_length_le h1, ← List.append_assoc]; exact g2
        · rw [h2]
          obtain ⟨-, more, g⟩ := encodeLoop_ports ts { countByte (takeYin ts (allAcc s)) with bout := (countByte (takeYin ts (allAcc s))).bout ++ c, bitCount := (countByte (takeYin ts (allAcc s))).bitCount + BitVec.ofNat 64 c.length }
          refine ⟨c ++ more, ?_, ?_⟩
          · rw [← List.append_assoc]; exact g
          · rcases hd : c.drop n with _ | ⟨r, rs⟩
            · have := List.drop_eq_nil_iff.mp hd; omega
            · rw [List.take_append_of_le_length (by omega)]; exact h3

/-- HDR_WRITE under limited acceptance sends the first bytes of its text. -/
theorem putLoop_limited (cs : List Byte) (s : State) (n : Nat) (h : s.youtReady = .upTo n) : (putLoop cs s).yout = s.yout ++ cs.take n := by
  induction cs generalizing s n with
  | nil => simp [putLoop]
  | cons c cs ih =>
    cases n with
    | zero => simp [putLoop, writeYout, h, Acceptance.take]
    | succ n =>
      have hw : writeYout c s = some { s with youtReady := .upTo n, yout := s.yout ++ [c] } := by
        simp [writeYout, h, Acceptance.take]
      rw [putLoop, hw]
      simp only
      rw [ih _ n rfl]; simp

/-! ### DECODE -/
theorem emitLeaf_over (n : NodeIdx) (s : State) (y : List YTok) (b : List BTok) (q : Seq) :
    emitLeaf n { s with yin := y, bin := b, seq := q } = (emitLeaf n s).map fun t => { t with yin := y, bin := b, seq := q } := by
  unfold emitLeaf writeYout; dsimp only; cases s.youtReady.take <;> rfl

theorem decodeLoop_over (ts : List BTok) (cur : NodeIdx) (s : State) (y : List YTok) (b : List BTok) (q : Seq) :
    decodeLoop ts cur { s with yin := y, bin := b, seq := q } = { decodeLoop ts cur s with yin := y } := by
  induction ts generalizing s cur b with
  | nil => rfl
  | cons t ts ih =>
    cases t with
    | endTok => rfl
    | bit x =>
      rw [decodeLoop, decodeLoop]
      have e1 : ∀ n, isLeaf { s with yin := y, bin := b, seq := q } n = isLeaf s n := fun _ => rfl
      have e2 : ∀ n, isEofLeaf { s with yin := y, bin := b, seq := q } n = isEofLeaf s n := fun _ => rfl
      have e3 : ∀ n, isMarkerLeaf { s with yin := y, bin := b, seq := q } n = isMarkerLeaf s n := fun _ => rfl
      have e4 : ∀ n, child { s with yin := y, bin := b, seq := q } n x = child s n x := fun _ => rfl
      simp only [e1, e2, e3, e4]
      split
      · split
        · rfl
        · split
          · rfl
          · have e5 : emitLeaf (child s cur x) (countBit (takeBin ts { s with yin := y, bin := b, seq := q })) = _ :=
              emitLeaf_over (child s cur x) (countBit (takeBin ts s)) y ts q
            rw [e5]
            cases emitLeaf (child s cur x) (countBit (takeBin ts s)) with
            | none => rfl
            | some u => exact ih u.root u ts
      · exact ih (child s cur x) (countBit (takeBin ts s)) ts

/-- A waiting DECODE goes on with later tokens as if it had had them. -/
theorem decodeLoop_later_tokens (ts more : List BTok) (ys : List YTok) (cur : NodeIdx) (s : State) (h : (decodeLoop ts cur s).seq ≠ .idle) :
    resume { decodeLoop ts cur s with yin := (decodeLoop ts cur s).yin ++ ys, bin := (decodeLoop ts cur s).bin ++ more } =
      decodeLoop (ts ++ more) cur { s with yin := s.yin ++ ys } := by
  induction ts generalizing s cur with
  | nil =>
    show decodeLoop more cur { s with yin := s.yin ++ ys, bin := more, seq := .decodeRead cur } = decodeLoop more cur { s with yin := s.yin ++ ys }
    rw [decodeLoop_over]
    exact (decodeLoop_over more cur s _ s.bin s.seq).symm
  | cons t ts ih =>
    cases t with
    | endTok => exact absurd rfl h
    | bit x =>
      rw [decodeLoop] at h
      rw [List.cons_append, decodeLoop, decodeLoop]
      have e1 : ∀ n, isLeaf { s with yin := s.yin ++ ys } n = isLeaf s n := fun _ => rfl
      have e2 : ∀ n, isEofLeaf { s with yin := s.yin ++ ys } n = isEofLeaf s n := fun _ => rfl
      have e3 : ∀ n, isMarkerLeaf { s with yin := s.yin ++ ys } n = isMarkerLeaf s n := fun _ => rfl
      have e4 : ∀ n, child { s with yin := s.yin ++ ys } n x = child s n x := fun _ => rfl
      simp only [e1, e2, e3, e4]
      split at h
      · rename_i hl
        rw [if_pos hl, if_pos hl]
        split at h
        · exact absurd rfl h
        · rename_i he
          rw [if_neg he, if_neg he]
          split at h
          · exact absurd rfl h
          · rename_i hm
            rw [if_neg hm, if_neg hm]
            have e5 : emitLeaf (child s cur x) (countBit (takeBin (ts ++ more) { s with yin := s.yin ++ ys })) = _ :=
              emitLeaf_over (child s cur x) (countBit (takeBin ts s)) (s.yin ++ ys) (ts ++ more) s.seq
            rw [e5]
            rcases hu : emitLeaf (child s cur x) (countBit (takeBin ts s)) with _ | u
            · simp only [Option.map]
              show resumeLeaf (child s cur x) _ = _
              have e6 : emitLeaf (child s cur x) { waitAt (.decodeWrite (child s cur x)) (countBit (takeBin ts s)) with
                  yin := s.yin ++ ys, bin := ts ++ more } = none := by
                have := emitLeaf_over (child s cur x) (countBit (takeBin ts s)) (s.yin ++ ys) (ts ++ more) (.decodeWrite (child s cur x))
                rw [hu] at this; exact this
              unfold resumeLeaf
              split
              · rfl
              · rename_i u' hu'
                cases (e6.symm.trans hu')
            · rw [hu] at h
              simp only [Option.map] at h ⊢
              have hf := emitLeaf_some hu
              rw [ih _ _ h]
              have e1 : u.yin = s.yin := by rw [hf]; rfl
              have e2 : u.seq = s.seq := by rw [hf]; rfl
              rw [e1]
              have a := decodeLoop_over (ts ++ more) u.root u (s.yin ++ ys) u.bin u.seq
              have b := decodeLoop_over (ts ++ more) u.root u (s.yin ++ ys) (ts ++ more) s.seq
              exact a.trans b.symm
      · rename_i hl
        rw [if_neg hl, if_neg hl]
        rw [ih _ _ h]
        have a := decodeLoop_over (ts ++ more) (child s cur x) (countBit (takeBin ts s)) (s.yin ++ ys) ts s.seq
        have b := decodeLoop_over (ts ++ more) (child s cur x) (countBit (takeBin ts s)) (s.yin ++ ys) (ts ++ more) s.seq
        exact a.trans b.symm

/-- A waiting DECODE goes on with later acceptance as if it had had it. -/
theorem decodeLoop_later_acceptance (ts : List BTok) (cur : NodeIdx) (s : State) (h : (decodeLoop ts cur s).seq ≠ .idle) :
    resume (allAcc (decodeLoop ts cur s)) = decodeLoop ts cur (allAcc s) := by
  induction ts generalizing s cur with
  | nil => rfl
  | cons t ts ih =>
    cases t with
    | endTok => exact absurd rfl h
    | bit x =>
      rw [decodeLoop] at h
      rw [decodeLoop, decodeLoop]
      have e1 : ∀ n, isLeaf (allAcc s) n = isLeaf s n := fun _ => rfl
      have e2 : ∀ n, isEofLeaf (allAcc s) n = isEofLeaf s n := fun _ => rfl
      have e3 : ∀ n, isMarkerLeaf (allAcc s) n = isMarkerLeaf s n := fun _ => rfl
      have e4 : ∀ n, child (allAcc s) n x = child s n x := fun _ => rfl
      simp only [e1, e2, e3, e4]
      split at h
      · rename_i hl
        rw [if_pos hl, if_pos hl]
        split at h
        · exact absurd rfl h
        · rename_i he
          rw [if_neg he, if_neg he]
          split at h
          · exact absurd rfl h
          · rename_i hm
            rw [if_neg hm, if_neg hm]
            have e5 : emitLeaf (child s cur x) (countBit (takeBin ts (allAcc s))) = _ := emitLeaf_all (by rfl) _
            rw [e5]
            rcases hu : emitLeaf (child s cur x) (countBit (takeBin ts s)) with _ | u
            · simp only
              show resumeLeaf (child s cur x) (allAcc (waitAt (.decodeWrite (child s cur x)) (countBit (takeBin ts s)))) = _
              rw [resumeLeaf, emitLeaf_all (by rfl)]
              simp only
              have a := fun q => decodeLoop_over ts s.root { countBit (takeBin ts (allAcc s)) with yout := s.yout ++ [leafByte s (child s cur x)], byteCount := s.byteCount + 1#64 } s.yin ts q
              exact (a (.decodeWrite (child s cur x))).trans (a s.seq).symm
            · rw [hu] at h
              simp only at h ⊢
              rw [ih _ _ h]
              rw [emitLeaf_some hu]; rfl
      · rename_i hl
        rw [if_neg hl, if_neg hl]
        exact ih _ _ h

/-- DECODE under limited acceptance sends the first bytes of what it sends otherwise. -/
theorem decodeLoop_limited (ts : List BTok) (cur : NodeIdx) (s : State) (n : Nat) (a : Acceptance) :
    ∃ bytes, (decodeLoop ts cur (allAcc s)).yout = s.yout ++ bytes ∧
      (decodeLoop ts cur { s with youtReady := .upTo n, boutReady := a }).yout = s.yout ++ bytes.take n := by
  induction ts generalizing s cur n with
  | nil => exact ⟨[], by simp [decodeLoop, allAcc]⟩
  | cons t ts ih =>
    cases t with
    | endTok => exact ⟨[], by simp [decodeLoop, allAcc]⟩
    | bit x =>
      rw [decodeLoop, decodeLoop]
      have e1 : ∀ m, isLeaf { s with youtReady := .upTo n, boutReady := a } m = isLeaf (allAcc s) m := fun _ => rfl
      have e2 : ∀ m, isEofLeaf { s with youtReady := .upTo n, boutReady := a } m = isEofLeaf (allAcc s) m := fun _ => rfl
      have e3 : ∀ m, isMarkerLeaf { s with youtReady := .upTo n, boutReady := a } m = isMarkerLeaf (allAcc s) m := fun _ => rfl
      have e4 : ∀ m, child { s with youtReady := .upTo n, boutReady := a } m x = child (allAcc s) m x := fun _ => rfl
      simp only [e1, e2, e3, e4]
      split
      · split
        · exact ⟨[], by simp [allAcc]⟩
        · split
          · exact ⟨[], by simp [allAcc]⟩
          · rw [emitLeaf_all (by rfl)]
            simp only
            have hlb : leafByte (countBit (takeBin ts (allAcc s))) (child (allAcc s) cur x) = leafByte s (child s cur x) := rfl
            rw [hlb]
            cases n with
            | zero =>
              obtain ⟨-, more, g⟩ := decodeLoop_ports ts s.root { countBit (takeBin ts (allAcc s)) with yout := s.yout ++ [leafByte s (child s cur x)], byteCount := s.byteCount + 1#64 }
              refine ⟨leafByte s (child s cur x) :: more, ?_, ?_⟩
              · refine Eq.trans g ?_
                simp
              · rw [emitLeaf, writeYout]
                simp [Acceptance.take]
            | succ n =>
              have hw : emitLeaf (child (allAcc s) cur x) (countBit (takeBin ts { s with youtReady := .upTo (n + 1), boutReady := a })) =
                some { countBit (takeBin ts s) with youtReady := .upTo n, boutReady := a, yout := s.yout ++ [leafByte s (child s cur x)], byteCount := s.byteCount + 1#64 } := rfl
              rw [hw]
              simp only
              obtain ⟨bytes, g1, g2⟩ := ih s.root { countBit (takeBin ts s) with yout := s.yout ++ [leafByte s (child s cur x)], byteCount := s.byteCount + 1#64 } n
              refine ⟨leafByte s (child s cur x) :: bytes, ?_, ?_⟩
              · refine Eq.trans g1 ?_
                simp
              · refine Eq.trans g2 ?_
                simp
      · exact ih (child s cur x) (countBit (takeBin ts s)) n

theorem freqLoop_waits (ts : List YTok) (s : State) (h : (freqLoop ts s).seq ≠ .idle) :
    (freqLoop ts s).seq = .freqCount ∧ (freqLoop ts s).yin = [] := by
  induction ts generalizing s with
  | nil => exact ⟨rfl, rfl⟩
  | cons t ts ih =>
    cases t with
    | endTok => exact absurd rfl h
    | byte v =>
      rw [freqLoop] at h ⊢
      split at h
      · exact absurd rfl h
      · rename_i hf; rw [if_neg hf]; exact ih _ h

theorem hdrLoop_waits (ts : List YTok) (pos : Nat) (pl : HdrPos) (s : State) (h : (hdrLoop ts pos pl s).seq ≠ .idle) :
    ∃ p q, (hdrLoop ts pos pl s).seq = .hdrRead p q ∧ (hdrLoop ts pos pl s).yin = [] := by
  induction ts generalizing s pos pl with
  | nil => exact ⟨_, _, rfl, rfl⟩
  | cons t ts ih =>
    rw [hdrLoop] at h ⊢
    split at h
    · exact ih _ _ _ h
    · exact ih _ _ _ h
    · exact absurd rfl h
    · exact absurd rfl h
    · exact absurd (by rw [failHeader_eq]; rfl) h

/-- A command left waiting stands at a port transfer, so the next step resumes it. -/
theorem waiting_not_accepted {i : Instr} {s t : State} (h : exec i s = .next t) (hi : t.seq ≠ .idle) : pendingWord t = none := by
  have : ∀ {P : Seq → Prop}, (∀ q, P q → ∀ w, q ≠ .accepted w) → (Ended s t ∨ Waiting P s t) → pendingWord t = none := by
    intro P hP hh
    rcases hh with g | g
    · exact absurd g.idle.2.2 hi
    · have := hP _ g.place
      unfold pendingWord
      split <;> first | rfl | exact absurd ‹_› (this _)
  have w : ∀ {s' : State} {P : Seq → Prop}, (∀ q, P q → ∀ w, q ≠ .accepted w) → (Ended s' t ∨ Waiting P s' t) → pendingWord t = none := by
    intro s' P hP hh
    rcases hh with g | g
    · exact absurd g.idle.2.2 hi
    · have := hP _ g.place
      unfold pendingWord
      split <;> first | rfl | exact absurd ‹_› (this _)
  cases i with
  | nop => cases h; exact absurd rfl hi
  | clear => cases h; exact absurd rfl hi
  | freqCount => cases h; exact w (by rintro _ rfl; simp) (freqLoop_ends s.yin (clearFt (invalidateTree s)))
  | hdrWrite => cases h; exact w (by rintro _ ⟨_, _, -, -, rfl⟩; simp) (putLoop_ends (headerText s.ft) s)
  | hdrRead => cases h; exact w (by rintro _ ⟨_, _, rfl⟩; simp) (hdrLoop_ends s.yin 0 .brace (clearFt (invalidateTree s)))
  | buildTree =>
    rcases execBuildTree_cases s with ⟨h1, -⟩ | ⟨u, h1, -, hu⟩
    · cases h.symm.trans h1; exact absurd rfl hi
    · cases h.symm.trans h1; rw [hu] at hi; exact absurd rfl hi
  | genCodes =>
    rcases execGenCodes_cases h with ⟨-, rfl⟩ | ⟨-, ht⟩
    · exact absurd rfl hi
    · rw [ht] at hi; exact absurd rfl hi
  | encode => cases h; exact w (by rintro _ (rfl | ⟨_, _, -, rfl⟩) <;> simp) (encodeLoop_ends s.yin s)
  | decode =>
    rcases execDecode_cases s with ⟨n, h1⟩ | h1 | ⟨-, -, h1⟩ <;> cases h.symm.trans h1
    · exact absurd rfl hi
    · exact absurd rfl hi
    · exact w (by rintro _ (⟨_, rfl⟩ | ⟨_, rfl⟩) <;> simp) (decodeLoop_ends s.bin s.root s)

/-- Without a host move, a running command is resumed by the step. -/
theorem step_resume {t : State} (hh : t.host = []) (hr : t.rst = false) (hp : pendingWord t = none) : step t = .next (resume t) := by
  unfold step; rw [hh]; simp only [progress, hr, hp]; rfl

theorem freqLoop_err (ts : List YTok) (s : State) : (freqLoop ts s).err = s.err ∨ (freqLoop ts s).errCode = 8#4 := by
  induction ts generalizing s with
  | nil => exact .inl rfl
  | cons t ts ih =>
    cases t with
    | endTok => exact .inl rfl
    | byte v =>
      rw [freqLoop]
      split
      · exact .inr rfl
      · have := ih (bumpCount v (countByte (takeYin ts s)))
        rw [bumpCount_eq] at this ⊢
        exact this

theorem hdrLoop_err (ts : List YTok) (pos : Nat) (place : HdrPos) (s : State) :
    (hdrLoop ts pos place s).err = s.err ∨ (hdrLoop ts pos place s).errCode = 5#4 := by
  induction ts generalizing pos place s with
  | nil => exact .inl rfl
  | cons t ts ih =>
    rw [hdrLoop]
    split
    · rename_i p _
      have := ih (pos + 1) p (countToken t (takeYin ts s))
      rw [countToken_eq] at this ⊢; exact this
    · rename_i k c p _
      have := ih (pos + 1) p (setFt k c (countToken t (takeYin ts s)))
      rw [countToken_eq] at this ⊢; exact this
    · rw [countToken_eq]; exact .inl rfl
    · rw [countToken_eq]; exact .inl rfl
    · rw [failHeader_eq]; exact .inr rfl

theorem encodeLoop_err (ts : List YTok) (s : State) : (encodeLoop ts s).err = s.err ∨ (encodeLoop ts s).errCode = 2#4 := by
  induction ts generalizing s with
  | nil => exact .inl rfl
  | cons t ts ih =>
    cases t with
    | endTok =>
      rw [encodeLoop]
      split
      · exact .inr rfl
      · split <;> rename_i e <;> rw [emitBits_frame e] <;> exact .inl rfl
    | byte v =>
      rw [encodeLoop]
      split
      · exact .inr rfl
      · split <;> rename_i u e
        · have := ih u
          rw [emitBits_frame e] at this ⊢; exact this
        · rename_i e; rw [emitBits_frame e]; exact .inl rfl

theorem decodeLoop_err (ts : List BTok) (cur : NodeIdx) (s : State) :
    (decodeLoop ts cur s).err = s.err ∨ (decodeLoop ts cur s).errCode = 3#4 ∨ (decodeLoop ts cur s).errCode = 4#4 := by
  induction ts generalizing cur s with
  | nil => exact .inl rfl
  | cons t ts ih =>
    cases t with
    | endTok => exact .inr (.inl rfl)
    | bit b =>
      rw [decodeLoop]
      split
      · split
        · exact .inl rfl
        · split
          · exact .inr (.inr rfl)
          · split
            · exact .inl rfl
            · rename_i u hu
              have := ih u.root u
              rw [emitLeaf_some hu] at this ⊢
              exact this
      · exact ih (child s cur b) (countBit (takeBin ts s))

end Sys2Proof.Machine
end

