-- ==== Sys2Proof/Tests/Slice0.lean ====
section
/-! SUPPORT. Tests: the well-formedness smoke test, decoding of words written out from rule R82, one step of every command against the
vectors of spec/95_test_vectors.md, and for every statement with hypotheses a witness that meets them. -/

namespace Sys2Proof.Tests

open Sys2Proof Sys2Proof.Machine

/-! ### Small states -/

/-- What a command or a step leaves, seen through `f`; none where it stops. -/
def seen {α : Type} (o : Outcome) (f : State → α) : Option α :=
  match o with
  | .next t => some (f t)
  | .fault _ => none
  | .refused _ => none

/-- The state a command leaves; the reset state where it stops. -/
def left (o : Outcome) : State := (seen o id).getD State.reset

/-- A mapping from its entries. -/
def mapping (es : List (Key × Count)) : FreqTable := es.foldl (fun ft e => ft.set e.1 (some e.2)) (Vector.replicate 257 none)

/-- A code table from its entries. -/
def codes (es : List (Key × Path)) : CodeTable := es.foldl (fun ct e => ct.set e.1 (some e.2)) (Vector.replicate 257 none)

/-- Some entries of a mapping. -/
def pick (ft : FreqTable) (ks : List Key) : List (Option Count) := ks.map fun k => ft[k]

/-- The bits of a digit string. -/
def bits (ds : List Nat) : Path := ds.map (· == 1)

/-- Bytes and End on YIN. -/
def yinOf (bs : List Byte) : List YTok := bs.map YTok.byte ++ [.endTok]

/-- The mapping of "aabbbc" (V-FRQ-1). -/
def ftAabbbc : FreqTable := mapping [(97, 2), (98, 3), (99, 1), (256, 1)]

/-- The bytes of "aabbbc". -/
def aabbbc : List Byte := [97#8, 97#8, 98#8, 98#8, 98#8, 99#8]

/-- The payload of "aabbbc" (V-ENC-1). -/
def payload : Path := bits [1, 0, 1, 0, 0, 0, 0, 1, 1, 0, 1, 1, 1]

/-- The tree of a mapping. -/
def treeOf (ft : FreqTable) : State := left (exec .buildTree { State.reset with ft := ft })

/-- The tree and the code table of a mapping. -/
def codesOf (ft : FreqTable) : State := left (exec .genCodes (treeOf ft))

/-- The code table of T-aabbbc. -/
def ctAabbbc : CodeTable := codes [(97, bits [1, 0]), (98, bits [0]), (99, bits [1, 1, 0]), (256, bits [1, 1, 1])]

/-- The arena of T-aabbbc, as the table of spec/95_test_vectors.md gives it. -/
def arenaAabbbc : Arena :=
  ((((((((Vector.replicate 513 Node.zeroed).set 0 ⟨true, 97#9, 2#41, 0, 0⟩).set 1 ⟨true, 98#9, 3#41, 0, 0⟩).set 2
    ⟨true, 99#9, 1#41, 0, 0⟩).set 3 ⟨true, 256#9, 1#41, 0, 0⟩).set 4 ⟨false, 257#9, 2#41, 2, 3⟩).set 5
    ⟨false, 257#9, 4#41, 0, 4⟩).set 6 ⟨false, 257#9, 7#41, 1, 5⟩)

/-- T-aabbbc out of reset. -/
def treeAabbbc : State := { State.reset with ft := ftAabbbc, node := arenaAabbbc, nodeCnt := 7, root := 6, treeValid := true }

/-- The host writes a word to CMD next. -/
def cmdNext (w : Word) : State := { State.reset with host := [.write 0x00#7 .w32 w] }

/-! ### Well-formedness: an ill-formed word for each check -/

theorem test_rsvd_refused :
    (CmdWord.mk 0x0#4 0x1#28).reservedZero = false ∧ (CmdWord.mk 0x0#4 0x1#28).opDefined = true ∧
      (CmdWord.mk 0x0#4 0x1#28).wellFormed = false := by decide

theorem test_op_refused :
    (CmdWord.mk 0x9#4 0x0#28).opDefined = false ∧ (CmdWord.mk 0x9#4 0x0#28).reservedZero = true ∧
      (CmdWord.mk 0x9#4 0x0#28).wellFormed = false := by decide

theorem test_op_last : (CmdWord.mk 0x8#4 0x0#28).wellFormed = true := by decide

/-! ### Decoding: the words of rule R82, bit by bit -/

theorem test_decode_nop : decode 0b00000000000000000000000000000000#32 = .command .nop := by decide

theorem test_decode_clear : decode 0b00000000000000000000000000000001#32 = .command .clear := by decide

theorem test_decode_freqCount : decode 0b00000000000000000000000000000010#32 = .command .freqCount := by decide

theorem test_decode_hdrWrite : decode 0b00000000000000000000000000000011#32 = .command .hdrWrite := by decide

theorem test_decode_hdrRead : decode 0b00000000000000000000000000000100#32 = .command .hdrRead := by decide

theorem test_decode_buildTree : decode 0b00000000000000000000000000000101#32 = .command .buildTree := by decide

theorem test_decode_genCodes : decode 0b00000000000000000000000000000110#32 = .command .genCodes := by decide

theorem test_decode_encode : decode 0b00000000000000000000000000000111#32 = .command .encode := by decide

theorem test_decode_decode : decode 0b00000000000000000000000000001000#32 = .command .decode := by decide

/-- V-ILL-1, V-ILL-2, V-ILL-3. -/
theorem test_decode_illegal :
    decode 0x00000009#32 = .illegalCommand 0x00000009#32 ∧ decode 0x00000012#32 = .illegalCommand 0x00000012#32 ∧
      decode 0xFFFFFFFF#32 = .illegalCommand 0xFFFFFFFF#32 := by decide

/-- The decoder on a table row, and that the very next step runs the row's command (here NOP's DONE, and CLEAR's). -/
theorem test_table_row :
    decodeTableWord 32 5 = some .buildTree ∧ decodeTableWord 32 16 = none ∧
      seen (step (State.reset.withFetchWord 32 0)) (fun t => (t.done, t.err)) = some (true, false) ∧
      seen (step (State.reset.withFetchWord 32 9)) (fun t => (t.errCode, t.errInfo)) = some (7#4, 9#32) := by decide +kernel

/-! ### The commands, one step each -/

/-- V-NOP-1: a stale report is cleared, the tree and the code table stay. -/
theorem test_nop :
    seen (step { cmdNext 0x00000000#32 with
      done := true, err := true, errCode := 7#4, errInfo := 9#32, treeValid := true, ctReady := true })
      (fun t => (statusWord t, t.errInfo, t.bitCount)) = some (0x00000032#32, 0#32, 0#64) := by decide +kernel

/-- V-CLR-1. -/
theorem test_clear :
    seen (exec .clear { treeAabbbc with ct := ctAabbbc, ctReady := true }) (fun t => (statusWord t, (t.nodeCnt, t.root), pick t.ft [97, 256], t.ct[97].isSome)) =
      some (0x00000002#32, (0, 0), [none, none], false) := by decide +kernel

/-- V-FRQ-1. -/
theorem test_freqCount :
    seen (exec .freqCount { State.reset with yin := yinOf aabbbc })
      (fun t => (pick t.ft [96, 97, 98, 99, 256], t.byteCount, statusWord t, t.yin)) =
      some ([none, some 2, some 3, some 1, some 1], 6#64, 0x00000002#32, []) := by decide +kernel

/-- V-FRQ-4: the extreme byte values are ordinary keys. -/
theorem test_freqCount_extremes :
    seen (exec .freqCount { State.reset with yin := yinOf [0x00#8, 0xFF#8, 0x00#8] }) (fun t => (pick t.ft [0, 1, 255, 256], t.byteCount)) =
      some ([some 2, none, some 1, some 1], 3#64) := by decide +kernel

/-- V-BLD-1: T-aabbbc, a tie at weight 2 between node 0 and node 4. -/
theorem test_buildTree :
    seen (exec .buildTree { State.reset with ft := ftAabbbc })
      (fun t => (statusWord t, t.nodeCnt, t.root, nodeAt t 6, nodeAt t 5, nodeAt t 3)) =
      some (0x00000012#32, 7, 6, ⟨false, 257#9, 7#41, 1, 5⟩, ⟨false, 257#9, 4#41, 0, 4⟩, ⟨true, 256#9, 1#41, 0, 0⟩) := by
  decide +kernel

/-- V-BLD-4: T-abc, every pop is a tie. -/
theorem test_buildTree_ties :
    seen (exec .buildTree { State.reset with ft := mapping [(97, 1), (98, 1), (99, 1), (256, 1)] })
      (fun t => (nodeAt t 4, nodeAt t 5, nodeAt t 6)) =
      some (⟨false, 257#9, 2#41, 0, 1⟩, ⟨false, 257#9, 2#41, 2, 3⟩, ⟨false, 257#9, 4#41, 4, 5⟩) := by decide +kernel

/-- V-GEN-1. -/
theorem test_genCodes :
    seen (exec .genCodes treeAabbbc) (fun t => (statusWord t, [t.ct[97], t.ct[98], t.ct[99], t.ct[256], t.ct[100]])) =
      some (0x00000032#32, [some (bits [1, 0]), some (bits [0]), some (bits [1, 1, 0]), some (bits [1, 1, 1]), none]) := by
  decide +kernel

/-- V-GEN-2: the single leaf's code is empty and valid. -/
theorem test_genCodes_single :
    seen (exec .genCodes { treeAabbbc with root := 3 }) (fun t => (t.ct[256], regValue .ctLen { t with ctIdx := 256#9 })) =
      some (some [], 0x80000000#32) := by decide +kernel

/-- V-ENC-1. -/
theorem test_encode :
    seen (exec .encode { State.reset with yin := yinOf aabbbc, ct := ctAabbbc })
      (fun t => (t.bout, t.bitCount, t.byteCount, t.done, t.err)) = some (payload, 13#64, 6#64, true, false) := by decide +kernel

/-- V-ENC-5: an unknown byte. -/
theorem test_encode_unknown :
    seen (exec .encode { State.reset with yin := yinOf [97#8, 98#8, 100#8], ct := ctAabbbc, treeValid := true, ctReady := true })
      (fun t => (t.bout, [statusWord t, t.errInfo], [t.bitCount, t.byteCount], t.yin)) =
      some (bits [1, 0, 0], [0x00000236#32, 100#32], [3#64, 3#64], [.endTok]) := by decide +kernel

/-- V-DEC-1: End is left on BIN. -/
theorem test_decode :
    seen (exec .decode { treeAabbbc with bin := payload.map BTok.bit ++ [.endTok] })
      (fun t => (t.yout, t.bitCount, t.byteCount, statusWord t, t.bin)) =
      some (aabbbc, 13#64, 6#64, 0x00000012#32, [.endTok]) := by decide +kernel

/-- V-DEC-4: truncated inside the PSEUDO_EOF code. -/
theorem test_decode_truncated :
    seen (exec .decode { treeAabbbc with bin := (payload.take 11).map BTok.bit ++ [.endTok] })
      (fun t => (t.yout, t.errInfo, t.bitCount, t.byteCount, statusWord t)) =
      some (aabbbc, 5#32, 11#64, 6#64, 0x00000316#32) := by decide +kernel

/-- The 25 bytes of V-HDR-1. -/
def headerAabbbc : List Byte :=
  [0x7B#8, 0x39#8, 0x37#8, 0x3A#8, 0x32#8, 0x2C#8, 0x20#8, 0x39#8, 0x38#8, 0x3A#8, 0x33#8, 0x2C#8, 0x20#8, 0x39#8, 0x39#8,
    0x3A#8, 0x31#8, 0x2C#8, 0x20#8, 0x32#8, 0x35#8, 0x36#8, 0x3A#8, 0x31#8, 0x7D#8]

/-- V-HDR-1. -/
theorem test_hdrWrite :
    seen (exec .hdrWrite { State.reset with ft := ftAabbbc }) (fun t => (t.yout, t.byteCount)) =
      some (headerAabbbc, 25#64) := by decide +kernel

/-- V-HDR-5: End is left on YIN. -/
theorem test_hdrRead :
    seen (exec .hdrRead { State.reset with yin := yinOf headerAabbbc }) (fun t => (pick t.ft [96, 97, 98, 99, 256], t.byteCount, t.yin, t.err)) =
      some ([none, some 2, some 3, some 1, some 1], 25#64, [.endTok], false) := by decide +kernel

/-- V-HDR-22: the value's digit that passes COUNT_MAX. -/
theorem test_hdrRead_limit :
    seen (exec .hdrRead { State.reset with yin := yinOf [0x7B#8, 0x39#8, 0x37#8, 0x3A#8, 0x34#8, 0x32#8, 0x39#8, 0x34#8, 0x39#8,
        0x36#8, 0x37#8, 0x32#8, 0x39#8, 0x36#8, 0x7D#8] })
      (fun t => (pick t.ft [97], t.errInfo, t.byteCount, statusWord t, t.yin)) =
      some ([none], 13#32, 14#64, 0x00000506#32, [.byte 0x7D#8, .endTok]) := by decide +kernel

/-- V-BUS-2, V-BUS-3. -/
theorem test_bus :
    (busRead 0x3C#7 .w32 State.reset).responses = [.value 0x48554630#32] ∧
      (busRead 0x28#7 .w32 (busWrite 0x28#7 .w32 0xFFFFFE61#32 State.reset)).responses = [.value 0x61#32] := by decide +kernel

/-! ### Witnesses: each statement's hypotheses, met by a state -/

/-- T-AAAA: leaf 65, leaf 256, and the root over them. -/
def arenaAAAA : Arena :=
  (((Vector.replicate 513 Node.zeroed).set 0 ⟨true, 65#9, 4#41, 0, 0⟩).set 1 ⟨true, 256#9, 1#41, 0, 0⟩).set 2 ⟨false, 257#9, 5#41, 1, 0⟩

/-- The tree of "AAAA", out of reset. -/
def treeAAAA : State := { State.reset with node := arenaAAAA, nodeCnt := 3, root := 2, treeValid := true }

/-- FREQ_COUNT waits for a token. -/
def waiting : State := { State.reset with busy := true, seq := .freqCount }

theorem tree_tables (ft : FreqTable) : TablesOk (treeOf ft) := by
  have h0 : TablesOk { State.reset with ft := ft } := .empty rfl rfl rfl rfl rfl trivial
  obtain ⟨t, ht⟩ := exec_goes (i := .buildTree) h0.tree
  have : treeOf ft = t := by unfold treeOf; rw [ht]; rfl
  rw [this]
  exact exec_tables ⟨h0.tree, h0.code⟩ ht

theorem codes_tables (ft : FreqTable) : TablesOk (codesOf ft) := by
  have h0 := tree_tables ft
  obtain ⟨t, ht⟩ := exec_goes (i := .genCodes) h0.tree
  have : codesOf ft = t := by unfold codesOf; rw [ht]; rfl
  rw [this]
  exact exec_tables ⟨h0.tree, h0.code⟩ ht

/-- BUILD_TREE's state on a mapping with a key. -/
theorem treeOf_eq {ft : FreqTable} (h : keys ft ≠ []) :
    ∃ n c r, treeOf ft = { State.reset with ft := ft, node := n, nodeCnt := c, root := r, treeValid := true, done := true } := by
  rcases execBuildTree_cases { State.reset with ft := ft } with ⟨-, h1⟩ | ⟨t, h1, -, h2⟩
  · exact absurd h1 h
  · have : treeOf ft = t := by
      unfold treeOf; rw [show exec .buildTree _ = _ from h1]; rfl
    exact ⟨t.node, t.nodeCnt, t.root, by rw [this, h2]; rfl⟩

theorem treeOf_valid {ft : FreqTable} (h : keys ft ≠ []) : (treeOf ft).treeValid = true := by
  obtain ⟨n, c, r, e⟩ := treeOf_eq h
  rw [e]

/-- GEN_CODES' state on a mapping with a key. -/
theorem codesOf_eq {ft : FreqTable} (h : keys ft ≠ []) :
    ∃ n c r ct, codesOf ft = { State.reset with
      ft := ft, node := n, nodeCnt := c, root := r, treeValid := true, done := true, ct := ct, ctReady := true } := by
  obtain ⟨n, c, r, e⟩ := treeOf_eq h
  obtain ⟨ct, h1, -⟩ := execGenCodes_eq (treeOf_valid h) ((tree_tables ft).tree.valid (treeOf_valid h))
  have : codesOf ft = finish (setCtReady { treeOf ft with ct := ct, walk := [] }) := by
    unfold codesOf; rw [show exec .genCodes _ = _ from h1]; rfl
  exact ⟨n, c, r, ct, by rw [this, e]; rfl⟩

theorem keys_aabbbc : (97 : Key) ∈ keys ftAabbbc := mem_keys.mpr (by decide +kernel)

theorem keys_ne {ft : FreqTable} {k : Key} (h : k ∈ keys ft) : keys ft ≠ [] := List.ne_nil_of_mem h

theorem witness_DecodeEncodeAgree : Instr.wellFormed .decode = true ∧ decode 0x00000008#32 = .command .decode := by decide

theorem witness_EveryWordRunsOrIsIllegal :
    (cmdNext 0x00000009#32).busy = false ∧ (cmdNext 0x00000009#32).rst = false ∧ (cmdNext 0x00000009#32).hold = 0 ∧
      (cmdNext 0x00000009#32).host = .write 0x00#7 .w32 0x00000009#32 :: [] ∧
      (cmdNext 0x00000008#32).host = .write 0x00#7 .w32 0x00000008#32 :: [] := by decide

theorem witness_StepRunsDecodedCommand :
    (cmdNext 0x00000008#32).busy = false ∧ (cmdNext 0x00000008#32).rst = false ∧ (cmdNext 0x00000008#32).hold = 0 ∧
      (cmdNext 0x00000008#32).host = .write 0x00#7 .w32 0x00000008#32 :: [] ∧ decode 0x00000008#32 = .command .decode := by decide

theorem witness_CommandWriteAcceptsOrDrops :
    State.reset.rst = false ∧ State.reset.busy = false ∧ waiting.rst = false ∧ waiting.busy = true ∧
      decode 0x00000000#32 = .command .nop ∧ ({ waiting with seq := .accepted 0x00000000#32 } : State).seq = .accepted 0x00000000#32 ∧
      waiting.host = [] := by decide

theorem witness_BlockedCodecStays :
    ({ State.reset with rst := true } : State).rst = true ∧ State.reset.seq = .idle ∧
      (waiting.seq = .freqCount ∧ waiting.yin = []) ∧
      ({ waiting with seq := .hdrRead 0 .brace } : State).seq = .hdrRead 0 .brace ∧
      ({ waiting with seq := .encodeRead } : State).seq = .encodeRead ∧
      (({ waiting with seq := .decodeRead 2 } : State).seq = .decodeRead 2 ∧ waiting.bin = []) ∧
      ({ waiting with seq := .hdrWrite [0x7D#8], youtReady := .upTo 0 } : State).seq = .hdrWrite (0x7D#8 :: []) ∧
      ({ waiting with seq := .encodeEmit [true] true, boutReady := .upTo 0 } : State).boutReady = .upTo 0 ∧
      ({ waiting with seq := .decodeWrite 0, youtReady := .upTo 0 } : State).youtReady = .upTo 0 ∧ waiting.host = [] := by decide

theorem witness_TokensOfferedLaterAreTheSame :
    State.reset.host = [] ∧ State.reset.rst = false ∧ (∃ t, exec .hdrRead State.reset = .next t ∧ t.seq ≠ .idle) :=
  ⟨rfl, rfl, _, rfl, by simp [hdrLoop, State.reset]⟩

theorem witness_AcceptanceGivenLaterIsTheSame :
    State.reset.host = [] ∧ State.reset.rst = false ∧ (∃ t, exec .encode { State.reset with yin := yinOf [97#8], ct := ctAabbbc, boutReady := .upTo 1 } = .next t ∧ t.seq ≠ .idle) :=
  ⟨rfl, rfl, _, rfl, by decide +kernel⟩

theorem witness_LimitedAcceptanceSendsAPrefix :
    (∃ t, exec .hdrWrite { State.reset with youtReady := .upTo 1, boutReady := .upTo 1 } = .next t) ∧
      ∃ u, exec .hdrWrite { State.reset with youtReady := .all, boutReady := .all } = .next u := ⟨⟨_, rfl⟩, _, rfl⟩

theorem witness_CommandEndsOrWaits :
    (∃ t, exec .nop waiting = .next t ∧ t.seq = .idle) ∧ ∃ t, exec .freqCount State.reset = .next t ∧ t.seq = .freqCount :=
  ⟨⟨_, rfl, rfl⟩, _, rfl, rfl⟩

theorem witness_NopOnlyEnds :
    (cmdNext 0x00000000#32).busy = false ∧ (cmdNext 0x00000000#32).rst = false ∧ (cmdNext 0x00000000#32).hold = 0 ∧
      (cmdNext 0x00000000#32).host = .write 0x00#7 .w32 0x00000000#32 :: [] ∧
      statusWord { cmdNext 0x00000000#32 with done := true, err := true, errCode := 7#4, treeValid := true, ctReady := true } =
        0x00000736#32 := by decide

theorem count_le (bs : List Byte) (h : bs.length ≤ 4) : ∀ v, bs.count v ≤ Config.countMax := fun v => by
  have := List.count_le_length (a := v) (l := bs)
  have : Config.countMax = 4294967295 := rfl
  omega

theorem witness_FreqCountCounts :
    ({ State.reset with yin := yinOf [97#8, 97#8] } : State).yin = [97#8, 97#8].map YTok.byte ++ .endTok :: [] ∧
      ∀ v, [97#8, 97#8].count v ≤ Config.countMax := ⟨rfl, count_le _ (by simp)⟩

theorem witness_FreqCountOfEmptyInput :
    ({ cmdNext 0x00000002#32 with yin := [.endTok] } : State).yin = .endTok :: [] ∧
      (cmdNext 0x00000002#32).host = .write 0x00#7 .w32 0x00000002#32 :: [] ∧ (cmdNext 0x00000002#32).busy = false ∧
      (cmdNext 0x00000002#32).rst = false ∧ (cmdNext 0x00000002#32).hold = 0 := by decide

/-- V-FRQ-7. -/
theorem witness_FreqCountOverflow :
    ({ State.reset with yin := (List.replicate Config.countMax 0x41#8).map YTok.byte ++ [.byte 0x41#8, .endTok] } : State).yin =
        (List.replicate Config.countMax 0x41#8).map YTok.byte ++ .byte 0x41#8 :: [.endTok] ∧
      (∀ u, (List.replicate Config.countMax 0x41#8).count u ≤ Config.countMax) ∧
      (List.replicate Config.countMax 0x41#8).count 0x41#8 = Config.countMax :=
  ⟨rfl, fun _ => List.count_le_length.trans_eq List.length_replicate, List.count_replicate_self⟩

theorem witness_FreqCountWaitsForEnd :
    ({ State.reset with yin := [.byte 97#8] } : State).yin = [97#8].map YTok.byte ∧ ∀ v, [97#8].count v ≤ Config.countMax :=
  ⟨rfl, count_le _ (by simp)⟩

theorem witness_BuildTreeBuildsATree : keys ({ State.reset with ft := ftAabbbc } : State).ft ≠ [] := keys_ne keys_aabbbc

theorem witness_BuildTreeIsGreedy : keys ({ State.reset with ft := ftAabbbc } : State).ft ≠ [] := keys_ne keys_aabbbc

theorem witness_BuildTreeOfEmptyMapping : keys State.reset.ft = [] := keys_eq_nil.mpr fun k => emptyTable_getElem k

theorem witness_BuildTreeDependsOnFtAlone :
    ({ State.reset with ft := ftAabbbc } : State).ft = ({ treeAAAA with ft := ftAabbbc } : State).ft ∧
      (∃ t, exec .buildTree { State.reset with ft := ftAabbbc } = .next t) ∧
      ∃ v, exec .buildTree { treeAAAA with ft := ftAabbbc } = .next v := by
  have go : ∀ s : State, ∃ t, exec .buildTree s = .next t := fun s => by
    rcases execBuildTree_cases s with ⟨h, -⟩ | ⟨_, h, -⟩ <;> exact ⟨_, h⟩
  exact ⟨rfl, go _, go _⟩

/-- 'c' occurs once in "aabbbc" and 'b' three times. -/
theorem witness_RarerSymbolsHaveNoShorterCodes : ∃ (t : State) (c d : Path), exec .buildTree { State.reset with ft := ftAabbbc } = .next t ∧
    ftAabbbc[byteKey 99#8] = some 1#32 ∧ ftAabbbc[byteKey 98#8] = some 3#32 ∧ (1#32 < 3#32) ∧
      IsCodeOf t (byteKey 99#8) c ∧ IsCodeOf t (byteKey 98#8) d := by
  have hk := keys_ne keys_aabbbc
  obtain ⟨n, m, r, e⟩ := treeOf_eq hk
  have hft : (treeOf ftAabbbc).ft = ftAabbbc := by rw [e]
  obtain ⟨ct, -, h2, h3⟩ := execGenCodes_eq (treeOf_valid hk) ((tree_tables ftAabbbc).tree.valid (treeOf_valid hk))
  have code : ∀ k : Key, ftAabbbc[k].isSome = true → ∃ c, IsCodeOf (treeOf ftAabbbc) k c := fun k h => by
    obtain ⟨c, hc⟩ := Option.isSome_iff_exists.mp ((h2 k).trans (by rw [hft]; exact h))
    exact ⟨c, (h3 k c hc).2⟩
  obtain ⟨c, hc⟩ := code (byteKey 99#8) (by decide +kernel)
  obtain ⟨d, hd⟩ := code (byteKey 98#8) (by decide +kernel)
  refine ⟨treeOf ftAabbbc, c, d, ?_, by decide +kernel, by decide +kernel, by decide, hc, hd⟩
  rcases execBuildTree_cases { State.reset with ft := ftAabbbc } with ⟨-, h1⟩ | ⟨t, h1, -, -⟩
  · exact absurd h1 hk
  · have h2 : exec .buildTree { State.reset with ft := ftAabbbc } = .next t := h1
    have : treeOf ftAabbbc = t := by rw [treeOf, h2]; rfl
    rw [this, h2]

theorem witness_GenCodesGivesPaths : (treeOf ftAabbbc).treeValid = true ∧ TreeShape (treeOf ftAabbbc) :=
  have h := treeOf_valid (keys_ne keys_aabbbc)
  ⟨h, (tree_tables _).tree.valid h⟩

theorem witness_GenCodesSingleLeaf :
    ({ treeAAAA with root := 1 } : State).treeValid = true ∧ isLeaf { treeAAAA with root := 1 } 1 = true ∧
      (nodeAt { treeAAAA with root := 1 } 1).sym = keySymbol eofKey := by decide +kernel

theorem witness_GenCodesWithoutTree : State.reset.treeValid = false := rfl

theorem witness_EncodeWritesThePayload :
    ({ State.reset with yin := yinOf [98#8], ct := ctAabbbc } : State).yin = [98#8].map YTok.byte ++ .endTok :: [] ∧
      State.reset.boutReady = .all ∧ (∀ v ∈ [98#8], ctAabbbc[byteKey v] = some (bits [0])) ∧
      ctAabbbc[eofKey] = some (bits [1, 1, 1]) := by decide +kernel

theorem witness_EncodeUnknownByte :
    ({ State.reset with yin := yinOf [98#8, 100#8], ct := ctAabbbc } : State).yin =
        [98#8].map YTok.byte ++ .byte 100#8 :: [.endTok] ∧ State.reset.boutReady = .all ∧
      (∀ v ∈ [98#8], ctAabbbc[byteKey v] = some (bits [0])) ∧ ctAabbbc[byteKey 100#8] = none := by decide +kernel

theorem witness_EncodeWithoutEofCode :
    ({ State.reset with yin := yinOf [65#8], ct := codes [(65, [])] } : State).yin = [65#8].map YTok.byte ++ .endTok :: [] ∧
      State.reset.boutReady = .all ∧ (∀ v ∈ [65#8], (codes [(65, [])])[byteKey v] = some []) ∧ (codes [(65, [])])[eofKey] = none := by decide +kernel

theorem witness_DecodeFollowsPaths :
    treeAAAA.treeValid = true ∧ isLeaf treeAAAA treeAAAA.root = false ∧ treeAAAA.youtReady = .all ∧
      (leads treeAAAA treeAAAA.root [true] = some 0 ∧ isLeaf treeAAAA 0 = true ∧
        (nodeAt treeAAAA 0).sym = keySymbol (byteKey 65#8)) ∧
      leads treeAAAA treeAAAA.root [false] = some 1 ∧ isLeaf treeAAAA 1 = true ∧ (nodeAt treeAAAA 1).sym = keySymbol eofKey := by
  decide +kernel

theorem witness_DecodeTruncated :
    treeAAAA.treeValid = true ∧ isLeaf treeAAAA treeAAAA.root = false ∧ treeAAAA.youtReady = .all ∧
      (leads treeAAAA treeAAAA.root [true] = some 0 ∧ isLeaf treeAAAA 0 = true ∧
        (nodeAt treeAAAA 0).sym = keySymbol (byteKey 65#8)) ∧
      leads treeAAAA treeAAAA.root [] = some 2 ∧ isLeaf treeAAAA 2 = false ∧
      ({ treeAAAA with bin := [.bit true, .endTok] } : State).bin =
        ([65#8].flatMap (fun _ => [true]) ++ []).map BTok.bit ++ .endTok :: [] := by decide +kernel

theorem witness_DecodeAtASingleLeaf :
    treeAAAA.treeValid = true ∧ isLeaf { treeAAAA with root := 1 } 1 = true ∧ (nodeAt { treeAAAA with root := 1 } 1).sym = 256#9 ∧
      isLeaf { treeAAAA with root := 0 } 0 = true ∧ (nodeAt { treeAAAA with root := 0 } 0).sym ≠ 256#9 := by decide +kernel

/-- T-AAAA with NOT_A_CHAR at leaf 0. -/
def markedLeaf : State := { treeAAAA with node := arenaAAAA.set 0 ⟨true, 257#9, 4#41, 0, 0⟩, bin := [.bit true] }

theorem witness_DecodeInvalidTree :
    State.reset.treeValid = false ∧ markedLeaf.treeValid = true ∧ isLeaf markedLeaf markedLeaf.root = false ∧
      markedLeaf.youtReady = .all ∧ leads markedLeaf markedLeaf.root [true] = some 0 ∧ isLeaf markedLeaf 0 = true ∧
      256 < (nodeAt markedLeaf 0).sym.toNat ∧
      markedLeaf.bin = (([] : List Byte).flatMap (fun _ => []) ++ [true]).map BTok.bit ++ [] := by decide +kernel

/-- V-BLD-7. -/
theorem witness_DecodeWithoutEofNeverSucceeds :
    (treeOf (mapping [(65, 1), (66, 1)])).treeValid = true ∧ TreeShape (treeOf (mapping [(65, 1), (66, 1)])) ∧
      (treeOf (mapping [(65, 1), (66, 1)])).ft[eofKey] = none := by
  have hk : keys (mapping [(65, 1), (66, 1)]) ≠ [] := keys_ne (k := 65) (mem_keys.mpr (by decide +kernel))
  obtain ⟨n, c, r, e⟩ := treeOf_eq hk
  exact ⟨treeOf_valid hk, (tree_tables _).tree.valid (treeOf_valid hk), by rw [e]; exact (by decide +kernel : (mapping [(65, 1), (66, 1)])[eofKey] = none)⟩

theorem codes_ready : (codesOf ftAabbbc).ctReady = true := by
  obtain ⟨n, c, r, ct, e⟩ := codesOf_eq (keys_ne keys_aabbbc)
  rw [e]

theorem codes_ft : (codesOf ftAabbbc).ft = ftAabbbc := by
  obtain ⟨n, c, r, ct, e⟩ := codesOf_eq (keys_ne keys_aabbbc)
  rw [e]

theorem codes_shape : TreeShape (codesOf ftAabbbc) :=
  (codes_tables _).tree.valid ((codes_tables _).code.tree codes_ready)

theorem witness_EncodeDecodeRoundTrip :
    ∃ s u t : State, s.CodeOk ∧ s.ctReady = true ∧ TreeShape s ∧ s.ft[eofKey].isSome = true ∧
      (∀ v ∈ [97#8], s.ft[byteKey v].isSome = true) ∧ s.yin = [97#8].map YTok.byte ++ .endTok :: [] ∧ s.boutReady = .all ∧
      u.treeValid = true ∧ u.nodeCnt = s.nodeCnt ∧ u.root = s.root ∧
      (∀ n : NodeIdx, n.val < s.nodeCnt.val → nodeAt u n = nodeAt s n) ∧ u.youtReady = .all ∧ exec .encode s = .next t := by
  have h1 : ftAabbbc[eofKey].isSome = true ∧ ∀ v ∈ [97#8], ftAabbbc[byteKey v].isSome = true := by decide +kernel
  have h2 := codes_ready
  have h3 := codes_shape
  have h4 := (codes_tables ftAabbbc).code
  rw [← codes_ft] at h1
  generalize codesOf ftAabbbc = c at *
  exact ⟨{ c with yin := yinOf [97#8], boutReady := .all }, { c with youtReady := .all }, _, h4.congr rfl rfl rfl rfl rfl rfl rfl, h2,
    h3.congr rfl rfl rfl rfl, h1.1, h1.2, rfl, rfl, h4.tree h2, rfl, rfl, fun _ _ => rfl, rfl, rfl⟩

theorem witness_HdrWriteWritesTheHeader : State.reset.youtReady = .all := rfl

theorem witness_HdrWriteLength :
    ({ State.reset with ft := Vector.replicate 257 (some 4294967295#32) } : State).byteCount = 0#64 ∧
      keys (Vector.replicate 257 (some 4294967295#32)) ≠ [] ∧
      (∀ k : Key, (Vector.replicate 257 (some 4294967295#32))[k] = some 4294967295#32) ∧
      ∃ t, exec .hdrWrite { State.reset with ft := Vector.replicate 257 (some 4294967295#32) } = .next t :=
  ⟨rfl, keys_ne (k := 0) (mem_keys.mpr (by simp)), fun k => by simp [Fin.getElem_fin], _, rfl⟩

/-- "{97:2}". -/
def entry : HdrEntry := ⟨[9, 7], [2]⟩

theorem entry_ok : EntriesOk [entry] :=
  ⟨fun e he => by obtain rfl := List.mem_singleton.mp he; exact ⟨by decide, by decide⟩, by decide⟩

theorem no_entries_ok : EntriesOk [] := ⟨fun _ h => by simp at h, by simp⟩

theorem witness_HdrReadAcceptsHeaders :
    EntriesOk [entry] ∧ EntriesOk [] ∧
      ({ State.reset with yin := (hdrText [entry]).map YTok.byte ++ [.endTok] } : State).yin =
        (hdrText [entry]).map YTok.byte ++ [.endTok] := ⟨entry_ok, no_entries_ok, rfl⟩

theorem no_digit {v : Byte} (h : ∀ d, v ≠ digitChar d) : NoDigit (.byte v) := fun d e => h d (by injection e)

theorem end_no_digit : NoDigit .endTok := fun _ e => by cases e

/-- Each offence of rule R182, at a boundary: V-HDR-11 to V-HDR-24. -/
theorem witness_HdrReadReportsOffences :
    Offence [] .endTok ∧ Offence [0x7B#8] .endTok ∧
      Offence (0x7B#8 :: entriesOpen [entry]) (.byte 0x7D#8) ∧
      Offence (0x7B#8 :: entriesOpen [] ++ [9, 7].map digitChar) (.byte 0x20#8) ∧
      Offence (0x7B#8 :: entriesOpen [] ++ [2, 5].map digitChar) (.byte (digitChar 7)) ∧
      Offence (0x7B#8 :: entriesOpen [entry] ++ [9, 7].map digitChar) (.byte 0x3A#8) ∧
      Offence (0x7B#8 :: entriesOpen [] ++ [9, 7].map digitChar ++ [0x3A#8]) (.byte 0x2D#8) ∧
      Offence (0x7B#8 :: entriesOpen [] ++ [9, 7].map digitChar ++ 0x3A#8 :: [4, 2, 9, 4, 9, 6, 7, 2, 9].map digitChar)
        (.byte (digitChar 6)) ∧
      Offence (0x7B#8 :: entriesOpen [] ++ entry.text) .endTok ∧
      Offence (0x7B#8 :: entriesOpen [] ++ entry.text ++ [0x2C#8]) (.byte 0x39#8) := by
  refine ⟨.noBrace _ (by decide), .noFirstKey _ end_no_digit (by decide), .noKey _ _ entry_ok (by simp) (no_digit (by decide)),
    .noColon [] _ _ no_entries_ok (by simp) (by decide) (no_digit (by decide)) (by decide),
    .keyLimit [] _ _ no_entries_ok (by decide) (by decide), .keyTwice _ _ entry_ok (by simp) (by decide),
    .noValue [] _ _ no_entries_ok (by simp) (by decide) (by simp) (no_digit (by decide)),
    .valueLimit [] _ _ _ no_entries_ok (by simp) (by decide) (by simp) (by decide) (by decide),
    .noSeparator [] _ _ entry_ok end_no_digit (by decide) (by decide), .noSpace [] _ _ entry_ok (by decide)⟩

theorem witness_HdrRoundTrip : State.reset.youtReady = .all ∧ ∃ t, exec .hdrWrite State.reset = .next t := ⟨rfl, _, rfl⟩

theorem witness_CommandsLeaveHostRegisters : ∃ t, exec .hdrRead { State.reset with ovr := true, ftIdx := 5#9 } = .next t := ⟨_, rfl⟩

theorem witness_TableWriters :
    (∃ t, exec .encode State.reset = .next t) ∧ Instr.encode ∉ [Instr.clear, .freqCount, .hdrRead, .buildTree, .genCodes] :=
  ⟨⟨_, rfl⟩, by decide⟩

theorem witness_PortUse :
    (∃ t, exec .encode State.reset = .next t) ∧ (∃ t, exec .decode treeAAAA = .next t) ∧ ∃ t, exec .nop State.reset = .next t :=
  ⟨⟨_, rfl⟩, ⟨_, rfl⟩, _, rfl⟩

/-- One state for each clause of the statement. -/
theorem witness_ErrorCodesOfCommands :
    ([seen (exec .buildTree State.reset) (fun t => (t.err, t.errCode)),
      seen (exec .encode { State.reset with yin := [.endTok] }) (fun t => (t.err, t.errCode)),
      seen (exec .decode { treeAAAA with bin := [.endTok] }) (fun t => (t.err, t.errCode)),
      seen (exec .decode State.reset) (fun t => (t.err, t.errCode)),
      seen (exec .genCodes State.reset) (fun t => (t.err, t.errCode)),
      seen (exec .hdrRead { State.reset with yin := [.endTok] }) (fun t => (t.err, t.errCode))] =
      [some (true, 1#4), some (true, 2#4), some (true, 3#4), some (true, 4#4), some (true, 4#4), some (true, 5#4)]) ∧
    State.reset.err = false ∧ treeAAAA.err = false := by decide +kernel

theorem witness_BadAccessIsABusError :
    State.reset.rst = false ∧ Width.w64 ≠ .w32 ∧ Width.w8 ≠ .w32 ∧ (0x7D#7).toNat % 4 ≠ 0 ∧ (0x01#7).toNat % 4 ≠ 0 := by decide

theorem witness_RegisterReads : State.reset.rst = false ∧ State.reset.busy = false := by decide

theorem witness_StatusFieldsAndClears : State.reset.rst = false := rfl

theorem witness_WritesOfTheOtherRegisters :
    State.reset.rst = false ∧ (0x7C#7).toNat % 4 = 0 ∧ (0x7C#7) ∉ [0x00#7, 0x04#7, 0x08#7, 0x28#7, 0x34#7, 0x60#7] := by decide

/-- The last key, the first index past the table, and an absent entry. -/
theorem witness_FrequencyTableWindow :
    eofKey.val = ({ State.reset with ftIdx := 256#9 } : State).ftIdx.toNat ∧ ftAabbbc[eofKey] = some 1#32 ∧
      256 < ({ State.reset with ftIdx := 257#9 } : State).ftIdx.toNat ∧ State.reset.ft[eofKey] = none ∧
      State.reset.rst = false ∧ State.reset.busy = false := by decide +kernel

theorem witness_CodeTableWindow :
    State.reset.CodeOk ∧ (codesOf ftAabbbc).CodeOk ∧
      eofKey.val = ({ State.reset with ctIdx := 256#9 } : State).ctIdx.toNat ∧
      256 < ({ State.reset with ctIdx := 257#9 } : State).ctIdx.toNat ∧ State.reset.rst = false ∧ State.reset.busy = false :=
  ⟨codeOk_of_empty rfl fun k => emptyTable_getElem k, (codes_tables _).code, by decide, by decide, rfl, rfl⟩

theorem witness_NodeWindow :
    treeAAAA.rst = false ∧ treeAAAA.busy = false ∧ (2 : NodeIdx).val = ({ treeAAAA with nodeIdx := 2#10 } : State).nodeIdx.toNat ∧
      (2 : NodeIdx).val < treeAAAA.nodeCnt.val ∧
      treeAAAA.nodeCnt.val ≤ ({ treeAAAA with nodeIdx := 3#10 } : State).nodeIdx.toNat := by decide

theorem witness_ReadsAndWritesWhileBusy :
    waiting.rst = false ∧ waiting.busy = true ∧ (0x0C#7).toNat % 4 = 0 ∧
      (0x0C#7) ∉ [0x00#7, 0x04#7, 0x08#7, 0x28#7, 0x34#7, 0x3C#7, 0x60#7, 0x78#7, 0x7C#7] := by decide

theorem witness_InterruptFollowsDone :
    (∃ t, exec .nop { State.reset with irqEn := true } = .next t ∧ t.seq = .idle) ∧ State.reset.rst = false ∧
      (0x2#32).getLsbD 1 = true ∧ State.reset.busy = false := ⟨⟨_, rfl, rfl⟩, rfl, by decide, rfl⟩

/-- Rule R242, after the end state of program P2: BIN still holds "000" and End, and asserting RST or draining BIN clears them. Rule
R247: a bit offered since then stays offered through the drain, and so does a bit a running command may take. -/
theorem test_only_leftovers_are_drained :
    seen (step { State.reset with bin := [.bit false, .bit false, .bit false, .endTok], binLeft := 4, host := [.assertRst] })
        (fun t => (t.bin, t.binBack)) = some ([], [.bit false, .bit false, .bit false, .endTok]) ∧
      seen (step { State.reset with bin := [.bit false, .endTok, .bit true], binLeft := 2, host := [.drainBin] })
        (fun t => (t.bin, t.binBack)) = some ([.bit true], [.bit false, .endTok]) ∧
      seen (step { waiting with bin := [.bit false], binLeft := 1, host := [.drainBin] }) (fun t => (t.bin, t.binBack)) =
        some ([.bit false], []) := by
  decide +kernel

/-- Rules R64 and R247: tokens offered before RST that are no leftovers stay offered through it, those of an abandoned FREQ_COUNT too,
and a FREQ_COUNT after the release reads them. -/
theorem test_rst_keeps_offers :
    seen (step { State.reset with yin := [.byte 97#8, .endTok], host := [.assertRst] }) (fun t => (t.yin, t.yinBack)) =
        some ([.byte 97#8, .endTok], []) ∧
      seen (step { waiting with yin := [.byte 97#8], yinLeft := 1, host := [.assertRst] }) (fun t => (t.yin, t.yinBack)) =
        some ([.byte 97#8], []) ∧
      seen (step (State.withFetchWord { State.reset with yin := [.byte 97#8, .endTok] } 32 2)) (fun t => (t.yin, t.busy, t.err)) =
        some ([], false, false) := by
  decide +kernel

theorem witness_ResetAbandonsTheCommand :
    ({ waiting with host := [.assertRst] } : State).host = .assertRst :: [] ∧ waiting.hold = 0 ∧
      ({ State.reset with rst := true, host := [.releaseRst] } : State).rst = true ∧
      ({ State.reset with rst := true, host := [.releaseRst] } : State).host = .releaseRst :: [] ∧ State.reset.hold = 0 ∧
      ({ State.reset with yin := [.endTok], yinLeft := 1 } : State).PortsOk ∧
      ({ State.reset with yin := [.endTok], yinLeft := 1 } : State).seq = .idle ∧ waiting.seq = .freqCount ∧
      ({ State.reset with busy := true, seq := .decodeRead 0 } : State).seq = .decodeRead 0 :=
  ⟨by decide, by decide, by decide, by decide, by decide, ⟨fun _ => by decide, fun _ => by decide⟩, rfl, rfl, rfl⟩

theorem waiting_control : waiting.ControlOk :=
  ⟨by simp [State.BusyOk, waiting], ⟨rfl, rfl⟩, ⟨fun _ => ⟨rfl, rfl⟩, fun _ => ⟨rfl, rfl⟩, by decide⟩, fun e => by cases e⟩

theorem waiting_sound : waiting.Sound :=
  ⟨waiting_control, treeOk_of_invalid rfl rfl rfl, codeOk_of_empty rfl fun k => emptyTable_getElem k,
    ⟨rfl, rfl, emptyTable_getElem eofKey⟩, ⟨fun _ => Nat.zero_le _, fun _ => Nat.zero_le _⟩⟩

theorem witness_StepKeepsControl : waiting.ControlOk ∧ ∃ t, step waiting = .next t := ⟨waiting_control, _, rfl⟩

theorem witness_StepKeepsSound : waiting.Sound ∧ ∃ t, step waiting = .next t := ⟨waiting_sound, _, rfl⟩

theorem witness_SoundStepGoesOn : waiting.Sound := waiting_sound

/-- The codec is idle and its ports empty once the codes of a mapping are there. -/
theorem codesOf_idle {ft : FreqTable} (h : keys ft ≠ []) : (codesOf ft).ControlOk ∧ (codesOf ft).PortsOk := by
  obtain ⟨n, c, r, ct, e⟩ := codesOf_eq h
  generalize codesOf ft = s at *
  have h1 : s.busy = false ∧ s.seq = .idle ∧ s.pq = [] ∧ s.walk = [] := by rw [e]; exact ⟨rfl, rfl, rfl, rfl⟩
  have h2 : s.errCode = 0#4 ∧ s.errInfo = 0#32 ∧ s.rst = false := by rw [e]; exact ⟨rfl, rfl, rfl⟩
  have h3 : s.yinLeft = 0 ∧ s.binLeft = 0 := by rw [e]; exact ⟨rfl, rfl⟩
  exact ⟨⟨by simp [State.BusyOk, h1], ⟨h1.2.2.1, h1.2.2.2⟩,
      ⟨fun h => (by rw [h1.1] at h; cases h), fun _ => ⟨h2.1, h2.2.1⟩, by rw [h2.1]; decide⟩,
      fun h => by rw [h2.2.2] at h; cases h⟩,
    ⟨fun _ => by simp [h3], fun _ => by simp [h3]⟩⟩

theorem witness_CodeTableIsPrefixFree : (codesOf ftAabbbc).Sound ∧ (codesOf ftAabbbc).ctReady = true ∧ 97 ∈ keys ftAabbbc := by
  have h := codes_tables ftAabbbc
  have g := codesOf_idle (keys_ne keys_aabbbc)
  refine ⟨⟨g.1, h.tree, h.code, h.run, g.2⟩, codes_ready, keys_aabbbc⟩

end Sys2Proof.Tests
end

section
/-! O7 and O8: a command left waiting, resumed with more tokens or with full acceptance, is the command that had them from its start
(rules R15, R64 to R67). Only the five commands with a port loop can wait (`WaitsIn`), and each loop has its own law in Laws/Resume. -/

namespace Sys2Proof.Machine

open Sys2Proof

/-! ### The commands that can wait -/

/-- The commands that can be left waiting, each with the loop that leaves `t` from the start `s` (rule R69). -/
inductive WaitsIn : Instr → State → State → Prop where
  | freqCount (s : State) : WaitsIn .freqCount s (freqLoop s.yin (clearFt (invalidateTree s)))
  | hdrWrite (s : State) : WaitsIn .hdrWrite s (putLoop (headerText s.ft) s)
  | hdrRead (s : State) : WaitsIn .hdrRead s (hdrLoop s.yin 0 .brace (clearFt (invalidateTree s)))
  | encode (s : State) : WaitsIn .encode s (encodeLoop s.yin s)
  | decode (s : State) (hv : s.treeValid = true) (hl : isLeaf s s.root = false) : WaitsIn .decode s (decodeLoop s.bin s.root s)

theorem waitsIn_of_exec {i : Instr} {s t : State} (h : exec i s = .next t) (hi : t.seq ≠ .idle) : WaitsIn i s t := by
  cases i with
  | nop => cases h; exact absurd rfl hi
  | clear => cases h; exact absurd rfl hi
  | freqCount => cases h; exact .freqCount s
  | hdrWrite => cases h; exact .hdrWrite s
  | hdrRead => cases h; exact .hdrRead s
  | buildTree =>
    rcases execBuildTree_cases s with ⟨hs, -⟩ | ⟨u, hs, -, hu⟩ <;> cases h.symm.trans hs
    · exact absurd rfl hi
    · exact absurd (by rw [hu]) hi
  | genCodes =>
    rcases execGenCodes_cases h with ⟨-, rfl⟩ | ⟨-, ht⟩
    · exact absurd rfl hi
    · exact absurd (by rw [ht]) hi
  | encode => cases h; exact .encode s
  | decode =>
    rcases execDecode_cases s with ⟨n, hs⟩ | hs | ⟨hv, hl, hs⟩ <;> cases h.symm.trans hs
    · exact absurd rfl hi
    · exact absurd rfl hi
    · exact .decode s hv hl

theorem execDecode_of_internal_root {s : State} (hv : s.treeValid = true) (hl : isLeaf s s.root = false) :
    execDecode s = .next (decodeLoop s.bin s.root s) := by
  simp [execDecode, hv, hl]

/-- The step after a change of the ports of a state that a command has left waiting resumes the command. -/
theorem step_waiting {i : Instr} {s t : State} (hh : s.host = []) (hr : s.rst = false) (h : exec i s = .next t) (hi : t.seq ≠ .idle)
    (u : State) (uhost : u.host = t.host) (urst : u.rst = t.rst) (useq : u.seq = t.seq) : step u = .next (resume u) := by
  obtain ⟨-, -, -, -, -, hrst, -, hhost, -⟩ := exec_untouched h
  have hp : pendingWord u = none := by
    rw [pendingWord, useq]; exact waiting_not_accepted h hi
  exact step_resume (by rw [uhost, hhost, hh]) (by rw [urst, hrst, hr]) hp

/-! ### A loop is given its tokens, and does not read them in the state -/

theorem freqLoop_set_yin (ts : List YTok) (s : State) (y : List YTok) : freqLoop ts { s with yin := y } = freqLoop ts s :=
  (freqLoop_over ts s y s.bin s.seq).trans (freqLoop_over ts s s.yin s.bin s.seq).symm

theorem hdrLoop_set_yin (ts : List YTok) (pos : Nat) (place : HdrPos) (s : State) (y : List YTok) :
    hdrLoop ts pos place { s with yin := y } = hdrLoop ts pos place s :=
  (hdrLoop_over ts pos place s y s.bin s.seq).trans (hdrLoop_over ts pos place s s.yin s.bin s.seq).symm

theorem encodeLoop_set_yin (ts : List YTok) (s : State) (y : List YTok) : encodeLoop ts { s with yin := y } = encodeLoop ts s :=
  (encodeLoop_over ts s y s.bin s.seq).trans (encodeLoop_over ts s s.yin s.bin s.seq).symm

theorem decodeLoop_set_bin (ts : List BTok) (cur : NodeIdx) (s : State) (b : List BTok) :
    decodeLoop ts cur { s with bin := b } = decodeLoop ts cur s :=
  (decodeLoop_over ts cur s s.yin b s.seq).trans (decodeLoop_over ts cur s s.yin s.bin s.seq).symm

/-! ### Where a command stays blocked (rule R218) -/

theorem resume_freqCount_blocked {u : State} (hq : u.seq = .freqCount) (hy : u.yin = []) : resume u = u := by
  rw [resume, hq]; simp only [hy]; rw [freqLoop, ← hy, ← hq]; rfl

theorem resume_hdrRead_blocked {u : State} {pos : Nat} {place : HdrPos} (hq : u.seq = .hdrRead pos place) (hy : u.yin = []) :
    resume u = u := by
  rw [resume, hq]; simp only [hy]; rw [hdrLoop, ← hy, ← hq]; rfl

theorem resume_hdrWrite_blocked {u : State} {c : Byte} {cs : List Byte} (hq : u.seq = .hdrWrite (c :: cs))
    (hr : u.youtReady = .upTo 0) : resume u = u := by
  have hw : writeYout c u = none := by simp [writeYout, hr, Acceptance.take]
  rw [resume, hq]; simp only; rw [putLoop, hw, ← hq]; rfl

/-! ### Tokens offered later -/

/-- The state after the host has offered more tokens on YIN and BIN (rules R64, R65). -/
def offerMore (more : List YTok) (bits : List BTok) (s : State) : State :=
  { s with yin := s.yin ++ more, bin := s.bin ++ bits }

theorem putLoop_offerMore (more : List YTok) (bits : List BTok) (cs : List Byte) (s : State) :
    putLoop cs (offerMore more bits s) = offerMore more bits (putLoop cs s) := by
  have hy : (putLoop cs s).yin = s.yin := by rw [putLoop_frame]
  have hb : (putLoop cs s).bin = s.bin := by rw [putLoop_frame]
  rw [offerMore, offerMore, hy, hb]
  exact putLoop_over cs s _ _

/-- A waiting HDR_WRITE reads no token: it stays, with or without them. -/
theorem putLoop_later_tokens (more : List YTok) (bits : List BTok) (cs : List Byte) (s : State) (h : (putLoop cs s).seq ≠ .idle) :
    resume (offerMore more bits (putLoop cs s)) = putLoop cs (offerMore more bits s) := by
  obtain ⟨c, cs', hq, hr⟩ := putLoop_waits cs s h
  rw [putLoop_offerMore]
  exact resume_hdrWrite_blocked hq hr

/-- A waiting command that is offered more tokens does what it does when they stand behind its own from the start. -/
theorem exec_offerMore_of_waiting {i : Instr} {s t : State} (more : List YTok) (bits : List BTok) (w : WaitsIn i s t) (hi : t.seq ≠ .idle) :
    exec i (offerMore more bits s) = .next (resume (offerMore more bits t)) := by
  cases w with
  | freqCount =>
    refine congrArg Host.Outcome.next (Eq.trans ?_ (freqLoop_later_tokens _ more bits _ hi).symm)
    exact freqLoop_set_yin _ { clearFt (invalidateTree s) with bin := s.bin ++ bits } _
  | hdrWrite => exact congrArg Host.Outcome.next (putLoop_later_tokens more bits _ s hi).symm
  | hdrRead =>
    refine congrArg Host.Outcome.next (Eq.trans ?_ (hdrLoop_later_tokens _ more bits 0 .brace _ hi).symm)
    exact hdrLoop_set_yin _ 0 .brace { clearFt (invalidateTree s) with bin := s.bin ++ bits } _
  | encode =>
    refine congrArg Host.Outcome.next (Eq.trans ?_ (encodeLoop_later_tokens _ more bits s hi).symm)
    exact encodeLoop_set_yin _ { s with bin := s.bin ++ bits } _
  | decode _ hv hl =>
    refine (execDecode_of_internal_root (s := offerMore more bits s) hv hl).trans (congrArg Host.Outcome.next ?_)
    refine Eq.trans ?_ (decodeLoop_later_tokens _ bits more _ s hi).symm
    exact decodeLoop_set_bin _ _ { s with yin := s.yin ++ more } _

/-- Settles O7: the next step resumes the waiting command, and each loop goes on with later tokens as with tokens it had at once. -/
theorem tokensOfferedLaterAreTheSame : Obligations.TokensOfferedLaterAreTheSame := by
  intro i s t more bits hh hr h hi
  exact (step_waiting hh hr h hi (offerMore more bits t) rfl rfl rfl).trans (exec_offerMore_of_waiting more bits (waitsIn_of_exec h hi) hi).symm

/-! ### Acceptance given later -/

/-- A waiting FREQ_COUNT writes no port: acceptance does not move it. -/
theorem freqLoop_later_acceptance (ts : List YTok) (s : State) (h : (freqLoop ts s).seq ≠ .idle) :
    resume (allAcc (freqLoop ts s)) = freqLoop ts (allAcc s) := by
  obtain ⟨hq, hy⟩ := freqLoop_waits ts s h
  exact (resume_freqCount_blocked (u := allAcc (freqLoop ts s)) hq hy).trans (freqLoop_acc ts s .all .all).symm

/-- A waiting HDR_READ writes no port: acceptance does not move it. -/
theorem hdrLoop_later_acceptance (ts : List YTok) (pos : Nat) (place : HdrPos) (s : State) (h : (hdrLoop ts pos place s).seq ≠ .idle) :
    resume (allAcc (hdrLoop ts pos place s)) = hdrLoop ts pos place (allAcc s) := by
  obtain ⟨_, _, hq, hy⟩ := hdrLoop_waits ts pos place s h
  exact (resume_hdrRead_blocked (u := allAcc (hdrLoop ts pos place s)) hq hy).trans (hdrLoop_acc ts pos place s .all .all).symm

/-- A waiting command that is then accepted without limit does what it does when the host accepts everything from the start. -/
theorem exec_allAcc_of_waiting {i : Instr} {s t : State} (w : WaitsIn i s t) (hi : t.seq ≠ .idle) :
    exec i (allAcc s) = .next (resume (allAcc t)) := by
  cases w with
  | freqCount => exact congrArg Host.Outcome.next (freqLoop_later_acceptance _ _ hi).symm
  | hdrWrite => exact congrArg Host.Outcome.next (putLoop_later_acceptance _ s hi).symm
  | hdrRead => exact congrArg Host.Outcome.next (hdrLoop_later_acceptance _ 0 .brace _ hi).symm
  | encode => exact congrArg Host.Outcome.next (encodeLoop_later_acceptance _ s hi).symm
  | decode _ hv hl =>
    exact (execDecode_of_internal_root (s := allAcc s) hv hl).trans (congrArg Host.Outcome.next (decodeLoop_later_acceptance _ _ s hi).symm)

/-- Settles O8: the next step resumes the waiting command, and each loop goes on with later acceptance as with acceptance at once. -/
theorem acceptanceGivenLaterIsTheSame : Obligations.AcceptanceGivenLaterIsTheSame := by
  intro i s t hh hr h hi
  exact (step_waiting hh hr h hi (allAcc t) rfl rfl rfl).trans (exec_allAcc_of_waiting (waitsIn_of_exec h hi) hi).symm

end Sys2Proof.Machine
end

section
/-! O56, O57, O58 and O60: soundness holds at reset and every step keeps it (rules R22, R34, R42, R47, R48, R230, R242), and what it says
of a code table that is ready. `step_keeps` is the one induction step: it cuts a step into the host's move and the codec's progress. -/

namespace Sys2Proof.Machine

open Sys2Proof

/-- A step is the codec's progress alone, the host's move and then progress, or the host's move alone (rules R15, R245). -/
theorem step_cases {s t : State} (h : step s = .next t) :
    progress s = .next t ∨ ∃ m rest,
      progress (hostMove m { s with host := rest }) = .next t ∨ t = hostMove m { s with host := rest, hold := s.hold - 1 } := by
  unfold step at h
  split at h
  · exact .inl h
  · rename_i m rest _
    split at h
    · exact .inr ⟨m, rest, .inl h⟩
    · cases h
      exact .inr ⟨m, rest, .inr rfl⟩

/-- What taking a move off the host's list, each move and the codec's progress keep, every step keeps. -/
theorem step_keeps {P : State → Prop} (take : ∀ s rest n, P s → P { s with host := rest, hold := n })
    (move : ∀ m s, P s → P (hostMove m s)) (prog : ∀ s t, P s → progress s = .next t → P t) {s t : State} (hs : P s)
    (h : step s = .next t) : P t := by
  rcases step_cases h with h | ⟨m, rest, h | rfl⟩
  · exact prog s t hs h
  · exact prog _ t (move m _ (take s rest s.hold hs)) h
  · exact move m _ (take s rest _ hs)

/-- Settles O57: the host's moves and the codec's progress each keep the control invariant. -/
theorem stepKeepsControl : Obligations.StepKeepsControl := fun _ _ hs h =>
  step_keeps (fun _ _ _ hs => hs.of_host rfl) (fun m _ hs => hostMove_control hs m) (fun _ _ hs h => progress_control hs h) hs h

theorem State.Sound.tables {s : State} (h : s.Sound) : TablesOk s := ⟨h.tree, h.code, h.run⟩

/-- The invariants of a sound state, those over the tables and the running command taken together. -/
theorem sound_of_tables {s : State} (hc : s.ControlOk) (ht : TablesOk s) (hp : s.PortsOk) : s.Sound :=
  ⟨hc, ht.tree, ht.code, ht.run, hp⟩

/-- A sound state stays sound whatever the host is to do next. -/
theorem State.Sound.take_move {s : State} (h : s.Sound) (rest : List HostMove) (n : Nat) :
    ({ s with host := rest, hold := n } : State).Sound :=
  sound_of_tables (h.control.of_host rfl) (h.tables.congr rfl rfl rfl rfl rfl rfl rfl rfl) (h.ports.congr rfl rfl rfl rfl rfl)

theorem hostMove_sound {s : State} (h : s.Sound) (m : HostMove) : (hostMove m s).Sound :=
  sound_of_tables (hostMove_control h.control m) (hostMove_tables h.tables m) (hostMove_ports h.control h.ports m)

theorem progress_sound {s t : State} (h : s.Sound) (e : progress s = .next t) : t.Sound :=
  sound_of_tables (progress_control h.control e) (progress_tables h.tables e) (progress_ports h.ports e)

/-- Settles O58: the host's moves and the codec's progress each keep every invariant of a sound state. -/
theorem stepKeepsSound : Obligations.StepKeepsSound := fun _ _ hs h =>
  step_keeps (fun _ rest n hs => hs.take_move rest n) (fun m _ hs => hostMove_sound hs m) (fun _ _ hs h => progress_sound hs h) hs h

/-- Settles O56: at reset there is no tree, no code and no leftover, and the control invariant is that of any reset. -/
theorem resetIsSound : Obligations.ResetIsSound :=
  sound_of_tables (resetCodec_control State.reset false) (.empty rfl rfl rfl rfl rfl trivial)
    ⟨fun _ => Nat.zero_le _, fun _ => Nat.zero_le _⟩

/-- An empty code is the code of a leaf at the root. -/
theorem IsCodeOf.root_leaf {s : State} {k : Key} (h : IsCodeOf s k []) : isLeaf s s.root = true := by
  obtain ⟨n, hlead, -, hleaf, -⟩ := h
  cases hlead
  exact hleaf

/-- Settles O60: two codes are paths to two leaves, so neither goes on into the other, and an empty one means a single key. -/
theorem codeTableIsPrefixFree : Obligations.CodeTableIsPrefixFree := by
  intro s hs hr
  have hv := hs.code.tree hr
  have hcode : ∀ k : Key, ∀ c, s.ct[k] = some c → IsCodeOf s k c := fun k c hc => (hs.code.path hr k c hc).2
  refine ⟨hv, hs.code.valid hr, hcode, fun j k c d hne hc hd hpre => ?_, fun hk k c hc hnil => ?_⟩
  · exact hne (code_unique (hcode j c hc) (hcode k d hd) hpre).1
  · subst hnil
    have := ((hs.tree.valid hv).single (hcode k [] hc).root_leaf).2
    omega

end Sys2Proof.Machine
end

section
/-! O40 and O41: which commands write which registers and tables (rules R33, R37 to R49, R242). Each lemma reads one field off the frames
of the port loops and off the outcomes of BUILD_TREE, GEN_CODES and DECODE. -/

namespace Sys2Proof.Machine

open Sys2Proof

/-- The leftovers of a port change only where a command that reads the port ends (rules R69, R242). -/
theorem exec_leftovers {i : Instr} {s t : State} (h : exec i s = .next t) :
    (i ∉ [.freqCount, .encode, .hdrRead] → t.yinLeft = s.yinLeft) ∧ (i ≠ .decode → t.binLeft = s.binLeft) := by
  cases i with
  | nop => cases h; exact ⟨fun _ => rfl, fun _ => rfl⟩
  | clear => cases h; exact ⟨fun _ => rfl, fun _ => rfl⟩
  | freqCount => cases h; rw [freqLoop_frame]; exact ⟨absurd (by decide), fun _ => rfl⟩
  | hdrWrite => cases h; rw [putLoop_frame]; exact ⟨fun _ => rfl, fun _ => rfl⟩
  | hdrRead => cases h; rw [hdrLoop_frame]; exact ⟨absurd (by decide), fun _ => rfl⟩
  | buildTree =>
    rcases execBuildTree_cases s with ⟨h1, -⟩ | ⟨u, h1, -, hu⟩ <;> cases h.symm.trans h1
    · exact ⟨fun _ => rfl, fun _ => rfl⟩
    · rw [hu]; exact ⟨fun _ => rfl, fun _ => rfl⟩
  | genCodes =>
    rcases execGenCodes_cases h with ⟨-, rfl⟩ | ⟨-, ht⟩
    · exact ⟨fun _ => rfl, fun _ => rfl⟩
    · rw [ht]; exact ⟨fun _ => rfl, fun _ => rfl⟩
  | encode => cases h; rw [encodeLoop_frame]; exact ⟨absurd (by decide), fun _ => rfl⟩
  | decode =>
    rcases execDecode_cases s with ⟨n, h1⟩ | h1 | ⟨-, -, h1⟩ <;> cases h.symm.trans h1
    · exact ⟨fun _ => rfl, absurd rfl⟩
    · exact ⟨fun _ => rfl, absurd rfl⟩
    · rw [decodeLoop_frame]; exact ⟨fun _ => rfl, absurd rfl⟩

/-- Settles O40: no command's outcome differs from its start in what `Untouched` names, nor in the leftovers of a port it does not read. -/
theorem commandsLeaveHostRegisters : Obligations.CommandsLeaveHostRegisters := by
  intro i s t h
  obtain ⟨hovr, hirq, hft, hct, hnode, hrst, hresp, hhost, hhold, hyback, hbback⟩ := exec_untouched h
  exact ⟨hovr, hirq, hft, hct, hnode, hrst, hresp, hhost, hhold, hyback, hbback, exec_leftovers h⟩

/-- `t` has the tables of `s`: its mapping, its tree and its code table. -/
structure SameTables (s t : State) : Prop where
  ft : t.ft = s.ft
  node : t.node = s.node
  tree : t.nodeCnt = s.nodeCnt ∧ t.root = s.root ∧ t.treeValid = s.treeValid
  codes : t.ct = s.ct ∧ t.ctReady = s.ctReady

/-- NOP, HDR_WRITE, ENCODE and DECODE write no table (rules R37, R40, R41, R43). -/
theorem exec_sameTables {i : Instr} {s t : State} (h : exec i s = .next t) (hi : i ∈ [.nop, .hdrWrite, .encode, .decode]) :
    SameTables s t := by
  cases i with
  | nop => cases h; exact ⟨rfl, rfl, ⟨rfl, rfl, rfl⟩, rfl, rfl⟩
  | hdrWrite => cases h; rw [putLoop_frame]; exact ⟨rfl, rfl, ⟨rfl, rfl, rfl⟩, rfl, rfl⟩
  | encode => cases h; rw [encodeLoop_frame]; exact ⟨rfl, rfl, ⟨rfl, rfl, rfl⟩, rfl, rfl⟩
  | decode =>
    rcases execDecode_cases s with ⟨n, h1⟩ | h1 | ⟨-, -, h1⟩ <;> cases h.symm.trans h1
    · exact ⟨rfl, rfl, ⟨rfl, rfl, rfl⟩, rfl, rfl⟩
    · exact ⟨rfl, rfl, ⟨rfl, rfl, rfl⟩, rfl, rfl⟩
    · rw [decodeLoop_frame]; exact ⟨rfl, rfl, ⟨rfl, rfl, rfl⟩, rfl, rfl⟩
  | _ => exact absurd hi (by decide)

/-- GEN_CODES writes no table but CT (rules R40, R41, R143). -/
theorem execGenCodes_tables {s t : State} (h : execGenCodes s = .next t) :
    t.ft = s.ft ∧ t.node = s.node ∧ t.nodeCnt = s.nodeCnt ∧ t.root = s.root ∧ t.treeValid = s.treeValid := by
  rcases execGenCodes_cases h with ⟨-, rfl⟩ | ⟨-, ht⟩
  · exact ⟨rfl, rfl, rfl, rfl, rfl⟩
  · rw [ht]; exact ⟨rfl, rfl, rfl, rfl, rfl⟩

/-- BUILD_TREE reads FT and does not write it (rule R40). -/
theorem execBuildTree_ft {s t : State} (h : execBuildTree s = .next t) : t.ft = s.ft := by
  rcases execBuildTree_cases s with ⟨h1, -⟩ | ⟨u, h1, -, hu⟩ <;> cases h.symm.trans h1
  · rfl
  · rw [hu]

/-- Settles O41: four commands write no table, GEN_CODES only CT, BUILD_TREE all but FT, and the three that write FT leave NODE. -/
theorem tableWriters : Obligations.TableWriters := by
  intro i s t h
  cases i with
  | nop | hdrWrite | encode | decode =>
    have same := exec_sameTables h (by decide)
    exact ⟨fun _ => same.ft, fun _ => same.node, fun _ => same.tree, fun _ => same.codes⟩
  | clear => cases h; exact ⟨absurd (by decide), fun _ => rfl, absurd (by decide), absurd (by decide)⟩
  | freqCount =>
    cases h; rw [freqLoop_frame]; exact ⟨absurd (by decide), fun _ => rfl, absurd (by decide), absurd (by decide)⟩
  | hdrRead =>
    cases h; rw [hdrLoop_frame]; exact ⟨absurd (by decide), fun _ => rfl, absurd (by decide), absurd (by decide)⟩
  | buildTree => exact ⟨fun _ => execBuildTree_ft h, absurd rfl, absurd (by decide), absurd (by decide)⟩
  | genCodes =>
    obtain ⟨hft, hnode, htree⟩ := execGenCodes_tables h
    exact ⟨fun _ => hft, fun _ => hnode, fun _ => htree, absurd (by decide)⟩

end Sys2Proof.Machine
end

section
/-! The register bus: what an access of an aligned 32-bit register does, the windows' entries, and registers as sums of their fields
(rules R30 to R46, R60 to R63). -/

namespace Sys2Proof.Machine

open Sys2Proof

/-! ### One access -/

/-- Out of reset a 32-bit read of a register that reads exactly answers its value and has no side effect (rules R62, R74). -/
theorem busRead_reg {s : State} {off : BitVec 7} {r : Reg} (hr : s.rst = false) (hoff : regAt off = some r)
    (hx : s.busy = false ∨ readsExactly r = true) :
    busRead off .w32 s = { s with responses := s.responses ++ [.value (regValue r s)] } := by
  have hfree : (s.busy && !readsExactly r) = false := by rcases hx with h | h <;> simp [h]
  rw [busRead, if_neg (by simp [hr]), accessed, hoff]
  exact if_neg (by simp [hfree])

/-- While BUSY = 0 every register reads exactly (rule R74). -/
theorem busRead_idle {s : State} (hr : s.rst = false) (hb : s.busy = false) {off : BitVec 7} (r : Reg) (hoff : regAt off = some r) :
    busRead off .w32 s = { s with responses := s.responses ++ [.value (regValue r s)] } :=
  busRead_reg hr hoff (.inl hb)

/-- Out of reset a 32-bit write at a register's offset is that register's write (rule R63). -/
theorem busWrite_reg {s : State} {off : BitVec 7} {r : Reg} (hr : s.rst = false) (hoff : regAt off = some r) (v : Word) :
    busWrite off .w32 v s = writeReg r v s := by
  simp only [busWrite, hr, accessed, hoff, Bool.false_eq_true, if_false]

/-- The registers a host write can change (rules R31 to R33, R38, R39, R46). -/
def hostWritable : List Reg := [.cmd, .status, .ctrl, .ftIdx, .ctIdx, .nodeIdx]

/-- The other registers ignore a write (rules R30, R63). -/
theorem writeReg_of_not_writable {r : Reg} (h : r ∉ hostWritable) (v : Word) (s : State) : writeReg r v s = s := by
  cases r with
  | cmd | status | ctrl | ftIdx | ctIdx | nodeIdx => exact absurd (by decide) h
  | _ => rfl

/-- Every multiple of 4 but the six writable offsets is the offset of a register that ignores writes. -/
theorem regAt_not_writable : ∀ off : BitVec 7, off.toNat % 4 = 0 → off ∉ [0x00#7, 0x04#7, 0x08#7, 0x28#7, 0x34#7, 0x60#7] →
    ∃ r ∈ regAt off, r ∉ hostWritable := by decide

theorem regAt_ctWord : ∀ k : Fin 8, regAt (BitVec.ofNat 7 (0x40 + 4 * k.val)) = some (.ctWord k) := by decide

/-- A CMD write out of reset is accepted or dropped by BUSY (rule R31). -/
theorem busWrite_cmd {s : State} (hr : s.rst = false) (w : Word) : busWrite 0x00#7 .w32 w s = writeCmd w s :=
  busWrite_reg (r := .cmd) hr rfl w

/-- A write of FT_IDX keeps bits 8:0 (rule R38). -/
theorem busWrite_ftIdx {s : State} (hr : s.rst = false) (v : Word) :
    busWrite 0x28#7 .w32 v s = { s with ftIdx := v.extractLsb' 0 9 } := by
  rw [busWrite_reg hr (r := .ftIdx) rfl, ← BitVec.setWidth_eq_extractLsb' (by decide)]
  rfl

/-- A write of CT_IDX keeps bits 8:0 (rule R39). -/
theorem busWrite_ctIdx {s : State} (hr : s.rst = false) (v : Word) :
    busWrite 0x34#7 .w32 v s = { s with ctIdx := v.extractLsb' 0 9 } := by
  rw [busWrite_reg hr (r := .ctIdx) rfl, ← BitVec.setWidth_eq_extractLsb' (by decide)]
  rfl

/-- A write of NODE_IDX keeps bits 9:0 (rule R46). -/
theorem busWrite_nodeIdx {s : State} (hr : s.rst = false) (v : Word) :
    busWrite 0x60#7 .w32 v s = { s with nodeIdx := v.extractLsb' 0 10 } := by
  rw [busWrite_reg hr (r := .nodeIdx) rfl, ← BitVec.setWidth_eq_extractLsb' (by decide)]
  rfl

/-- An accepted word that decodes to a command is run by the codec's next progress (rules R31, R73 b). -/
theorem progress_of_accepted {s : State} {w : Word} {i : Instr} (hr : s.rst = false) (hq : s.seq = .accepted w)
    (hd : decode w = .command i) : progress s = exec i s := by
  simp only [progress, hr, pendingWord, hq, runWord, hd, Bool.false_eq_true, if_false]

/-! ### The windows -/

theorem ftWindow_of_key {s : State} {k : Key} (hk : k.val = s.ftIdx.toNat) : ftWindow s = s.ft[k] := by
  simp only [ftWindow, ← hk, k.isLt, dite_true, Fin.getElem_fin]

theorem ftWindow_out_of_range {s : State} (h : 256 < s.ftIdx.toNat) : ftWindow s = none := dif_neg (by omega)

theorem ctWindow_of_key {s : State} {k : Key} (hk : k.val = s.ctIdx.toNat) : ctWindow s = s.ct[k] := by
  simp only [ctWindow, ← hk, k.isLt, dite_true, Fin.getElem_fin]

theorem ctWindow_out_of_range {s : State} (h : 256 < s.ctIdx.toNat) : ctWindow s = none := dif_neg (by omega)

theorem nodeWindow_of_node {s : State} {n : NodeIdx} (hn : n.val = s.nodeIdx.toNat) (hlt : n.val < s.nodeCnt.val) :
    nodeWindow s = some (nodeAt s n) := by
  simp only [nodeWindow, ← hn, n.isLt, hlt, dite_true, if_true, nodeAt, Fin.getElem_fin]

theorem nodeWindow_out_of_range {s : State} (h : s.nodeCnt.val ≤ s.nodeIdx.toNat) : nodeWindow s = none := by
  unfold nodeWindow
  split
  · exact if_neg (by omega)
  · rfl

/-! ### Registers as sums of their fields -/

/-- A field above a word's other bits adds its value at its place. -/
theorem or_shiftLeft_toNat {x y : Word} {n : Nat} (hx : x.toNat < 2 ^ n) (hy : 2 ^ n * y.toNat < 2 ^ 32) :
    (x ||| y <<< n).toNat = x.toNat + 2 ^ n * y.toNat := by
  have hshift : (y <<< n).toNat = 2 ^ n * y.toNat := by
    rw [BitVec.toNat_shiftLeft, Nat.shiftLeft_eq, Nat.mul_comm, Nat.mod_eq_of_lt hy]
  rw [BitVec.toNat_or, hshift, Nat.or_comm, ← Nat.two_pow_add_eq_or_of_lt hx, Nat.add_comm]

theorem flagBit_eq_shiftLeft (b : Bool) (n : Nat) : flagBit b n = (BitVec.ofBool b).setWidth 32 <<< n := by
  cases b <;> simp [flagBit]

/-- A flag above a word's other bits adds its bit's weight, and leaves the word below the next bit. -/
theorem or_flagBit_toNat {x : Word} {v n : Nat} (hn : n < 32) (hx : x.toNat = v ∧ v < 2 ^ n) (b : Bool) :
    (x ||| flagBit b n).toNat = v + 2 ^ n * b.toNat ∧ v + 2 ^ n * b.toNat < 2 ^ (n + 1) := by
  have hb : ((BitVec.ofBool b).setWidth 32).toNat = b.toNat := by cases b <;> rfl
  have hbit : 2 ^ n * b.toNat ≤ 2 ^ n * 1 := Nat.mul_le_mul_left (2 ^ n) (Bool.toNat_le b)
  have hpow : 2 ^ n < 2 ^ 32 := Nat.pow_lt_pow_right (by decide) hn
  refine ⟨?_, by omega⟩
  rw [flagBit_eq_shiftLeft, or_shiftLeft_toNat (hx.1 ▸ hx.2) (by rw [hb]; omega), hx.1, hb]

theorem flagBit_zero_toNat (b : Bool) : (flagBit b 0).toNat = b.toNat := by cases b <;> rfl

/-- STATUS is the sum of its fields at their bits (rule R32). -/
theorem statusWord_toNat (s : State) :
    (statusWord s).toNat = s.busy.toNat + 2 * s.done.toNat + 4 * s.err.toNat + 8 * s.ovr.toNat + 16 * s.treeValid.toNat
      + 32 * s.ctReady.toNat + 256 * s.errCode.toNat := by
  have busy : (flagBit s.busy 0).toNat = s.busy.toNat ∧ s.busy.toNat < 2 ^ 1 :=
    ⟨flagBit_zero_toNat s.busy, Nat.lt_succ_of_le (Bool.toNat_le s.busy)⟩
  have done := or_flagBit_toNat (n := 1) (by decide) busy s.done
  have err := or_flagBit_toNat (n := 2) (by decide) done s.err
  have ovr := or_flagBit_toNat (n := 3) (by decide) err s.ovr
  have treeValid := or_flagBit_toNat (n := 4) (by decide) ovr s.treeValid
  obtain ⟨hval, hlt⟩ := or_flagBit_toNat (n := 5) (by decide) treeValid s.ctReady
  have hcode : (s.errCode.setWidth 32).toNat = s.errCode.toNat := BitVec.toNat_setWidth_of_le (by decide)
  rw [statusWord, or_shiftLeft_toNat (by omega) (by omega), hval, hcode]
  omega

/-- A register with a flag in bit 31 over a smaller field. -/
theorem flagBit_31_or_toNat (b : Bool) {x : Word} {v : Nat} (hx : x.toNat = v ∧ v < 2 ^ 31) :
    (flagBit b 31 ||| x).toNat = 2 ^ 31 * b.toNat + v := by
  rw [BitVec.or_comm, (or_flagBit_toNat (by decide) hx b).1, Nat.add_comm]

/-- A code in the table has at most 256 bits (rules R8, R48). -/
theorem State.CodeOk.length_le {s : State} (h : s.CodeOk) {k : Key} {c : Path} (hc : s.ct[k] = some c) : c.length ≤ 256 := by
  rcases hr : s.ctReady with _ | _
  · rw [h.empty hr k] at hc
    cases hc
  · exact (h.path hr k c hc).1

/-- CT_LEN of a valid entry: bit 31 and the code's length (rule R39). -/
theorem ctLen_toNat {s : State} {c : Path} (hw : ctWindow s = some c) (hc : c.length ≤ 256) :
    (regValue .ctLen s).toNat = 2 ^ 31 + c.length := by
  have hlen : (BitVec.ofNat 32 c.length).toNat = c.length := by
    rw [BitVec.toNat_ofNat, Nat.mod_eq_of_lt (by omega)]
  simp only [regValue, hw]
  exact flagBit_31_or_toNat true ⟨hlen, by omega⟩

/-- Bit j of CT_WORDk is code bit 32k + j (rule R39). -/
theorem codeWord_getLsbD (c : Path) (k : Fin 8) {j : Nat} (hj : j < 32) :
    (codeWord c k).getLsbD j = c.getD (32 * k.val + j) false := by
  rw [codeWord, BitVec.getLsbD_setWidth, BitVec.getLsbD_ofBoolListLE]
  simp [hj, List.getD_eq_getElem?_getD, List.getElem?_drop]

/-- A node index in a register is that number. -/
theorem nodeWord_toNat (n : NodeIdx) : (nodeWord n).toNat = n.val := by
  have := n.isLt
  rw [nodeWord, BitVec.toNat_ofNat, Nat.mod_eq_of_lt (by omega)]

/-- NODE_WEIGHT_LO and NODE_WEIGHT_HI together are the weight, and the high one has nine bits (rule R46). -/
theorem weight_halves (w : Weight) :
    2 ^ 32 * ((w.extractLsb' 32 9).setWidth 32).toNat + (w.extractLsb' 0 32).toNat = w.toNat ∧
      ((w.extractLsb' 32 9).setWidth 32).toNat < 2 ^ 9 := by
  have := w.isLt
  simp only [BitVec.toNat_setWidth, BitVec.extractLsb'_toNat, Nat.shiftRight_eq_div_pow]
  omega

/-- NODE_INFO of a node: leaf in bit 31 and the symbol (rule R46). -/
theorem nodeInfo_toNat {s : State} {n : Node} (hw : nodeWindow s = some n) :
    (regValue .nodeInfo s).toNat = 2 ^ 31 * n.leaf.toNat + n.sym.toNat := by
  have hsym : (n.sym.setWidth 32).toNat = n.sym.toNat := BitVec.toNat_setWidth_of_le (by decide)
  simp only [regValue, hw]
  exact flagBit_31_or_toNat n.leaf ⟨hsym, by omega⟩

end Sys2Proof.Machine
end

section
/-! O4, O5, O45 to O50 and O53: each register read, written or shown by a window as rules R30 to R46 say, and the values it has at reset
(rule R50). -/

namespace Sys2Proof.Machine

open Sys2Proof

/-! ### CMD -/

/-- Settles O4: the write is accepted, and the same step's progress decodes and runs the word. -/
theorem stepRunsDecodedCommand : Obligations.StepRunsDecodedCommand := by
  intro s w i rest hb hr hh hhost hd
  have haccept : busWrite 0x00#7 .w32 w { s with host := rest } = accept w { s with host := rest } :=
    (busWrite_cmd (s := { s with host := rest }) hr w).trans (if_neg (by simp [hb]))
  rw [step, hhost]
  exact (if_pos hh).trans ((congrArg progress haccept).trans
    (progress_of_accepted (s := accept w { s with host := rest }) hr rfl hd))

/-- Settles O5: a write of CMD is `accept` or `dropCommand` by BUSY, and an accepted word is what progress runs. -/
theorem commandWriteAcceptsOrDrops : Obligations.CommandWriteAcceptsOrDrops := by
  intro s w hr
  refine ⟨fun hb => (busWrite_cmd hr w).trans (if_neg (by simp [hb])), fun hb => (busWrite_cmd hr w).trans (if_pos hb),
    busRead_reg (r := .cmd) hr rfl (.inr rfl), fun i hd hhost hq => ?_⟩
  rw [step, hhost]
  exact progress_of_accepted hr hq hd

/-! ### Registers without a window -/

/-- Settles O45: each offset's register reads exactly while BUSY = 0. -/
theorem registerReads : Obligations.RegisterReads := by
  intro s hr hb
  have read {off : BitVec 7} (r : Reg) (hoff : regAt off = some r) := busRead_idle hr hb r hoff
  simp only [List.forall_mem_cons]
  exact ⟨read .cmd rfl, read .errInfo rfl, read .bitCountLo rfl, read .bitCountHi rfl, read .byteCountLo rfl,
    read .byteCountHi rfl, read .root rfl, read .nodeCnt rfl, read .ftIdx rfl, read .ctIdx rfl, read .nodeIdx rfl,
    read .id rfl, read .unmapped rfl, read .unmapped rfl, List.forall_mem_nil _⟩

/-- Settles O46: STATUS is the sum of its fields, and its write clears the bits written 1. -/
theorem statusFieldsAndClears : Obligations.StatusFieldsAndClears := by
  intro s hr
  refine ⟨busRead_reg (r := .status) hr rfl (.inr rfl), statusWord_toNat s, fun v => ?_⟩
  rw [busWrite_reg (r := .status) hr rfl, writeReg, writeStatus]
  simp only [Bool.if_false_left, Bool.decide_eq_true, Bool.and_comm]

/-- Settles O47: the writable registers keep their low bits, and at every other aligned offset stands a register that ignores writes. -/
theorem writesOfTheOtherRegisters : Obligations.WritesOfTheOtherRegisters := by
  intro s v hr
  refine ⟨busWrite_reg (r := .ctrl) hr rfl v, ⟨ctrlWord s, busRead_reg (r := .ctrl) hr rfl (.inr rfl), flagBit_zero_toNat s.irqEn⟩,
    busWrite_ftIdx hr v, busWrite_ctIdx hr v, busWrite_nodeIdx hr v, fun off h4 hoff => ?_⟩
  obtain ⟨r, hreg, hw⟩ := regAt_not_writable off h4 hoff
  rw [busWrite_reg hr hreg, writeReg_of_not_writable hw]

/-! ### Windows -/

/-- Settles O48: the window shows the entry FT_IDX names, or none. -/
theorem frequencyTableWindow : Obligations.FrequencyTableWindow := by
  intro s hr
  refine ⟨busWrite_ftIdx hr, fun hb => ⟨_, _, busRead_idle hr hb .ftCount rfl, busRead_idle hr hb .ftPres rfl, ?_, ?_⟩⟩
  · intro hout
    simp [regValue, ftWindow_out_of_range hout, flagBit]
  · intro k hk
    constructor
    · intro habsent
      simp [regValue, ftWindow_of_key hk, habsent, flagBit]
    · intro c hpresent
      simp [regValue, ftWindow_of_key hk, hpresent, flagBit]

/-- Settles O49: the window shows the code CT_IDX names, or none; the code table's invariant bounds its length. -/
theorem codeTableWindow : Obligations.CodeTableWindow := by
  intro s hr
  refine ⟨busWrite_ctIdx hr, fun hb hok => ⟨_, fun k => regValue (.ctWord k) s, busRead_idle hr hb .ctLen rfl,
    fun k => busRead_idle hr hb (.ctWord k) (regAt_ctWord k), ?_, ?_⟩⟩
  · intro hout
    simp [regValue, ctWindow_out_of_range hout]
  · intro k hk
    have hwin := ctWindow_of_key hk
    constructor
    · intro hinvalid
      simp [regValue, hwin, hinvalid]
    · intro c hvalid
      rw [hvalid] at hwin
      refine ⟨ctLen_toNat hwin (hok.length_le hvalid), fun j i hi => ?_⟩
      simp only [regValue, hwin]
      exact codeWord_getLsbD c j hi

/-- Settles O50: the window shows the node NODE_IDX names, or none. -/
theorem nodeWindowReads : Obligations.NodeWindow := by
  intro s hr
  refine ⟨busWrite_nodeIdx hr, fun hb => ⟨_, _, _, _, _, busRead_idle hr hb .nodeInfo rfl, busRead_idle hr hb .nodeZero rfl,
    busRead_idle hr hb .nodeOne rfl, busRead_idle hr hb .nodeWeightLo rfl, busRead_idle hr hb .nodeWeightHi rfl, ?_, ?_⟩⟩
  · intro hout
    simp [regValue, nodeWindow_out_of_range hout]
  · intro n hn hlt
    have hwin := nodeWindow_of_node hn hlt
    refine ⟨nodeInfo_toNat hwin, ?_⟩
    simp only [regValue, hwin]
    exact ⟨nodeWord_toNat _, nodeWord_toNat _, weight_halves _⟩

/-! ### Reset -/

/-- Settles O53: every register is 0 and every table empty at reset, and ID reads its constant. -/
theorem resetValues : Obligations.ResetValues :=
  ⟨rfl, rfl, rfl, rfl, rfl, rfl, rfl, rfl, rfl, rfl, emptyTable_getElem, fun n => Vector.getElem_replicate n.isLt, emptyTable_getElem,
    rfl, rfl, rfl, busRead_reg (r := .id) rfl rfl (.inr rfl)⟩

end Sys2Proof.Machine
end

section
/-! O44 and O51: a bad bus access, and the reads and writes that reach the codec while a command runs (rules R60, R62, R74). -/

namespace Sys2Proof.Machine

open Sys2Proof

/-! ### Bad accesses (rule R60) -/

theorem regAt_of_unaligned : ∀ off : BitVec 7, off.toNat % 4 ≠ 0 → regAt off = none := by decide

/-- An access of another width than 32 bits, or at an offset that is no multiple of 4, reaches no register (rule R60). -/
theorem accessed_of_bad {off : BitVec 7} {width : Width} (h : width ≠ .w32 ∨ off.toNat % 4 ≠ 0) : accessed off width = none := by
  cases width with
  | w32 => exact regAt_of_unaligned off (h.resolve_left (absurd rfl))
  | w8 | w16 | w64 => rfl

/-- Settles O44: a bad access reaches no register, so its response, and a read's free value, is all it leaves. -/
theorem badAccessIsABusError : Obligations.BadAccessIsABusError := by
  intro s off width v hr hbad
  rw [busWrite, busRead, accessed_of_bad hbad, if_neg (by simp [hr]), if_neg (by simp [hr])]
  exact ⟨rfl, rfl⟩

/-! ### While a command runs (rule R74) -/

/-- While BUSY = 1 a read of a register that does not read exactly answers a free value (rule R74). -/
theorem busRead_unspecified {s : State} {off : BitVec 7} {r : Reg} (hr : s.rst = false) (hb : s.busy = true) (hoff : regAt off = some r)
    (hx : readsExactly r = false) :
    busRead off .w32 s = { s with
      responses := s.responses ++ [.value (Config.freeWord s.freeCtr)], freeCtr := s.freeCtr + 1 } := by
  rw [busRead, if_neg (by simp [hr]), accessed, hoff]
  exact if_pos (by simp [hb, hx])

/-- Every multiple of 4 but the nine offsets that read exactly is the offset of a register that does not. -/
theorem regAt_unspecified : ∀ off : BitVec 7, off.toNat % 4 = 0 →
    off ∉ [0x00#7, 0x04#7, 0x08#7, 0x28#7, 0x34#7, 0x3C#7, 0x60#7, 0x78#7, 0x7C#7] →
    ∃ r ∈ regAt off, readsExactly r = false := by decide

/-- A write of CTRL keeps bit 0 (rule R33). -/
theorem busWrite_ctrl {s : State} (hr : s.rst = false) (v : Word) : busWrite 0x08#7 .w32 v s = { s with irqEn := v.getLsbD 0 } :=
  busWrite_reg (r := .ctrl) hr rfl v

/-- Settles O51: BUSY decides only the reads of the registers that rule R74 leaves unspecified, and no write of an index register or of
CTRL. -/
theorem readsAndWritesWhileBusy : Obligations.ReadsAndWritesWhileBusy := by
  intro s hr
  refine ⟨fun hb off h4 hoff => ?_, ?_,
    fun v => ⟨busWrite_ctrl hr v, busWrite_ftIdx hr v, busWrite_ctIdx hr v, busWrite_nodeIdx hr v⟩⟩
  · obtain ⟨r, hreg, hx⟩ := regAt_unspecified off h4 hoff
    exact busRead_unspecified hr hb hreg hx
  · have read {off : BitVec 7} (r : Reg) (hoff : regAt off = some r) (hx : readsExactly r = true) := busRead_reg hr hoff (.inr hx)
    simp only [List.forall_mem_cons]
    exact ⟨read .status rfl rfl, read .ctrl rfl rfl, read .id rfl rfl, read .ftIdx rfl rfl, read .ctIdx rfl rfl,
      read .nodeIdx rfl rfl, List.forall_mem_nil _⟩

end Sys2Proof.Machine
end

section
/-! O16: FREQ_COUNT over bytes without End (rules R64, R110, R113, R218). -/

namespace Sys2Proof.Machine

open Sys2Proof

theorem countOf_empty (k : Key) : countOf (Vector.replicate 257 none) k = 0#32 := by simp [countOf]

/-- FREQ_COUNT counts bytes, none more than COUNT_MAX times, from an empty FT, and goes on with the tokens after them (rule R110). -/
theorem execFreqCount_bytes {s : State} {bs : List Byte} {rest : List YTok} (hyin : s.yin = bs.map YTok.byte ++ rest)
    (hmax : ∀ v, bs.count v ≤ Config.countMax) :
    ∃ ft : FreqTable,
      execFreqCount s = .next (freqLoop rest { clearFt (invalidateTree s) with
        ft := ft, byteCount := s.byteCount + BitVec.ofNat 64 bs.length }) ∧
      ft[eofKey] = none ∧ ∀ v : Byte, ft[byteKey v] = if v ∈ bs then some (BitVec.ofNat 32 (bs.count v)) else none := by
  obtain ⟨ft, hloop, heof, hbyte⟩ := freqLoop_bytes bs rest (clearFt (invalidateTree s)) fun v => by
    simpa [countOf_empty] using hmax v
  refine ⟨ft, ?_, ?_, fun v => ?_⟩
  · rw [execFreqCount, hyin, hloop]; rfl
  · rw [heof, clearFt_ft, emptyTable_getElem]
  · rw [hbyte v, clearFt_ft, countOf_empty, emptyTable_getElem]; simp

/-- Settles O16: the bytes are counted and the loop is left with no token, so it waits at its read. -/
theorem freqCountWaitsForEnd : Obligations.FreqCountWaitsForEnd := by
  intro s bs hyin hmax
  obtain ⟨ft, hexec, heof, hbyte⟩ := execFreqCount_bytes (rest := []) (hyin.trans (List.append_nil _).symm) hmax
  exact ⟨ft, hexec, heof, hbyte⟩

end Sys2Proof.Machine
end

section
/-! O42 and O9: the ports each command uses (rule R69), and what it sends while the host accepts a limited number of tokens (rules R66,
R67). -/

namespace Sys2Proof.Machine

open Sys2Proof

/-! ### Port use -/

/-- `t` has the ports of `s`: the tokens offered, those sent and what the host accepts. -/
structure SamePorts (s t : State) : Prop where
  yin : t.yin = s.yin
  bin : t.bin = s.bin
  yout : t.yout = s.yout ∧ t.youtReady = s.youtReady
  bout : t.bout = s.bout ∧ t.boutReady = s.boutReady

/-- The four commands without a port loop use no port (rule R69). -/
theorem exec_samePorts {i : Instr} {s t : State} (h : exec i s = .next t) (hi : i ∈ [.nop, .clear, .buildTree, .genCodes]) :
    SamePorts s t := by
  cases i with
  | nop | clear => cases h; exact ⟨rfl, rfl, ⟨rfl, rfl⟩, rfl, rfl⟩
  | buildTree =>
    rcases execBuildTree_cases s with ⟨h1, -⟩ | ⟨u, h1, -, hu⟩ <;> cases h.symm.trans h1
    · exact ⟨rfl, rfl, ⟨rfl, rfl⟩, rfl, rfl⟩
    · rw [hu]; exact ⟨rfl, rfl, ⟨rfl, rfl⟩, rfl, rfl⟩
  | genCodes =>
    rcases execGenCodes_cases h with ⟨-, rfl⟩ | ⟨-, ht⟩
    · exact ⟨rfl, rfl, ⟨rfl, rfl⟩, rfl, rfl⟩
    · rw [ht]; exact ⟨rfl, rfl, ⟨rfl, rfl⟩, rfl, rfl⟩
  | _ => exact absurd hi (by decide)

/-- DECODE without a tree to walk, or with a leaf as its root, uses no port (rules R162, R163). -/
theorem execDecode_samePorts {s t : State} (h : execDecode s = .next t) (hwalk : ¬(s.treeValid = true ∧ isLeaf s s.root = false)) :
    SamePorts s t := by
  rcases execDecode_cases s with ⟨n, h1⟩ | h1 | ⟨hv, hl, -⟩
  · cases h.symm.trans h1; exact ⟨rfl, rfl, ⟨rfl, rfl⟩, rfl, rfl⟩
  · cases h.symm.trans h1; exact ⟨rfl, rfl, ⟨rfl, rfl⟩, rfl, rfl⟩
  · exact absurd ⟨hv, hl⟩ hwalk

/-- DECODE takes bits off the front of BIN, adds bytes after what YOUT has sent, and uses no other port (rule R69). -/
theorem execDecode_ports {s t : State} (h : execDecode s = .next t) :
    t.yin = s.yin ∧ (∃ used, s.bin = used ++ t.bin) ∧ (∃ sent, t.yout = s.yout ++ sent) ∧
      t.bout = s.bout ∧ t.boutReady = s.boutReady := by
  by_cases hwalk : s.treeValid = true ∧ isLeaf s s.root = false
  · cases h.symm.trans (execDecode_of_internal_root hwalk.1 hwalk.2)
    obtain ⟨taken, sent⟩ := decodeLoop_ports s.bin s.root s
    rw [decodeLoop_frame]
    exact ⟨rfl, taken, sent, rfl, rfl⟩
  · have same := execDecode_samePorts h hwalk
    exact ⟨same.yin, ⟨[], same.bin.symm⟩, ⟨[], by rw [same.yout.1, List.append_nil]⟩, same.bout⟩

/-- Settles O42: four commands use no port, and each of the others only the ports of its loop. -/
theorem portUse : Obligations.PortUse := by
  intro i s t h
  cases i with
  | nop | clear | buildTree | genCodes =>
    have same := exec_samePorts h (by decide)
    exact ⟨same.yin, same.bin, same.yout, same.bout⟩
  | freqCount =>
    cases h
    rw [freqLoop_frame]
    exact ⟨freqLoop_yin s.yin (clearFt (invalidateTree s)), rfl, ⟨rfl, rfl⟩, rfl, rfl⟩
  | hdrRead =>
    cases h
    rw [hdrLoop_frame]
    exact ⟨hdrLoop_yin s.yin 0 .brace (clearFt (invalidateTree s)), rfl, ⟨rfl, rfl⟩, rfl, rfl⟩
  | hdrWrite =>
    cases h
    rw [putLoop_frame]
    exact ⟨rfl, rfl, putLoop_yout (headerText s.ft) s, rfl, rfl⟩
  | encode =>
    cases h
    obtain ⟨taken, sent⟩ := encodeLoop_ports s.yin s
    rw [encodeLoop_frame]
    exact ⟨taken, rfl, ⟨rfl, rfl⟩, sent⟩
  | decode => exact execDecode_ports h

/-- Only DECODE and HDR_WRITE send bytes (rule R69). -/
theorem exec_yout_unchanged {i : Instr} {s t : State} (h : exec i s = .next t) (hi : i ∉ [.decode, .hdrWrite]) : t.yout = s.yout := by
  obtain ⟨-, -, hyout, -⟩ := portUse i s t h
  rw [if_neg hi] at hyout
  exact hyout.1

/-- Only ENCODE sends bits (rule R69). -/
theorem exec_bout_unchanged {i : Instr} {s t : State} (h : exec i s = .next t) (hi : i ≠ .encode) : t.bout = s.bout := by
  obtain ⟨-, -, -, hbout⟩ := portUse i s t h
  rw [if_neg hi] at hbout
  exact hbout.1

/-! ### Limited acceptance -/

/-- The state with the host accepting `n` more tokens on each output port (rules R66, R67); `allAcc` is the one with no limit. -/
def limitAcc (n : Nat) (s : State) : State := { s with youtReady := .upTo n, boutReady := .upTo n }

/-- A port that gets nothing more, with or without a limit, gets the first `n` of no tokens. -/
theorem append_take_of_unchanged {α : Type} {before limited full : List α} (n : Nat) (hfull : full = before)
    (hlimited : limited = before) : ∃ tokens, full = before ++ tokens ∧ limited = before ++ tokens.take n :=
  ⟨[], by rw [hfull, List.append_nil], by rw [hlimited, List.take_nil, List.append_nil]⟩

/-- DECODE sends the first `n` of its bytes. -/
theorem execDecode_limited {s t u : State} {n : Nat} (ht : execDecode (limitAcc n s) = .next t) (hu : execDecode (allAcc s) = .next u) :
    ∃ bytes, u.yout = s.yout ++ bytes ∧ t.yout = s.yout ++ bytes.take n := by
  by_cases hwalk : s.treeValid = true ∧ isLeaf s s.root = false
  · obtain ⟨hv, hl⟩ := hwalk
    cases ht.symm.trans (execDecode_of_internal_root (s := limitAcc n s) hv hl)
    cases hu.symm.trans (execDecode_of_internal_root (s := allAcc s) hv hl)
    exact decodeLoop_limited s.bin s.root s n (.upTo n)
  · exact append_take_of_unchanged n (execDecode_samePorts hu hwalk).yout.1 (execDecode_samePorts ht hwalk).yout.1

/-- Every command sends the first `n` of its bytes. -/
theorem exec_yout_limited {i : Instr} {s t u : State} {n : Nat} (ht : exec i (limitAcc n s) = .next t)
    (hu : exec i (allAcc s) = .next u) : ∃ bytes, u.yout = s.yout ++ bytes ∧ t.yout = s.yout ++ bytes.take n := by
  cases i with
  | decode => exact execDecode_limited ht hu
  | hdrWrite =>
    cases ht
    cases hu
    exact ⟨headerText s.ft, by rw [putLoop_all rfl]; rfl, putLoop_limited (headerText s.ft) (limitAcc n s) n rfl⟩
  | _ =>
    exact append_take_of_unchanged n (exec_yout_unchanged (s := allAcc s) hu (by decide)) (exec_yout_unchanged (s := limitAcc n s) ht (by decide))

/-- Every command sends the first `n` of its bits. -/
theorem exec_bout_limited {i : Instr} {s t u : State} {n : Nat} (ht : exec i (limitAcc n s) = .next t)
    (hu : exec i (allAcc s) = .next u) : ∃ bits, u.bout = s.bout ++ bits ∧ t.bout = s.bout ++ bits.take n := by
  by_cases hi : i = .encode
  · subst hi
    cases ht
    cases hu
    exact encodeLoop_limited s.yin s n (.upTo n)
  · exact append_take_of_unchanged n (exec_bout_unchanged (s := allAcc s) hu hi) (exec_bout_unchanged (s := limitAcc n s) ht hi)

/-- Settles O9: a port's loop stops where acceptance ends, with the first `n` tokens sent; a port without a loop has none to send. -/
theorem limitedAcceptanceSendsAPrefix : Obligations.LimitedAcceptanceSendsAPrefix := by
  intro i s t u n ht hu
  obtain ⟨bytes, hubytes, htbytes⟩ := exec_yout_limited ht hu
  obtain ⟨bits, hubits, htbits⟩ := exec_bout_limited ht hu
  exact ⟨bytes, bits, hubytes, hubits, htbytes, htbits⟩

end Sys2Proof.Machine
end

section
/-! O2, O3, O1 and O59: a word is the word of one command or of none (rules R80 to R82, R84), a CMD write runs what its word is, and no
step from a sound state stops the codec (rules R81, R143, R201). -/

namespace Sys2Proof

/-! ### The fields of a command word (rule R80) -/

theorem cmdFields_op_toNat (w : Word) : (cmdFields w).op.toNat = w.toNat % 16 := by
  simp [cmdFields]

/-- RSVD holds all the bits above OP, so none of them is lost where it is compared with 0. -/
theorem reservedZero_iff (w : Word) : (cmdFields w).reservedZero = true ↔ w.toNat / 16 = 0 := by
  have hrsvd : (cmdFields w).rsvd.toNat = w.toNat / 16 := by
    simp only [cmdFields, BitVec.extractLsb'_toNat, Nat.shiftRight_eq_div_pow]
    omega
  rw [CmdWord.reservedZero, beq_iff_eq, ← BitVec.toNat_inj, hrsvd]
  rfl

/-- With RSVD = 0 the word is its OP field, zero-extended. -/
theorem op_setWidth_of_reservedZero {w : Word} (h : (cmdFields w).reservedZero = true) : (cmdFields w).op.setWidth 32 = w := by
  have hhigh := (reservedZero_iff w).mp h
  apply BitVec.eq_of_toNat_eq
  rw [BitVec.toNat_setWidth, cmdFields_op_toNat]
  omega

/-! ### The opcode map (rule R82) -/

/-- The word of the command that an OP value names is that value. -/
theorem encode_of_opCommand : ∀ op : BitVec 4, ∀ i ∈ opCommand op, encode i = op.setWidth 32 := by decide

/-- The reserved OP values are those from 9 on (rule R84). -/
theorem opCommand_eq_none_iff : ∀ op : BitVec 4, opCommand op = none ↔ 9 ≤ op.toNat := by decide

theorem encoding_statement (i : Instr) : Laws.Encoding.Statement i := by
  cases i with
  | nop => exact Laws.Encoding.nop
  | clear => exact Laws.Encoding.clear
  | freqCount => exact Laws.Encoding.freqCount
  | hdrWrite => exact Laws.Encoding.hdrWrite
  | hdrRead => exact Laws.Encoding.hdrRead
  | buildTree => exact Laws.Encoding.buildTree
  | genCodes => exact Laws.Encoding.genCodes
  | encode => exact Laws.Encoding.encode
  | decode => exact Laws.Encoding.decode

@[simp] theorem decode_encode (i : Instr) : decode (encode i) = .command i := by
  obtain ⟨-, -, hdecode⟩ := encoding_statement i
  exact hdecode

/-! ### What a word decodes to (rule R81) -/

/-- The two outcomes of decode: RSVD is 0 and OP names a command, or one of them fails and the word itself is reported. -/
theorem decode_cases (w : Word) :
    (∃ i, decode w = .command i ∧ (cmdFields w).reservedZero = true ∧ opCommand (cmdFields w).op = some i) ∨
      (decode w = .illegalCommand w ∧ ((cmdFields w).reservedZero = true → opCommand (cmdFields w).op = none)) := by
  rw [decode]
  by_cases hz : (cmdFields w).reservedZero = true
  · rcases hop : opCommand (cmdFields w).op with _ | i
    · exact .inr ⟨if_pos hz, fun _ => rfl⟩
    · exact .inl ⟨i, if_pos hz, hz, rfl⟩
  · exact .inr ⟨if_neg hz, fun h => absurd h hz⟩

/-- A word decodes to a command exactly when it is that command's word. -/
theorem decode_eq_command_iff {w : Word} {i : Instr} : decode w = .command i ↔ encode i = w := by
  constructor
  · intro h
    rcases decode_cases w with ⟨j, hj, hz, hop⟩ | ⟨hill, -⟩
    · cases hj.symm.trans h
      exact (encode_of_opCommand _ i hop).trans (op_setWidth_of_reservedZero hz)
    · cases hill.symm.trans h
  · rintro rfl
    exact decode_encode i

/-- A word is IllegalCommand exactly when a reserved bit is set or its OP is reserved. -/
theorem decode_eq_illegalCommand_iff (w : Word) : decode w = .illegalCommand w ↔ (w.toNat / 16 ≠ 0 ∨ 9 ≤ w.toNat % 16) := by
  rw [Ne, ← reservedZero_iff, ← cmdFields_op_toNat, ← opCommand_eq_none_iff, ← imp_iff_not_or]
  rcases decode_cases w with ⟨i, hi, hz, hop⟩ | ⟨hill, hnone⟩
  · simp [hi, hz, hop]
  · exact iff_of_true hill hnone

theorem decodeTableWord_encode (i : Instr) : decodeTableWord 32 (encode i).toNat = some i := by
  have hword : tableWord 32 (encode i).toNat = encode i := by
    rw [tableWord, Nat.mod_eq_of_lt (encode i).isLt, BitVec.ofNat_toNat, BitVec.setWidth_eq]
  rw [decodeTableWord, hword, decode_encode]

/-- Settles O2: a word decodes to a command exactly when it is that command's word, and a table row's word is the word itself. -/
theorem decodeEncodeAgree : Obligations.DecodeEncodeAgree :=
  ⟨fun i _ => decode_encode i, fun _ _ => decode_eq_command_iff.mp, fun i _ => decodeTableWord_encode i⟩

/-- Settles O1: the nine words are the commands' encodings, and the other two have a reserved OP and a reserved bit set. -/
theorem tableWordsDecode : Obligations.TableWordsDecode :=
  ⟨decode_encode .nop, decode_encode .clear, decode_encode .freqCount, decode_encode .hdrWrite, decode_encode .hdrRead,
    decode_encode .buildTree, decode_encode .genCodes, decode_encode .encode, decode_encode .decode,
    (decode_eq_illegalCommand_iff 0x9#32).mpr (.inr (by decide)), (decode_eq_illegalCommand_iff 0x10#32).mpr (.inl (by decide))⟩

namespace Machine

/-! ### The step of a CMD write, and the step of a sound state -/

/-- A CMD write to an idle codec is accepted, and the same step runs its word, whatever it decodes to (rules R31, R73 b). -/
theorem step_cmdWrite {s : State} {w : Word} {rest : List HostMove} (hb : s.busy = false) (hr : s.rst = false) (hh : s.hold = 0)
    (hhost : s.host = .write 0x00#7 .w32 w :: rest) : step s = runWord w (accept w { s with host := rest }) := by
  have haccept : busWrite 0x00#7 .w32 w { s with host := rest } = accept w { s with host := rest } :=
    (busWrite_cmd (s := { s with host := rest }) hr w).trans (if_neg (by simp [hb]))
  rw [step, hhost]
  calc _ = progress (busWrite 0x00#7 .w32 w { s with host := rest }) := if_pos hh
    _ = progress (accept w { s with host := rest }) := congrArg progress haccept
    _ = runWord w (accept w { s with host := rest }) := if_neg (by simp [hr])

/-- Settles O3: the write is accepted; a word with a reserved bit or OP is then raised, and any other is the word of the command run. -/
theorem everyWordRunsOrIsIllegal : Obligations.EveryWordRunsOrIsIllegal := by
  refine ⟨decode_eq_illegalCommand_iff, fun s w rest hb hr hh hhost => ?_⟩
  have hstep := step_cmdWrite hb hr hh hhost
  rw [runWord] at hstep
  split
  · next hill =>
    rw [(decode_eq_illegalCommand_iff w).mpr hill] at hstep
    exact hstep
  · next hlegal =>
    rcases decode_cases w with ⟨i, hi, -, -⟩ | ⟨hill, -⟩
    · rw [hi] at hstep
      exact ⟨i, decode_eq_command_iff.mp hi, hstep⟩
    · exact absurd ((decode_eq_illegalCommand_iff w).mp hill) hlegal

/-- Settles O59: a host move keeps the state sound and cannot stop, and the codec's progress goes on wherever the arena is a tree. -/
theorem soundStepGoesOn : Obligations.SoundStepGoesOn := by
  intro s h
  unfold step
  split
  · exact progress_goes h.tree
  · next m rest _ =>
    split
    · exact progress_goes (hostMove_sound (h.take_move rest s.hold) m).tree
    · exact ⟨_, rfl⟩

end Machine
end Sys2Proof
end

section
/-! O11 and O12: what NOP and CLEAR do, with the shared table operations that CLEAR runs (40_control.md). -/

namespace Sys2Proof.Machine

open Sys2Proof

/-! ### The two commands and their parts -/

/-- NOP is `finish` alone (rule R100). -/
theorem exec_nop (s : State) : exec .nop s = .next (finish s) := rfl

/-- CLEAR runs InvalidateTree, then ClearFT, then `finish` (rule R102). -/
theorem exec_clear (s : State) : exec .clear s = .next (finish (clearFt (invalidateTree s))) := rfl

/-- InvalidateTree with ClearFT leaves no mapping, tree or code, and the arena's entries as they were (rules R101, R103, R104). -/
theorem clearFt_invalidateTree (s : State) :
    clearFt (invalidateTree s) = { s with
      ft := Vector.replicate 257 none, ct := Vector.replicate 257 none
      treeValid := false, ctReady := false, nodeCnt := 0, root := 0 } := rfl

/-- A command that ends right after its accept leaves DONE alone set beside OVR, TREE_VALID and CT_READY, bits 5:3 of STATUS, which
it keeps (rules R31, R32, R203). -/
theorem statusWord_finish_accept_toNat (w : Word) (s : State) :
    (statusWord (finish (accept w s))).toNat = 2 + 8 * ((statusWord s).toNat / 8 % 8) := by
  have hend : (statusWord (finish (accept w s))).toNat =
      2 + 8 * s.ovr.toNat + 16 * s.treeValid.toNat + 32 * s.ctReady.toNat := statusWord_toNat _
  have hbusy := Bool.toNat_le s.busy
  have hdone := Bool.toNat_le s.done
  have herr := Bool.toNat_le s.err
  have hovr := Bool.toNat_le s.ovr
  have htree := Bool.toNat_le s.treeValid
  have hct := Bool.toNat_le s.ctReady
  rw [hend, statusWord_toNat s]
  omega

/-! ### The obligations -/

/-- Settles O11: NOP is `finish`, the step of its write is accept and then that, and of STATUS the two keep bits 5:3 alone. -/
theorem nopOnlyEnds : Obligations.NopOnlyEnds := by
  refine ⟨exec_nop, fun s rest hb hr hh hhost => ?_⟩
  have hstep := stepRunsDecodedCommand s _ .nop rest hb hr hh hhost (decode_encode .nop)
  refine ⟨_, hstep.trans (exec_nop _), rfl, fun hstatus => BitVec.eq_of_toNat_eq ?_⟩
  calc _ = 2 + 8 * ((statusWord s).toNat / 8 % 8) := statusWord_finish_accept_toNat 0x00000000#32 s
    _ = (0x00000032#32).toNat := by rw [hstatus]; rfl

/-- Settles O12: CLEAR is `finish` after the two table operations, which empty FT and CT and drop the tree. -/
theorem clearEmptiesTables : Obligations.ClearEmptiesTables := fun s => by
  rw [exec_clear, clearFt_invalidateTree, finish]

end Sys2Proof.Machine
end

section
/-! O13, O14 and O15: the two ends of FREQ_COUNT, at End and at the byte that would pass COUNT_MAX (41_frequency.md). -/

namespace Sys2Proof.Machine

open Sys2Proof

/-! ### The ends of the counting loop -/

/-- End gives PSEUDO_EOF count 1 and ends the command successfully, with nothing left over (rules R111, R203, R242). -/
theorem freqLoop_endTok (ts : List YTok) (s : State) :
    freqLoop (.endTok :: ts) s = { s with
      ft := s.ft.set eofKey (some 1#32), yin := ts, yinLeft := 0, busy := false, done := true, seq := .idle } := by
  simp only [freqLoop, takeYin, setFt, spendYin, finish]

/-- A byte whose count is COUNT_MAX is still counted in BYTE_COUNT, empties FT and raises CountOverflow (rule R114). -/
theorem freqLoop_overflow {s : State} {v : Byte} (h : s.ft[byteKey v] = some (BitVec.ofNat 32 Config.countMax)) (ts : List YTok) :
    freqLoop (.byte v :: ts) s = { s with
      ft := Vector.replicate 257 none, byteCount := s.byteCount + 1#64, yin := ts, yinLeft := ts.length
      busy := false, done := true, err := true, errCode := 8#4, errInfo := v.setWidth 32, seq := .idle } := by
  have hfull : countFull v s = true := by rw [countFull, h, beq_self_eq_true]
  simp only [freqLoop, if_pos hfull, takeYin, countByte, clearFt, leaveYin, raise, ErrKind.code]

/-! ### The obligations -/

/-- Settles O13: the bytes are counted, and End adds PSEUDO_EOF, whose key is no byte's, and ends the command. -/
theorem freqCountCounts : Obligations.FreqCountCounts := by
  intro s bs rest hyin hmax
  obtain ⟨ft, hexec, -, hbyte⟩ := execFreqCount_bytes hyin hmax
  rw [freqLoop_endTok] at hexec
  refine ⟨ft.set eofKey (some 1#32), hexec, ?_, fun v => ?_⟩
  · rw [setTable_getElem, if_pos rfl]
  · rw [setTable_getElem, if_neg (byteKey_ne_eof v).symm, hbyte v]

/-- Settles O15: the bytes before the last are counted, which leaves that byte's entry at COUNT_MAX, and the loop overflows there. -/
theorem freqCountOverflow : Obligations.FreqCountOverflow := by
  intro s bs v rest hyin hmax hv
  obtain ⟨ft, hexec, -, hbyte⟩ := execFreqCount_bytes hyin hmax
  have hmem : v ∈ bs := List.count_pos_iff.mp (hv ▸ by decide)
  have hfull : ft[byteKey v] = some (BitVec.ofNat 32 Config.countMax) := by rw [hbyte v, if_pos hmem, hv]
  rw [freqLoop_overflow hfull] at hexec
  rw [BitVec.ofNat_add, ← BitVec.add_assoc]
  exact hexec

/-- Settles O14: the write is accepted and FREQ_COUNT run, whose loop stands at End with FT just emptied. -/
theorem freqCountOfEmptyInput : Obligations.FreqCountOfEmptyInput := by
  intro s rest more hb hr hh hhost hyin
  have hstep := stepRunsDecodedCommand s _ .freqCount more hb hr hh hhost (decode_encode .freqCount)
  rw [hstep, exec, execFreqCount, hyin, freqLoop_endTok, clearFt_invalidateTree]
  rfl

end Sys2Proof.Machine
end

section
/-! O17 to O21: the tree BUILD_TREE leaves, read off the forest its loop ends with (42_tree_builder.md). -/

namespace Sys2Proof.Machine

open Sys2Proof

/-! ### Keys and their leaves -/

theorem keys_ne_nil_of_some {ft : FreqTable} {k : Key} {a : Count} (h : ft[k] = some a) : keys ft ≠ [] :=
  List.ne_nil_of_mem (mem_keys.mpr (by rw [h]; rfl))

/-- In the tree BUILD_TREE leaves, a key's path leads to a node whose weight is the key's count (rules R120, R121). -/
theorem code_leads_to_count {s t : State} {k : Key} {a : Count} {c : Path} (h : execBuildTree s = .next t)
    (hk : s.ft[k] = some a) (hc : IsCodeOf t k c) : ∃ n, leads t t.root c = some n ∧ (nodeAt t n).weight.toNat = a.toNat := by
  obtain ⟨hG, hft, hleaf⟩ := execBuildTree_greedy (keys_ne_nil_of_some hk) h
  obtain ⟨n, hlead, hn, hl, hsym⟩ := hc
  obtain ⟨j, hj, hjsym⟩ := hG.shape.leaf_key hn hl
  obtain rfl : j = k := keySymbol_inj (hjsym.symm.trans hsym)
  refine ⟨n, hlead, ?_⟩
  rw [hleaf n j (hft ▸ hj), leafNode_weight, countOf, hk, Option.getD_some]

/-! ### The obligations -/

/-- Settles O17: the loop ends with a forest of one tree over the leaves, whose root's weight is the forest's total. -/
theorem buildTreeBuildsATree : Obligations.BuildTreeBuildsATree := by
  intro s hne
  obtain ⟨v, r, hF, hr, hcnt, hleaf, hstale, hv, he⟩ := execBuildTree_eq s hne
  have hroot : (nodeAt v r).weight.toNat = countSum s.ft := by
    rw [← hF.total, hr, weightSum_cons]; rfl
  have hframe : finish (setRoot r { v with pq := [] }) = { s with
      node := v.node, nodeCnt := v.nodeCnt, root := r, treeValid := true
      ctReady := false, ct := Vector.replicate 257 none, pq := [], busy := false, done := true, seq := .idle } := by
    rw [hv]; rfl
  exact ⟨_, he, hframe, (execBuildTree_greedy hne he).1.shape, hcnt, hleaf, hF.marker, hroot, hstale⟩

/-- Settles O18: the loop keeps, of every internal node, that it joined the two least nodes then in the queue. -/
theorem buildTreeIsGreedy : Obligations.BuildTreeIsGreedy := by
  intro s hne
  obtain ⟨v, r, -, -, -, -, -, -, he⟩ := execBuildTree_eq s hne
  exact ⟨_, he, (execBuildTree_greedy hne he).1.greedy⟩

/-- Settles O19: without a key the queue is empty before and after the loop, and BUILD_TREE raises at its start. -/
theorem buildTreeOfEmptyMapping : Obligations.BuildTreeOfEmptyMapping := by
  intro s hnil
  rw [exec, execBuildTree_empty s hnil]
  rfl

/-- Settles O20: two runs from equal mappings keep equal queues and equal arenas below NODE_CNT, round by round. -/
theorem buildTreeDependsOnFtAlone : Obligations.BuildTreeDependsOnFtAlone := by
  intro s u t v hft ht hv
  obtain ⟨t', v', ht', hv', hvalid, hcnt, hroot, hnode⟩ := execBuildTree_congr hft
  cases ht.symm.trans ht'
  cases hv.symm.trans hv'
  exact ⟨hvalid.symm, hcnt.symm, hroot.symm, fun n hn => (hnode n hn).symm⟩

/-- Settles O21: the rarer key's leaf is the lighter one, and in a greedy tree a lighter node is no nearer to the root. -/
theorem rarerSymbolsHaveNoShorterCodes : Obligations.RarerSymbolsHaveNoShorterCodes := by
  intro s t j k a b c d ht hj hk hlt hc hd
  have hG := (execBuildTree_greedy (keys_ne_nil_of_some hj) ht).1
  obtain ⟨x, hx, hxw⟩ := code_leads_to_count ht hj hc
  obtain ⟨y, hy, hyw⟩ := code_leads_to_count ht hk hd
  have hless : KeyLess t x y := .inl (by rw [hxw, hyw]; exact hlt)
  exact hG.depth c hx hy (.inr hless)

end Sys2Proof.Machine
end

section
/-! O32: DECODE over the tree of a mapping without PSEUDO_EOF meets no leaf that ends it successfully (rules R127, R164). -/

namespace Sys2Proof.Machine

open Sys2Proof

/-- Without a PSEUDO_EOF key no leaf of the tree is PSEUDO_EOF's (rule R47). -/
theorem TreeShape.not_eofLeaf {s : State} (h : TreeShape s) (heof : s.ft[eofKey] = none) {n : NodeIdx} (hn : n.val < s.nodeCnt.val)
    (hl : isLeaf s n = true) : isEofLeaf s n = false := by
  obtain ⟨k, hk, hsym⟩ := h.leaf_key hn hl
  have hpresent : s.ft[k].isSome = true := mem_keys.mp (List.mem_of_getElem? hk)
  have hne : k ≠ eofKey := by rintro rfl; rw [heof] at hpresent; cases hpresent
  rw [isEofLeaf, hsym, keySymbol_toNat, beq_eq_false_iff_ne]
  exact fun e => hne (Fin.ext e)

/-- A tree of a mapping without PSEUDO_EOF whose root is no leaf: what DECODE's loop walks on (rules R127, R160). -/
structure EofFreeTree (s : State) : Prop where
  shape : TreeShape s
  noEof : s.ft[eofKey] = none
  inner : isLeaf s s.root = false

theorem TreeShape.root_lt {s : State} (h : TreeShape s) : s.root.val < s.nodeCnt.val := by
  have := h.count
  omega

/-- To emit a leaf's byte leaves the tree and the mapping alone. -/
theorem EofFreeTree.of_emitLeaf {s u : State} {n : NodeIdx} (h : EofFreeTree s) (hu : emitLeaf n s = some u) : EofFreeTree u := by
  rw [emitLeaf_some hu]
  exact ⟨h.shape.congr rfl rfl rfl rfl, h.noEof, h.inner⟩

/-- To take and count a bit leaves the tree and the mapping alone. -/
theorem EofFreeTree.of_takeBit {s : State} (h : EofFreeTree s) (ts : List BTok) : EofFreeTree (countBit (takeBin ts s)) :=
  ⟨h.shape.congr rfl rfl rfl rfl, h.noEof, h.inner⟩

/-- In such a tree DECODE's loop, at an internal node, ends only with an error: at End, or at a leaf that is no byte's. -/
theorem EofFreeTree.decodeLoop_err {s : State} {cur : NodeIdx} (ts : List BTok) (h : EofFreeTree s) (hc : cur.val < s.nodeCnt.val)
    (hcl : isLeaf s cur = false) (hidle : (decodeLoop ts cur s).seq = .idle) : (decodeLoop ts cur s).err = true := by
  induction ts generalizing cur s with
  | nil => cases hidle
  | cons tok ts ih =>
    cases tok with
    | endTok => rfl
    | bit b =>
      have hcb := h.shape.child_lt cur hc hcl b
      rw [decodeLoop] at hidle ⊢
      by_cases hl : isLeaf s (child s cur b) = true
      · rw [if_pos hl, if_neg (by simp [h.shape.not_eofLeaf h.noEof hcb hl])] at hidle ⊢
        by_cases hm : isMarkerLeaf s (child s cur b) = true
        · rw [if_pos hm]; rfl
        · rw [if_neg hm] at hidle ⊢
          cases hu : emitLeaf (child s cur b) (countBit (takeBin ts s)) with
          | none => rw [hu] at hidle; cases hidle
          | some u =>
            rw [hu] at hidle
            have hU := (h.of_takeBit ts).of_emitLeaf hu
            exact ih hU hU.shape.root_lt hU.inner hidle
      · rw [if_neg hl] at hidle ⊢
        exact ih (h.of_takeBit ts) hcb (Bool.not_eq_true _ ▸ hl) hidle

/-- Settles O32: a single-leaf root is not PSEUDO_EOF's, the loop ends only with an error, and where it waits BUSY is as it was. -/
theorem decodeWithoutEofNeverSucceeds : Obligations.DecodeWithoutEofNeverSucceeds := by
  intro s hv hT heof
  by_cases hl : isLeaf s s.root = true
  · refine ⟨raise .invalidTree (nodeWord s.root) (leaveBin s), ?_, .inl ⟨rfl, rfl⟩⟩
    have hnot := hT.not_eofLeaf heof hT.root_lt hl
    simp only [exec, execDecode, hv, hl, hnot, if_true, Bool.false_eq_true, if_false]
  · rw [Bool.not_eq_true] at hl
    refine ⟨decodeLoop s.bin s.root s, execDecode_of_internal_root hv hl, ?_⟩
    rcases decodeLoop_ends s.bin s.root s with hend | hwait
    · obtain ⟨-, -, hidle⟩ := hend.idle
      exact .inl ⟨hidle, EofFreeTree.decodeLoop_err s.bin ⟨hT, heof, hl⟩ hT.root_lt hl hidle⟩
    · refine .inr ⟨?_, hwait.report.1⟩
      rcases hwait.place with ⟨c, hq⟩ | ⟨c, hq⟩ <;> rw [hq] <;> exact Seq.noConfusion

end Sys2Proof.Machine
end

section
/-! O22, O23 and O24: the code table GEN_CODES leaves over a tree, over a tree of one leaf, and without a tree (43_code_table.md). -/

namespace Sys2Proof.Machine

open Sys2Proof

/-! ### The walk of one leaf, and the command without a tree -/

/-- At the leaf of a key, with nothing else on the traversal stack, the walk gives the key the path to the leaf and ends there
(rule R140). -/
theorem walkTree_lastLeaf {s : State} {n : NodeIdx} {k : Key} (fuel : Nat) (path : Path) (hl : isLeaf s n = true)
    (hsym : (nodeAt s n).sym = keySymbol k) (hw : s.walk = []) : walkTree (fuel + 1) n path s = some (setCode k path s) := by
  have hval : (nodeAt s n).sym.toNat = k.val := by rw [hsym, keySymbol_toNat]
  have hlt : (nodeAt s n).sym.toNat < 257 := by rw [hval]; exact k.isLt
  have hkey : (⟨(nodeAt s n).sym.toNat, hlt⟩ : Key) = k := Fin.ext hval
  rw [walkTree, if_pos hl, dif_pos hlt, hw, hkey]

/-- Without a tree GEN_CODES is InvalidTree's raise alone (rule R143). -/
theorem execGenCodes_of_noTree {s : State} (hv : s.treeValid = false) :
    execGenCodes s = .next (raise .invalidTree Config.noTreeInfo s) := by
  rw [execGenCodes, if_neg (by simp [hv])]

/-! ### The obligations -/

/-- Settles O22: the walk visits every leaf of the tree once, each at the end of its own path. -/
theorem genCodesGivesPaths : Obligations.GenCodesGivesPaths := fun _ hv hT => execGenCodes_eq hv hT

/-- Settles O23: the walk starts at its only leaf, in the emptied table and with an empty stack. -/
theorem genCodesSingleLeaf : Obligations.GenCodesSingleLeaf := by
  intro s k hv hl hsym
  have hwalk : walkTree Config.maxNodes s.root [] (popWalk [] (invalidateCodes s)) =
      some (setCode k [] (popWalk [] (invalidateCodes s))) := walkTree_lastLeaf 512 [] hl hsym rfl
  rw [exec, execGenCodes, if_pos hv, hwalk]
  rfl

/-- Settles O24: TREE_VALID is checked first, and the raise writes nothing but the report. -/
theorem genCodesWithoutTree : Obligations.GenCodesWithoutTree := fun _ hv => execGenCodes_of_noTree hv

end Sys2Proof.Machine
end

section
/-! O25, O26 and O27: the three ends of ENCODE's loop, reached over the codes of the bytes before them (44_encoder.md). -/

namespace Sys2Proof.Machine

open Sys2Proof

/-! ### The ends of the encoding loop -/

/-- At a byte without a code the loop counts it and raises UnknownSymbol with it; the tokens after it are leftovers (rules R152,
R242). -/
theorem encodeLoop_unknownByte {s : State} {v : Byte} (h : s.ct[byteKey v] = none) (ts : List YTok) :
    encodeLoop (.byte v :: ts) s = { s with
      yin := ts, yinLeft := ts.length, byteCount := s.byteCount + 1#64
      busy := false, done := true, err := true, errCode := 2#4, errInfo := v.setWidth 32, seq := .idle } := by
  simp only [encodeLoop, h, takeYin, countByte, leaveYin, raise, ErrKind.code]

/-- At End without a code for PSEUDO_EOF the loop raises UnknownSymbol with 256; the tokens after End are leftovers (rules R153,
R242). -/
theorem encodeLoop_endTok_noCode {s : State} (h : s.ct[eofKey] = none) (ts : List YTok) :
    encodeLoop (.endTok :: ts) s = { s with
      yin := ts, yinLeft := ts.length
      busy := false, done := true, err := true, errCode := 2#4, errInfo := 256#32, seq := .idle } := by
  simp only [encodeLoop, h, takeYin, leaveYin, raise, ErrKind.code, Config.pseudoEof]

/-- At End with BOUT accepting, the loop writes PSEUDO_EOF's code and ends successfully, with nothing left over (rules R151, R203,
R242). -/
theorem encodeLoop_endTok {s : State} {eof : Path} (hr : s.boutReady = .all) (h : s.ct[eofKey] = some eof) (ts : List YTok) :
    encodeLoop (.endTok :: ts) s = { s with
      yin := ts, yinLeft := 0, bout := s.bout ++ eof, bitCount := s.bitCount + BitVec.ofNat 64 eof.length
      busy := false, done := true, seq := .idle } := by
  have hemit := emitBits_all (s := spendYin (takeYin ts s)) hr eof
  rw [encodeLoop, h]
  simp only [hemit]
  rfl

/-- ENCODE over bytes with codes, BOUT accepting: their codes are written and counted, and its loop goes on with the tokens after
them (rule R150). -/
theorem execEncode_bytes {s : State} {bs : List Byte} {ts : List YTok} {code : Byte → Path} (hyin : s.yin = bs.map YTok.byte ++ ts)
    (hr : s.boutReady = .all) (hcode : ∀ v ∈ bs, s.ct[byteKey v] = some (code v)) :
    execEncode s = .next (encodeLoop ts { s with
      bout := s.bout ++ bs.flatMap code
      bitCount := s.bitCount + BitVec.ofNat 64 (bs.flatMap code).length
      byteCount := s.byteCount + BitVec.ofNat 64 bs.length }) := by
  have hloop := encodeLoop_bytes bs ts hr hcode
  rw [← hyin] at hloop
  exact congrArg Host.Outcome.next hloop

/-! ### The obligations -/

/-- Settles O25: after the codes of the bytes, End adds PSEUDO_EOF's code to the bits and to their count. -/
theorem encodeWritesThePayload : Obligations.EncodeWritesThePayload := by
  intro s bs rest code eof hyin hr hcode heof
  rw [exec, execEncode_bytes hyin hr hcode, encodeLoop_endTok (eof := eof) (by exact hr) (by exact heof), List.length_append, BitVec.ofNat_add]
  simp only [List.append_assoc, BitVec.add_assoc]

/-- Settles O26: after the codes of the earlier bytes, the loop raises at the byte without one, which BYTE_COUNT includes. -/
theorem encodeUnknownByte : Obligations.EncodeUnknownByte := by
  intro s bs v rest code hyin hr hcode hv
  rw [exec, execEncode_bytes hyin hr hcode, encodeLoop_unknownByte (by exact hv), BitVec.ofNat_add, ← BitVec.add_assoc]

/-- Settles O27: after the codes of all bytes, the loop raises at End, which leaves both counters as they are. -/
theorem encodeWithoutEofCode : Obligations.EncodeWithoutEofCode := by
  intro s bs rest code hyin hr hcode heof
  rw [exec, execEncode_bytes hyin hr hcode, encodeLoop_endTok_noCode (by exact heof)]

end Sys2Proof.Machine
end

section
/-! O28, O29, O31 and O30: the ends of DECODE's loop, reached over the paths of the bytes before them, and DECODE without a walk
(45_decoder.md). -/

namespace Sys2Proof.Machine

open Sys2Proof

/-! ### The ends of the decoding loop -/

/-- PSEUDO_EOF's leaf is the one with its symbol. -/
theorem isEofLeaf_iff {s : State} {n : NodeIdx} : isEofLeaf s n = true ↔ (nodeAt s n).sym = 256#9 := by
  rw [isEofLeaf, beq_iff_eq, BitVec.toNat_eq]
  rfl

/-- A symbol above 256 is neither PSEUDO_EOF nor a byte. -/
theorem markerLeaf_of_symbol {s : State} {n : NodeIdx} (h : 256 < (nodeAt s n).sym.toNat) :
    isEofLeaf s n = false ∧ isMarkerLeaf s n = true := by
  simp only [isEofLeaf, isMarkerLeaf, Config.pseudoEof, beq_eq_false_iff_ne, decide_eq_true_eq]
  omega

/-- Over the path to PSEUDO_EOF's leaf the loop counts its bits and ends successfully; the tokens after it are leftovers (rules
R161, R242). -/
theorem decodeLoop_eofPath {s : State} {p : Path} {n m : NodeIdx} (hn : isLeaf s n = false) (hp : leads s n p = some m)
    (hm : isLeaf s m = true) (hsym : (nodeAt s m).sym = keySymbol eofKey) (ts : List BTok) :
    decodeLoop (p.map BTok.bit ++ ts) n s = { s with
      bin := ts, binLeft := ts.length, bitCount := s.bitCount + BitVec.ofNat 64 p.length
      busy := false, done := true, seq := .idle } := by
  rw [decodeLoop_leaf hp hn hm, if_pos (isEofLeaf_iff.mpr hsym)]
  rfl

/-- Over the path to a leaf that is no byte's and not PSEUDO_EOF's the loop counts its bits and raises InvalidTree with the leaf;
the tokens after it are leftovers (rules R163, R242). -/
theorem decodeLoop_markerPath {s : State} {p : Path} {n m : NodeIdx} (hn : isLeaf s n = false) (hp : leads s n p = some m)
    (hm : isLeaf s m = true) (hsym : 256 < (nodeAt s m).sym.toNat) (ts : List BTok) :
    decodeLoop (p.map BTok.bit ++ ts) n s = { s with
      bin := ts, binLeft := ts.length, bitCount := s.bitCount + BitVec.ofNat 64 p.length
      busy := false, done := true, err := true, errCode := 4#4, errInfo := BitVec.ofNat 32 m.val, seq := .idle } := by
  obtain ⟨hnotEof, hmarker⟩ := markerLeaf_of_symbol hsym
  rw [decodeLoop_leaf hp hn hm, if_neg (by simp [hnotEof]), if_pos hmarker]
  rfl

/-- At End after bits that lead to an internal node the loop raises TruncatedStream with that node; the tokens after End are
leftovers (rules R164, R242). -/
theorem decodeLoop_endTok {s : State} {p : Path} {n m : NodeIdx} (hp : leads s n p = some m) (hm : isLeaf s m = false)
    (ts : List BTok) :
    decodeLoop (p.map BTok.bit ++ .endTok :: ts) n s = { s with
      bin := ts, binLeft := ts.length, bitCount := s.bitCount + BitVec.ofNat 64 p.length
      busy := false, done := true, err := true, errCode := 3#4, errInfo := BitVec.ofNat 32 m.val, seq := .idle } := by
  rw [decodeLoop_inner hp hm]
  rfl

/-! ### DECODE up to its loop, and over whole bytes -/

/-- DECODE over the paths of bytes, YOUT accepting: the bytes are written and their bits counted, and its loop goes on at ROOT with
the tokens after them (rule R160). -/
theorem execDecode_bytes {s : State} {bs : List Byte} {code : Byte → Path} {p : Path} {ts : List BTok} (hv : s.treeValid = true)
    (hl : isLeaf s s.root = false) (hy : s.youtReady = .all)
    (hcode : ∀ v ∈ bs, ∃ n, leads s s.root (code v) = some n ∧ isLeaf s n = true ∧ (nodeAt s n).sym = keySymbol (byteKey v))
    (hbin : s.bin = (bs.flatMap code ++ p).map BTok.bit ++ ts) :
    execDecode s = .next (decodeLoop (p.map BTok.bit ++ ts) s.root { s with
      yout := s.yout ++ bs
      bitCount := s.bitCount + BitVec.ofNat 64 (bs.flatMap code).length
      byteCount := s.byteCount + BitVec.ofNat 64 bs.length }) := by
  have hloop := decodeLoop_bytes bs (p.map BTok.bit ++ ts) hy hl hcode
  rw [← List.append_assoc, ← List.map_append, ← hbin] at hloop
  exact (execDecode_of_internal_root hv hl).trans (congrArg Host.Outcome.next hloop)

/-- A counter that counts the bits of one part and then of the next. -/
theorem counter_add_append (c : Counter) (p q : Path) :
    c + BitVec.ofNat 64 p.length + BitVec.ofNat 64 q.length = c + BitVec.ofNat 64 (p ++ q).length := by
  rw [BitVec.add_assoc, ← BitVec.ofNat_add, List.length_append]

/-- Without a tree DECODE is InvalidTree's raise alone (rule R163). -/
theorem execDecode_of_noTree {s : State} (hv : s.treeValid = false) :
    execDecode s = .next (raise .invalidTree Config.noTreeInfo (leaveBin s)) := by
  rw [execDecode, if_neg (by simp [hv])]

/-- At a single-leaf root DECODE reads no bit, and the leaf's symbol decides how it ends (rule R162). -/
theorem execDecode_of_leaf_root {s : State} (hv : s.treeValid = true) (hl : isLeaf s s.root = true) :
    execDecode s = if (nodeAt s s.root).sym = 256#9 then .next (finish (leaveBin s))
      else .next (raise .invalidTree (nodeWord s.root) (leaveBin s)) := by
  simp only [execDecode, hv, hl, if_true, isEofLeaf_iff]

/-- A leaf of a tree has the symbol of a key: a byte or PSEUDO_EOF (rule R47 d). -/
theorem TreeShape.leaf_symbol_le {s : State} (h : TreeShape s) {n : NodeIdx} (hn : n.val < s.nodeCnt.val) (hl : isLeaf s n = true) :
    (nodeAt s n).sym.toNat ≤ 256 := by
  obtain ⟨k, -, hsym⟩ := h.leaf_key hn hl
  rw [hsym, keySymbol_toNat]
  omega

/-- The only leaf of a single-leaf tree is node 0 (rule R47 a). -/
theorem TreeShape.leaf_root_eq_zero {s : State} (h : TreeShape s) (hl : isLeaf s s.root = true) : s.root = 0 := by
  have hone := (h.single hl).1
  have hcount := h.count
  exact Fin.ext (by rw [Fin.val_zero]; omega)

/-! ### The obligations -/

/-- Settles O28: after the paths of the bytes, the loop ends at the last bit of PSEUDO_EOF's path. -/
theorem decodeFollowsPaths : Obligations.DecodeFollowsPaths := by
  intro s bs code eof e rest hv hl hy hcode heof he hsym hbin
  rw [exec, execDecode_bytes hv hl hy hcode hbin, decodeLoop_eofPath (by exact hl)
    ((leads_congr (by rfl) _ _).trans heof) (by exact he) (by exact hsym), counter_add_append]

/-- Settles O29: after the paths of the bytes, the loop stands at the node of the last part when it meets End. -/
theorem decodeTruncated : Obligations.DecodeTruncated := by
  intro s bs code part cur rest hv hl hy hcode hpart hcur hbin
  rw [exec, execDecode_bytes hv hl hy hcode hbin, decodeLoop_endTok
    ((leads_congr (by rfl) _ _).trans hpart) (by exact hcur), counter_add_append]

/-- Settles O31: TREE_VALID is checked first; the loop raises at the marker's leaf; and a tree's leaves have keys' symbols. -/
theorem decodeInvalidTree : Obligations.DecodeInvalidTree := by
  refine ⟨fun s hv => execDecode_of_noTree hv, ?_, fun s hT n hn hleaf => hT.leaf_symbol_le hn hleaf⟩
  intro s bs code p n rest hv hl hy hcode hp hn hsym hbin
  rw [exec, execDecode_bytes hv hl hy hcode hbin, decodeLoop_markerPath (by exact hl)
    ((leads_congr (by rfl) _ _).trans hp) (by exact hn) (by exact hsym), counter_add_append]

/-- Settles O30: the root's leaf is checked before any bit is read. -/
theorem decodeAtASingleLeaf : Obligations.DecodeAtASingleLeaf :=
  fun _ hv hl => ⟨fun hT => hT.leaf_root_eq_zero hl, execDecode_of_leaf_root hv hl⟩

end Sys2Proof.Machine
end

section
/-! O33: what ENCODE writes under the codes of a tree, DECODE reads back with an equal tree (rule R165 b). -/

namespace Sys2Proof.Machine

open Sys2Proof

/-- A ready code table holds every key's code, the path to its leaf (rule R48). -/
theorem State.CodeOk.code_of_key {s : State} (h : s.CodeOk) (hr : s.ctReady = true) {k : Key} (hk : s.ft[k].isSome = true) :
    ∃ c, s.ct[k] = some c ∧ IsCodeOf s k c := by
  obtain ⟨c, hc⟩ := Option.isSome_iff_exists.mp ((h.valid hr k).trans hk)
  exact ⟨c, hc, (h.path hr k c hc).2⟩

/-- Equal trees have equal codes. -/
theorem IsCodeOf.of_agree {s u : State} {k : Key} {c : Path} (h : IsCodeOf s k c) (hT : TreeShape s) (hcnt : u.nodeCnt = s.nodeCnt)
    (hroot : u.root = s.root) (hnode : ∀ n : NodeIdx, n.val < s.nodeCnt.val → nodeAt u n = nodeAt s n) : IsCodeOf u k c := by
  obtain ⟨n, hlead, hn, hleaf, hsym⟩ := h
  refine ⟨n, ?_, hcnt ▸ hn, ?_, (hnode n hn).symm ▸ hsym⟩
  · rw [hroot, hT.leads_agree hnode hT.root_lt, hlead]
  · rw [isLeaf, hnode n hn]
    exact hleaf

/-- At a single-leaf root the only code is the empty one, of the root's symbol (rule R142). -/
theorem IsCodeOf.of_root_leaf {s : State} {k : Key} {c : Path} (h : IsCodeOf s k c) (hl : isLeaf s s.root = true) :
    c = [] ∧ (nodeAt s s.root).sym = keySymbol k := by
  obtain ⟨n, hlead, -, -, hsym⟩ := h
  obtain ⟨rfl, rfl⟩ := leads_of_leaf hl hlead
  exact ⟨rfl, hsym⟩

/-- DECODE over the codes of bytes and then PSEUDO_EOF's, YOUT accepting, in a tree of any size: it emits the bytes and ends
successfully (rules R160 to R162). At a single-leaf root, PSEUDO_EOF's, there are no bytes and no bits. -/
theorem execDecode_codes {u : State} {bs : List Byte} {code : Byte → Path} {eof : Path} {rest : List BTok} (hv : u.treeValid = true)
    (hy : u.youtReady = .all) (hcode : ∀ v ∈ bs, IsCodeOf u (byteKey v) (code v)) (heof : IsCodeOf u eofKey eof)
    (hbin : u.bin = (bs.flatMap code ++ eof).map BTok.bit ++ rest) :
    execDecode u = .next { u with
      bin := rest, binLeft := rest.length, yout := u.yout ++ bs
      bitCount := u.bitCount + BitVec.ofNat 64 (bs.flatMap code ++ eof).length
      byteCount := u.byteCount + BitVec.ofNat 64 bs.length
      busy := false, done := true, seq := .idle } := by
  by_cases hl : isLeaf u u.root = true
  · obtain ⟨rfl, hsym⟩ := heof.of_root_leaf hl
    have hnone : bs = [] := List.eq_nil_iff_forall_not_mem.mpr fun v hmem =>
      byteKey_ne_eof v (keySymbol_inj (((hcode v hmem).of_root_leaf hl).2.symm.trans hsym))
    subst hnone
    obtain rfl : u.bin = rest := hbin
    rw [execDecode_of_leaf_root hv hl, if_pos (by exact hsym)]
    simp [finish, leaveBin]
  · obtain ⟨e, hlead, -, hleaf, hsym⟩ := heof
    refine decodeFollowsPaths u bs code eof e rest hv (Bool.not_eq_true _ ▸ hl) hy (fun v hmem => ?_) hlead hleaf hsym hbin
    obtain ⟨n, hlead, -, hleaf, hsym⟩ := hcode v hmem
    exact ⟨n, hlead, hleaf, hsym⟩

/-- Settles O33: ENCODE writes the codes of the bytes and PSEUDO_EOF's, which are codes of DECODE's equal tree too. -/
theorem encodeDecodeRoundTrip : Obligations.EncodeDecodeRoundTrip := by
  intro s u t bs yrest brest hC hr hT heofKey hkeys hyin hbout hv hcnt hroot hnode hyout ht
  obtain ⟨eof, hct, heof⟩ := hC.code_of_key hr heofKey
  choose! code hcodeCt hcode using fun v (hmem : v ∈ bs) => hC.code_of_key hr (hkeys v hmem)
  cases ht.symm.trans (encodeWritesThePayload s bs yrest code eof hyin hbout hcodeCt hct)
  exact ⟨bs.flatMap code ++ eof, rfl, rfl, rfl, execDecode_codes hv hyout
    (fun v hmem => (hcode v hmem).of_agree hT hcnt hroot hnode) (heof.of_agree hT hcnt hroot hnode)⟩

end Sys2Proof.Machine
end

section
/-! O34 and O35: the text HDR_WRITE writes and its length (46_header.md). -/

namespace Sys2Proof.Machine

open Sys2Proof

/-- With YOUT accepting, HDR_WRITE writes the header text of FT, counts its bytes and ends successfully (rule R170). -/
theorem exec_hdrWrite_all {s : State} (h : s.youtReady = .all) :
    exec .hdrWrite s = .next { s with
      yout := s.yout ++ headerText s.ft, byteCount := s.byteCount + BitVec.ofNat 64 (headerText s.ft).length
      busy := false, done := true, seq := .idle } := by
  rw [exec, execHdrWrite, putLoop_all h, finish]

/-- Settles O34: the header text of FT is the text of the entries that write FT. -/
theorem hdrWriteWritesTheHeader : Obligations.HdrWriteWritesTheHeader := by
  intro s hy
  obtain ⟨es, hwrites, htext⟩ := headerText_writes s.ft
  exact ⟨es, hwrites, htext ▸ exec_hdrWrite_all hy⟩

/-! ### Numbers of digits -/

/-- How many decimal digits PutDec writes for a number: 0 has one (rules R171, R173). -/
def decWidth (v : Nat) : Nat := max 1 (Nat.digits 10 v).length

theorem decWidth_le_ten (c : Count) : decWidth c.toNat ≤ 10 := by
  have hlt : c.toNat < 10 ^ 10 := c.isLt.trans (by decide)
  exact max_le (by decide) ((Nat.digits_length_le_iff (by decide) _).mpr hlt)

theorem decWidth_countMax : decWidth Config.countMax = 10 := by
  simp [decWidth, Config.countMax]

/-- The keys 0 to 256 have 661 digits: ten have one, ninety have two and the other 157 have three. -/
theorem sum_decWidth_allKeys : ((List.finRange 257).map fun k => decWidth k.val).sum = 661 := by
  decide +kernel

/-! ### The length of a header -/

/-- The bytes of a key's entry: its digits, ':' and its count's digits (rule R173). -/
def entryWidth (ft : FreqTable) (k : Key) : Nat := decWidth k.val + 1 + decWidth (countOf ft k).toNat

/-- Plain digits are as many as the number they write has. -/
theorem map_length_of_plain {es : List HdrEntry} (f : HdrEntry → List (Fin 10)) (h : ∀ e ∈ es, plainDigits (f e)) :
    es.map (fun e => (f e).length) = (es.map fun e => digitsValue (f e)).map decWidth := by
  rw [List.map_map]
  exact List.map_congr_left fun e he => plainDigits_length (h e he)

theorem WritesMapping.length_eq {ft : FreqTable} {es : List HdrEntry} (h : WritesMapping ft es) : es.length = (keys ft).length := by
  simpa using congrArg List.length h.inOrder

/-- The entries that write a mapping are as long, in all, as the numbers of its keys and counts make them. -/
theorem WritesMapping.sum_lengths {ft : FreqTable} {es : List HdrEntry} (h : WritesMapping ft es) :
    (es.map fun e => e.key.length + 1 + e.value.length).sum = ((keys ft).map (entryWidth ft)).sum := by
  have hkey := map_length_of_plain HdrEntry.key fun e he => (h.plain e he).1
  have hvalue := map_length_of_plain HdrEntry.value fun e he => (h.plain e he).2
  rw [h.inOrder, List.map_map] at hkey
  rw [h.counts, List.map_map] at hvalue
  unfold entryWidth
  simp only [List.sum_map_add, List.map_const', hkey, hvalue, h.length_eq, Function.comp_def]

/-- Rule R173's length of the header of a mapping with a key. -/
theorem headerText_length {ft : FreqTable} (hne : keys ft ≠ []) :
    (headerText ft).length = 2 + ((keys ft).map (entryWidth ft)).sum + 2 * ((keys ft).length - 1) := by
  obtain ⟨es, hwrites, htext⟩ := headerText_writes ft
  have hes : es ≠ [] := by rwa [← List.length_pos_iff, hwrites.length_eq, List.length_pos_iff]
  rw [htext, hdrText_length hes, hwrites.sum_lengths, hwrites.length_eq]

/-- All 257 entries, each with a count of ten digits, have 3488 bytes. -/
theorem sum_longestEntries : ((List.finRange 257).map fun k => decWidth k.val + 1 + 10).sum = 3488 := by
  simp only [List.sum_map_add, sum_decWidth_allKeys, List.map_const', List.sum_replicate, List.length_finRange]
  rfl

theorem sum_entryWidth_le (ft : FreqTable) : ((keys ft).map (entryWidth ft)).sum ≤ 3488 := by
  calc ((keys ft).map (entryWidth ft)).sum
    _ ≤ ((keys ft).map fun k => decWidth k.val + 1 + 10).sum :=
      List.sum_le_sum fun k _ => Nat.add_le_add_left (decWidth_le_ten _) _
    _ ≤ ((List.finRange 257).map fun k => decWidth k.val + 1 + 10).sum :=
      (List.filter_sublist.map _).sum_le_sum fun _ _ => Nat.zero_le _
    _ = 3488 := sum_longestEntries

/-- A mapping of every key to COUNT_MAX has the longest entries. -/
theorem sum_entryWidth_full {ft : FreqTable} (h : ∀ k : Key, ft[k] = some (BitVec.ofNat 32 Config.countMax)) :
    ((keys ft).map (entryWidth ft)).sum = 3488 ∧ (keys ft).length = 257 := by
  have hkeys : keys ft = List.finRange 257 := List.filter_eq_self.mpr fun k _ => by rw [h k]; rfl
  have hwidth : entryWidth ft = fun k => decWidth k.val + 1 + 10 := funext fun k => by
    rw [entryWidth, countOf, h k, ← decWidth_countMax]; rfl
  rw [hkeys, hwidth]
  exact ⟨sum_longestEntries, List.length_finRange⟩

/-- Settles O35: the entries' lengths add up over the keys, and are longest where every key has COUNT_MAX. -/
theorem hdrWriteLength : Obligations.HdrWriteLength := by
  intro s t hy hzero hne ht
  cases ht.symm.trans (exec_hdrWrite_all hy)
  have hlen := headerText_length hne
  refine ⟨headerText s.ft, rfl, by simp [hzero], hlen, ?_, fun hfull => ?_⟩
  · have hsum := sum_entryWidth_le s.ft
    have hcount := keys_length_le s.ft
    omega
  · obtain ⟨hsum, hcount⟩ := sum_entryWidth_full hfull
    omega

end Sys2Proof.Machine
end

section
/-! O36, O37, O38 and O39: the ends of HDR_READ, over whole headers and at offences (46_header.md). -/

namespace Sys2Proof.Machine

open Sys2Proof

/-- Settles O36: from the emptied FT the loop reads the header to its closing brace and ends there. -/
theorem hdrReadAcceptsHeaders : Obligations.HdrReadAcceptsHeaders := by
  intro s es rest hok hyin
  rw [exec, execHdrRead_start, hyin, hdrLoop_header hok]
  rfl

/-- The token HDR_READ takes adds a byte to the bytes counted unless it is End (rule R180). -/
theorem countToken_hdrAt (t : YTok) (ts : List YTok) (s : State) (ft : FreqTable) (n : Nat) :
    countToken t (takeYin ts (hdrAt s ft n)) = takeYin ts (hdrAt s ft (n + if t = .endTok then 0 else 1)) := by
  cases t with
  | byte v => exact congrArg (takeYin ts) (countByte_hdrAt s ft n)
  | endTok => rfl

/-- HDR_READ's loop over bytes and an offending token, at a position that ERR_INFO can hold, raises MalformedHeader (rule R182). -/
theorem hdrLoop_offence {pre : List Byte} {t : YTok} (h : Offence pre t) (hlt : pre.length < 2 ^ 32) (rest : List YTok) (s : State) :
    ∃ ft : FreqTable, hdrLoop (pre.map YTok.byte ++ t :: rest) 0 .brace (hdrAt s (mappingOf []) 0) =
      raise .malformedHeader (BitVec.ofNat 32 pre.length)
        (clearFt (leaveYin (takeYin rest (hdrAt s ft (pre.length + if t = .endTok then 0 else 1))))) := by
  obtain ⟨p, ft, hgoes, hfail⟩ := h.goes s
  exact ⟨ft, by rw [hgoes, Nat.zero_add, hdrLoop_fail hfail, failHeader_lt hlt, countToken_hdrAt]⟩

/-- Settles O37: the loop raises at the offending token, which BYTE_COUNT includes unless it is End. -/
theorem hdrReadReportsOffences : Obligations.HdrReadReportsOffences := by
  intro s pre t rest hoff hlt hyin
  obtain ⟨ft, hloop⟩ := hdrLoop_offence hoff hlt rest (invalidateTree s)
  rw [exec, execHdrRead_start, hyin, hloop]
  rfl

/-- Settles O38: at its start the loop has read nothing, and each token keeps what it has read the start of a header. -/
theorem hdrReadOutcomes : Obligations.HdrReadOutcomes := by
  intro s
  rw [exec, execHdrRead_start]
  exact ⟨_, rfl, hdrLoop_outcomes (s := hdrAt (invalidateTree s) (mappingOf []) 0) s.yin .brace⟩

/-- Settles O39: what HDR_WRITE writes is a header of the grammar, and its entries' mapping is the one it writes. -/
theorem hdrRoundTrip : Obligations.HdrRoundTrip := by
  intro s t u hy ht
  obtain ⟨es, hwrites, hexec⟩ := hdrWriteWritesTheHeader s hy
  cases ht.symm.trans hexec
  exact ⟨hdrText es, rfl, fun rest hyin =>
    ⟨_, hdrReadAcceptsHeaders u es rest (plain_ok hwrites) hyin, mappingOf_writes hwrites, rfl, rfl, rfl⟩⟩

end Sys2Proof.Machine
end

section
/-! O6: a codec in reset, an idle codec and a command at a port that does not go on stay as they are (rules R217, R218). -/

namespace Sys2Proof.Machine

open Sys2Proof

/-- While RST is asserted the codec makes no progress (rule R230). -/
theorem progress_of_rst {s : State} (hr : s.rst = true) : progress s = .next s := if_pos hr

/-- With no host move to come, a codec that neither begins a word nor goes on from where it stands stays as it is. -/
theorem step_of_resume_self {s : State} (hh : s.host = []) (hp : pendingWord s = none) (hs : resume s = s) : step s = .next s := by
  rcases hr : s.rst with _ | _
  · rw [step_resume hh hr hp, hs]
  · rw [step, hh]
    exact progress_of_rst hr

/-- ENCODE stays at its read while YIN offers no token. -/
theorem resume_encodeRead_blocked {u : State} (hq : u.seq = .encodeRead) (hy : u.yin = []) : resume u = u := by
  rw [resume, hq]; simp only [hy]; rw [encodeLoop, ← hy, ← hq]; rfl

/-- ENCODE stays in a code while the host accepts no bit. -/
theorem resume_encodeEmit_blocked {u : State} {b : Bool} {bs : Path} {last : Bool} (hq : u.seq = .encodeEmit (b :: bs) last)
    (hr : u.boutReady = .upTo 0) : resume u = u := by
  rw [resume, hq]; simp only [resumeEmit, emitBits_stuck hr]; rw [← hq]; rfl

/-- DECODE stays at its read while BIN offers no token. -/
theorem resume_decodeRead_blocked {u : State} {n : NodeIdx} (hq : u.seq = .decodeRead n) (hb : u.bin = []) : resume u = u := by
  rw [resume, hq]; simp only [hb]; rw [decodeLoop, ← hb, ← hq]; rfl

/-- DECODE stays at its leaf while the host accepts no byte. -/
theorem resume_decodeWrite_blocked {u : State} {n : NodeIdx} (hq : u.seq = .decodeWrite n) (hr : u.youtReady = .upTo 0) :
    resume u = u := by
  have hw : emitLeaf n u = none := by simp [emitLeaf, writeYout, hr, Acceptance.take]
  rw [resume, hq]; simp only [resumeLeaf, hw]

/-- Settles O6: in reset there is no progress, and in each other case the codec goes on from where it stands to the same state. -/
theorem blockedCodecStays : Obligations.BlockedCodecStays := by
  intro s hh hcase
  have stays (hp : pendingWord s = none) (hs : resume s = s) : step s = .next s := step_of_resume_self hh hp hs
  rcases hcase with hr | hq | ⟨hq, hy⟩ | ⟨p, pl, hq, hy⟩ | ⟨hq, hy⟩ | ⟨b, bs, l, hq, hr⟩ | ⟨c, cs, hq, hr⟩ | ⟨n, hq, hb⟩ | ⟨n, hq, hr⟩
  · rw [step, hh]
    exact progress_of_rst hr
  · exact stays (by rw [pendingWord, hq]) (resume_idle hq)
  · exact stays (by rw [pendingWord, hq]) (resume_freqCount_blocked hq hy)
  · exact stays (by rw [pendingWord, hq]) (resume_hdrRead_blocked hq hy)
  · exact stays (by rw [pendingWord, hq]) (resume_encodeRead_blocked hq hy)
  · exact stays (by rw [pendingWord, hq]) (resume_encodeEmit_blocked hq hr)
  · exact stays (by rw [pendingWord, hq]) (resume_hdrWrite_blocked hq hr)
  · exact stays (by rw [pendingWord, hq]) (resume_decodeRead_blocked hq hb)
  · exact stays (by rw [pendingWord, hq]) (resume_decodeWrite_blocked hq hr)

end Sys2Proof.Machine
end

section
/-! O10 and O43: how a command's run leaves the report (rules R200, R201, R203, R204, R219). -/

namespace Sys2Proof.Machine

open Sys2Proof

/-- No error has code 0, the code of no error (rule R200). -/
theorem ErrKind.code_ne_zero (e : ErrKind) : e.code ≠ 0#4 := by cases e <;> decide

/-- Settles O10: a command ends or waits, and an end's error is of one of the kinds, whose codes are not 0. -/
theorem commandEndsOrWaits : Obligations.CommandEndsOrWaits := by
  intro i s t h
  rcases exec_ends h with ended | waiting
  · obtain ⟨hbusy, hdone, hidle⟩ := ended.idle
    refine .inl ⟨hidle, hbusy, hdone, ended.report.imp_right ?_⟩
    rintro ⟨e, -, herr, hcode⟩
    exact ⟨herr, hcode ▸ e.code_ne_zero⟩
  · exact .inr ⟨waiting.place, waiting.report⟩

/-- Settles O43: a command's loop, or its one check before it, raises errors of its own kinds only. -/
theorem errorCodesOfCommands : Obligations.ErrorCodesOfCommands := by
  intro i s t h hclear herr
  have hraised : t.err ≠ s.err := by simp [hclear, herr]
  cases i with
  | nop | clear => cases h; exact absurd rfl hraised
  | hdrWrite => cases h; exact absurd (by rw [putLoop_frame]) hraised
  | freqCount =>
    cases h
    simpa using (freqLoop_err s.yin (clearFt (invalidateTree s))).resolve_left hraised
  | hdrRead =>
    cases h
    simpa using (hdrLoop_err s.yin 0 .brace (clearFt (invalidateTree s))).resolve_left hraised
  | encode =>
    cases h
    simpa using (encodeLoop_err s.yin s).resolve_left hraised
  | buildTree =>
    rcases execBuildTree_cases s with ⟨hexec, -⟩ | ⟨u, hexec, -, hu⟩ <;> cases h.symm.trans hexec
    · exact .inl ⟨rfl, rfl⟩
    · exact absurd (by rw [hu]) hraised
  | genCodes =>
    rcases execGenCodes_cases h with ⟨-, rfl⟩ | ⟨-, ht⟩
    · simp [ErrKind.code]
    · exact absurd (by rw [ht]) hraised
  | decode =>
    have hcode : t.errCode = 3#4 ∨ t.errCode = 4#4 := by
      rcases execDecode_cases s with ⟨n, hexec⟩ | hexec | ⟨-, -, hexec⟩ <;> cases h.symm.trans hexec
      · exact .inr rfl
      · exact absurd rfl hraised
      · exact (decodeLoop_err s.bin s.root s).resolve_left hraised
    simpa using hcode

end Sys2Proof.Machine
end

section
/-! O52: the interrupt output is IRQ_EN and DONE (rule R210). -/

namespace Sys2Proof.Machine

open Sys2Proof

theorem irq_of_not_done {s : State} (h : s.done = false) : irq s = false := by rw [irq, h, Bool.and_false]

/-- Where a command has ended DONE is 1 (rules R203, R204). -/
theorem exec_done {i : Instr} {s t : State} (h : exec i s = .next t) (hidle : t.seq = .idle) : t.done = true := by
  rcases exec_ends h with ended | waiting
  · obtain ⟨-, hdone, -⟩ := ended.idle
    exact hdone
  · exact absurd hidle waiting.place

/-- Settles O52: an end sets DONE and no command writes IRQ_EN; a write of 1 to DONE and an accept clear DONE. -/
theorem interruptFollowsDone : Obligations.InterruptFollowsDone := by
  refine ⟨rfl, fun s => Bool.and_eq_true_iff, fun i s t h hidle => ?_, fun s v hr hv => irq_of_not_done ?_,
    fun s v hr hb => irq_of_not_done ?_⟩
  · obtain ⟨-, hirqEn, -⟩ := exec_untouched h
    rw [irq, hirqEn, exec_done h hidle, Bool.and_true]
  · rw [busWrite_reg (r := .status) hr rfl, writeReg, writeStatus, hv, Bool.not_true, Bool.and_false]
  · rw [busWrite_cmd hr, writeCmd, if_neg (by simp [hb]), accept_done]

end Sys2Proof.Machine
end

section
/-! O54: the reset event, the accesses during it, and the leftovers that RST and a drain hand back (rules R230, R242, R247). -/

namespace Sys2Proof.Machine

open Sys2Proof

/-- An idle codec makes no progress (rule R217). -/
theorem progress_idle {s : State} (h : s.seq = .idle) : progress s = .next s := by
  rcases hr : s.rst with _ | _
  · simp only [progress, hr, pendingWord, h, resume_idle h, Bool.false_eq_true, if_false]
  · exact progress_of_rst hr

/-- While nothing holds the codec, a host move that leaves it idle, as each end of RST does, is the whole step. -/
theorem step_of_move_idle {s : State} {m : HostMove} {rest : List HostMove} (hhold : s.hold = 0) (hhost : s.host = m :: rest)
    (hidle : (hostMove m { s with host := rest }).seq = .idle) : step s = .next (hostMove m { s with host := rest }) := by
  rw [step, hhost]
  exact (if_pos hhold).trans (progress_idle hidle)

theorem releaseRst_of_rst {s : State} (hr : s.rst = true) : releaseRst s = { resetCodec s with rst := false } := if_pos hr

/-- While RST is asserted a bus write does nothing (rule R230). -/
theorem busWrite_of_rst {s : State} (hr : s.rst = true) (off : BitVec 7) (width : Width) (v : Word) : busWrite off width v s = s :=
  if_pos hr

/-- While RST is asserted a bus read answers 0 (rule R230). -/
theorem busRead_of_rst {s : State} (hr : s.rst = true) (off : BitVec 7) (width : Width) :
    busRead off width s = { s with responses := s.responses ++ [.value 0#32] } := if_pos hr

/-- A command that reads YIN reads what was left over there as its own input (rule R242). -/
theorem leftYin_of_reads {s : State} (h : readsYin s.seq = true) : leftYin s = 0 := if_pos h

theorem leftYin_of_not_reads {s : State} (h : readsYin s.seq = false) : leftYin s = s.yinLeft := if_neg (by simp [h])

/-- A command that reads BIN reads what was left over there as its own input (rule R242). -/
theorem leftBin_of_reads {s : State} (h : readsBin s.seq = true) : leftBin s = 0 := if_pos h

theorem leftBin_of_not_reads {s : State} (h : readsBin s.seq = false) : leftBin s = s.binLeft := if_neg (by simp [h])

/-- The leftovers by the command that runs (rules R69, R242). -/
theorem leftovers_by_command (s : State) :
    (s.seq = .idle → leftYin s = s.yinLeft ∧ leftBin s = s.binLeft) ∧
    (s.seq = .freqCount ∨ (∃ p pl, s.seq = .hdrRead p pl) ∨ s.seq = .encodeRead ∨ (∃ bits, s.seq = .encodeEmit bits false) →
      leftYin s = 0 ∧ leftBin s = s.binLeft) ∧
    ((∃ n, s.seq = .decodeRead n) ∨ (∃ n, s.seq = .decodeWrite n) → leftYin s = s.yinLeft ∧ leftBin s = 0) := by
  refine ⟨fun hq => ?_, fun hq => ?_, fun hq => ?_⟩
  · exact ⟨leftYin_of_not_reads (by rw [hq]; rfl), leftBin_of_not_reads (by rw [hq]; rfl)⟩
  · obtain ⟨hyin, hbin⟩ : readsYin s.seq = true ∧ readsBin s.seq = false := by
      rcases hq with hq | ⟨_, _, hq⟩ | hq | ⟨_, hq⟩ <;> rw [hq] <;> exact ⟨rfl, rfl⟩
    exact ⟨leftYin_of_reads hyin, leftBin_of_not_reads hbin⟩
  · obtain ⟨hyin, hbin⟩ : readsYin s.seq = false ∧ readsBin s.seq = true := by
      rcases hq with ⟨_, hq⟩ | ⟨_, hq⟩ <;> rw [hq] <;> exact ⟨rfl, rfl⟩
    exact ⟨leftYin_of_not_reads hyin, leftBin_of_reads hbin⟩

/-- Settles O54: both ends of RST reset the codec, which is then idle; a bus access sees RST first; and an RST or a drain takes as many
of a port's oldest tokens as are leftovers, which are among the tokens. -/
theorem resetAbandonsTheCommand : Obligations.ResetAbandonsTheCommand := by
  refine ⟨fun s rest hhold hhost => ?_, fun s rest hr hhold hhost => ?_,
    fun s off width v hr => ⟨busWrite_of_rst hr off width v, busRead_of_rst hr off width⟩, fun s => ⟨rfl, rfl⟩, leftovers_by_command,
    fun s y b hports => ⟨fun hq => ⟨?_, ?_⟩, ⟨_, (assertRst_offered hports y []).1⟩, _, (assertRst_offered hports [] b).2⟩⟩
  · rw [step_of_move_idle hhold hhost rfl, hostMove, assertRst, resetCodec, hhold]
    rfl
  · have hmove : hostMove .releaseRst { s with host := rest } = { resetCodec { s with host := rest } with rst := false } :=
      releaseRst_of_rst hr
    rw [step_of_move_idle hhold hhost (by rw [hmove]; rfl), hmove, resetCodec, hhold]
    rfl
  · exact drainYin_offered (hports.yin (by rw [hq]; rfl)) y
  · exact drainBin_offered (hports.bin (by rw [hq]; rfl)) b

end Sys2Proof.Machine
end

section
/-! O55: what five commands do from the reset state, whose tables are empty (rules R86, R232, R242). -/

namespace Sys2Proof.Machine

open Sys2Proof

theorem keys_reset : keys State.reset.ft = [] := keys_eq_nil.mpr emptyTable_getElem

/-- The header of an empty mapping is the two braces (rule R172). -/
theorem headerText_of_no_keys {ft : FreqTable} (h : keys ft = []) : headerText ft = [0x7B#8, 0x7D#8] := by
  rw [headerText, h]; rfl

/-- Settles O55: the reset state has no key, no tree and no code, and the host accepts every byte there. -/
theorem commandsRightAfterReset : Obligations.CommandsRightAfterReset := by
  refine ⟨execBuildTree_empty State.reset keys_reset, ?_, fun v rest => ?_, fun rest => ?_, ?_⟩
  · simp only [List.forall_mem_cons]
    exact ⟨execGenCodes_of_noTree (s := State.reset) rfl, execDecode_of_noTree (s := State.reset) rfl, List.forall_mem_nil _⟩
  · exact congrArg Host.Outcome.next (encodeLoop_unknownByte (emptyTable_getElem _) rest)
  · exact congrArg Host.Outcome.next (encodeLoop_endTok_noCode (emptyTable_getElem _) rest)
  · rw [exec_hdrWrite_all rfl, headerText_of_no_keys keys_reset]
    rfl

end Sys2Proof.Machine
end
